-- ==== Sys2Proof/Word.lean ====
section
/-! DEFINITION. The two word types of the block: the byte of its RAMs and the 32-bit register
(spec/10_state.md section 2, spec/20_memory.md R66). -/

namespace Sys2Proof

/-- One byte of SRC, DST or WORK (10_state R39 to R41). -/
abbrev Byte := BitVec 8

/-- One host-visible register, and the data of one host bus access (10_state section 2, 20_memory R66). -/
abbrev Word := BitVec 32

end Sys2Proof
end

