-- ==== Sys2Proof/Config.lean ====
section
/-! DEFINITION. What is fixed for the block: the constants of spec/00_scope.md R3, the parameters of R4
with their constraints, and the free values (values the spec leaves unspecified). -/

namespace Sys2Proof

namespace Config

/-- WINDOW: the largest match distance (00_scope R3). -/
abbrev window : Nat := 4098
/-- MIN_DIST: the smallest match distance (00_scope R3). -/
abbrev minDist : Nat := 3
/-- MAX_LEN: the longest match (00_scope R3). -/
abbrev maxLen : Nat := 18
/-- THRESHOLD: a match is longer than this (00_scope R3). -/
abbrev threshold : Nat := 2
/-- MIN_LEN = THRESHOLD + 1 (00_scope R3). -/
abbrev minLen : Nat := 3
/-- RAW_MAX: the largest raw length (00_scope R3). -/
abbrev rawMax : Nat := 0x00FFFFFF
/-- GROUP: tokens per flag byte (00_scope R3). -/
abbrev group : Nat := 8
/-- HDR_MIN: the smallest legal header_len (00_scope R3). -/
abbrev hdrMin : Nat := 8
/-- HDR_MAX: the largest legal header_len (00_scope R3). -/
abbrev hdrMax : Nat := 11

/-- FREE VALUE (log 2): the byte of SRC at an index nothing has written since the reset numbered by the
first argument (10_state R52: "The contents of SRC, DST and WORK are unspecified after reset"). -/
opaque freeSrc : Nat → Nat → Byte

/-- FREE VALUE (log 2): the byte of DST at an index that holds no result byte, in the generation numbered
by the first argument (20_memory R82, 60_exceptions R304). -/
opaque freeDst : Nat → Nat → Byte

/-- FREE VALUE (log 2): the byte of WORK at an index the running command has not written (10_state R41). -/
opaque freeWork : Nat → Nat → Byte

/-- FREE VALUE (log 4): `fp` at START, "unspecified" in the table of 10_state R44. -/
opaque freeFp : Nat → BitVec 25

/-- FREE VALUE (log 4): `fl` at START, "unspecified" in the table of 10_state R44. -/
opaque freeFl : Nat → Byte

end Config

/-- The parameters of 00_scope R4 with R4's constraints as a proof, so that every value of this type is a
choice the spec lets a model make. -/
structure Params where
  /-- SRC_CAP, bytes of the SRC RAM -/
  srcCap : Nat
  /-- DST_CAP, bytes of the DST RAM -/
  dstCap : Nat
  /-- WORK_CAP, bytes of the WORK RAM -/
  workCap : Nat
  /-- REG_BASE, the host address of the register window -/
  regBase : Nat
  /-- P_MATCH_OVERLAP (41_match_finder R156) -/
  matchOverlap : Bool
  /-- P_ROUNDTRIP_GUARD (44_frame_builder R209) -/
  roundtripGuard : Bool
  /-- the constraints of R4 -/
  legal : (0x01000004 ≤ srcCap ∧ srcCap ≤ 0x02000000) ∧ (0x01000004 ≤ dstCap ∧ dstCap ≤ 0x02000000) ∧
    Config.rawMax + Config.rawMax / 8 + 11 ≤ workCap ∧ regBase % 0x08000000 = 0
  deriving DecidableEq, Repr

/-- The defaults of 00_scope R4. REG_BASE has no default there ("platform"): 0 is a DESIGN CHOICE (log 1). -/
def Params.default : Params where
  srcCap := 0x01400000
  dstCap := 0x01400000
  workCap := 0x01200009
  regBase := 0
  matchOverlap := true
  roundtripGuard := false
  legal := by decide

end Sys2Proof
end

