-- ==== Sys2Proof/Syntax.lean ====
section
/-! DEFINITION. The instructions: one constructor for each row of spec/opcode_table.json
(spec/30_encoding.md). -/

namespace Sys2Proof

/-- The three encoded languages of the block (00_scope section 1): the command word written to CTRL, the
token stream with its flag bytes, and the trailer that closes a frame. -/
inductive Instr where
  /-- ENCODE_NORMAL: OP = 0, MODE = 0. EXP_VALID is stored in CTRL and otherwise ignored (30_encoding R116, R117). -/
  | encodeNormal (expValid : Bool)
  /-- ENCODE_BEST: OP = 0, MODE = 1 (30_encoding R116, R117). -/
  | encodeBest (expValid : Bool)
  /-- DECODE: OP = 1. MODE is stored in CTRL and otherwise ignored (30_encoding R116, R117). -/
  | decode (mode expValid : Bool)
  /-- RESERVED_OP2: OP = 2 (30_encoding R116). -/
  | reservedOp2 (mode expValid : Bool)
  /-- RESERVED_OP3: OP = 3 (30_encoding R116). -/
  | reservedOp3 (mode expValid : Bool)
  /-- LIT: one raw byte (30_encoding R100). -/
  | lit (b : Byte)
  /-- MATCH: a length in 3..18 and a distance in 3..4098 (30_encoding R101). -/
  | matchToken (len dist : Nat)
  /-- FLAG: the flag byte that opens a group (30_encoding R104). -/
  | flag (f : Byte)
  /-- TRAILER_STORED: the 4 zero bytes that end a stored frame (30_encoding R109). -/
  | trailerStored
  /-- TRAILER_COMPRESSED: the 8 bytes that end a compressed frame (30_encoding R110). -/
  | trailerCompressed (encodedLen : BitVec 24) (headerLen : Byte) (increaseLen : Word)
  deriving DecidableEq, Repr

end Sys2Proof
end

