-- ==== Sys2Proof/Machine/State.lean ====
section
/-! DEFINITION. The state of the block: every register and buffer of spec/10_state.md, the parameters of
spec/00_scope.md R4, what the host will still do and who moves next, and the reasons a step can stop. -/

namespace Sys2Proof.Machine

/-- `phase` (10_state R44). -/
inductive Phase where
  | idle
  | run
  deriving DecidableEq, Repr

/-- Where in the pseudocode of the running command a completion step stands (log 7): before its first check
(45_commands R232), at the head of ENCODE's token loop (R234), at the head of DECODE's TOKEN_LOOP
(46_frame_reader R268), or past a loop that a warning has left (R271). -/
inductive Stage where
  | dispatch
  | encodeLoop
  | decodeLoop
  | decodeEnd
  deriving DecidableEq, Repr

/-- The working names of the pseudocode inside ONE completion step (45_commands R242). They are no registers
(10_state R47): they stand in State only while that one transition is cut open (log 6, log 7). -/
structure Progress where
  /-- the place in the pseudocode -/
  stage : Stage
  /-- dec of DECODE (46_frame_reader R265) -/
  decLen : BitVec 24
  /-- pak_len of DECODE, the length of the stream S (46_frame_reader R265, R267) -/
  streamLen : BitVec 24
  /-- raw_len of DECODE (46_frame_reader R265) -/
  rawLen : BitVec 24
  /-- TRUNCATED_STREAM has been warned (60_exceptions R303) -/
  warnTrunc : Bool
  /-- CLAMP has been warned (60_exceptions R303) -/
  warnClamp : Bool
  deriving DecidableEq, Repr

/-- A completion step before its first check: nothing computed, nothing warned. -/
def Progress.fresh : Progress where
  stage := .dispatch
  decLen := 0
  streamLen := 0
  rawLen := 0
  warnTrunc := false
  warnClamp := false

/-- The error kinds of 60_exceptions R301. -/
inductive ErrorKind where
  | corruptHeader
  | badLength
  | decodedTooLarge
  | outOfMemory
  | badCommand
  | inputTooLarge
  | badDistance
  deriving DecidableEq, Repr

/-- The two kinds of host access (30_encoding R121). -/
inductive BusOp where
  | read
  | write (data : Word)
  deriving DecidableEq, Repr

/-- One host bus access: a host address, a width in bytes, a read or a write (20_memory R60, R67; log 20). -/
structure Access where
  addr : Nat
  size : Nat
  op : BusOp
  deriving DecidableEq, Repr

/-- What the outside does, one transition each: a host access, the polling statement WAIT_DONE
(30_encoding R121), or the platform's reset (70_reset_and_hazards R330). -/
inductive Input where
  | access (a : Access)
  | waitDone
  | reset
  deriving DecidableEq, Repr

/-- Who takes the next transition, one of the block's exactly two agents (10_state R20; log 5). -/
inductive Turn where
  | host
  | engine
  deriving DecidableEq, Repr

/-- A byte RAM: index and byte, indices strictly rising. An unlisted index holds no defined byte. -/
abbrev Memory := List Host.Cell

/-- Everything the spec gives the block, as plain data. -/
structure State where
  /-- CTRL (10_state R21 to R25) -/
  ctrl : Word
  /-- STATUS (10_state R26 to R31) -/
  status : Word
  /-- SRC_LEN (10_state R32) -/
  srcLen : Word
  /-- DST_LEN (10_state R33) -/
  dstLen : Word
  /-- EXP_LEN (10_state R34) -/
  expLen : Word
  /-- CUT_PAK (10_state R35) -/
  cutPak : Word
  /-- CUT_RAW (10_state R36) -/
  cutRaw : Word
  /-- PAK_LEN (10_state R37) -/
  pakLen : Word
  /-- SRC (10_state R39) -/
  src : Memory
  /-- DST (10_state R40) -/
  dst : Memory
  /-- WORK (10_state R41) -/
  work : Memory
  /-- phase (10_state R44) -/
  phase : Phase
  /-- l_op (10_state R44) -/
  lOp : BitVec 2
  /-- l_mode (10_state R44) -/
  lMode : Bool
  /-- l_expv (10_state R44) -/
  lExpv : Bool
  /-- l_len (10_state R44) -/
  lLen : Word
  /-- l_exp (10_state R44) -/
  lExp : Word
  /-- cur (10_state R44) -/
  cur : BitVec 24
  /-- wp (10_state R44) -/
  wp : BitVec 25
  /-- fp (10_state R44) -/
  fp : BitVec 25
  /-- gk (10_state R44) -/
  gk : BitVec 4
  /-- pak_tmp (10_state R44) -/
  pakTmp : BitVec 24
  /-- raw_tmp (10_state R44) -/
  rawTmp : BitVec 24
  /-- lb (10_state R44) -/
  lb : BitVec 5
  /-- db (10_state R44) -/
  db : BitVec 13
  /-- ln (10_state R44) -/
  ln : BitVec 5
  /-- lp (10_state R44) -/
  lp : BitVec 5
  /-- ip (10_state R44) -/
  ip : BitVec 25
  /-- oc (10_state R44) -/
  oc : BitVec 24
  /-- dk (10_state R44) -/
  dk : BitVec 4
  /-- fl (10_state R44) -/
  fl : Byte
  /-- the place inside a completion step that the loader has cut open, none in every state the two agents reach
  (the model's own field, no register of the block: log 6, log 7) -/
  midstep : Option Progress
  /-- what the host and the platform will still do, oldest first (20_memory R72; log 5) -/
  inputs : List Input
  /-- who moves next (45_commands R242; log 5) -/
  sched : List Turn
  /-- the data the last host read returned (20_memory R66; log 10) -/
  rdata : Word
  /-- number of resets so far: SRC's free values are applied to it (log 2) -/
  srcGen : Nat
  /-- number of resets and STARTs so far: DST's and WORK's free values are applied to it (log 2) -/
  bufGen : Nat
  /-- the parameters (00_scope R4; log 1) -/
  params : Params
  deriving DecidableEq, Repr

/-- The one reason the machine stops with a fault. -/
inductive Fault where
  /-- Raised by the meaning of a command word in its completion step when the operation bound `opsLeft`
  ran out before the command ended (log 14). Safe: 70_reset_and_hazards R340 says every command ends. -/
  | commandUnfinished
  deriving DecidableEq, Repr

/-- Why a transition does not exist in the model. -/
inductive Refusal where
  /-- Raised by exec for an instruction without a meaning (none). Safe. -/
  | notModelled (mnemonic : String)
  /-- Raised by a host access of the REG window that is not 4 bytes at a multiple of 4
  (60_exceptions R314 item 1: refused). Safe. -/
  | regAccessShape
  /-- Raised by a host access of the SRC or DST window that is not 1, 2 or 4 bytes or not aligned to its size
  (60_exceptions R314 item 2: refused). Safe. -/
  | bufferAccessShape
  /-- Raised by a host write of the SRC window while BUSY = 1 (60_exceptions R314 item 3: refused). Safe. -/
  | srcWriteWhileBusy
  /-- Raised by a host access of the DST window while BUSY = 1 (60_exceptions R314 item 4: refused). Safe. -/
  | dstAccessWhileBusy
  /-- Raised by a host access outside the three windows: "What an access there does is the platform's choice"
  (20_memory R60, 93_implementation_defined section 2: refuse). Safe. -/
  | undecodedAddress
  deriving DecidableEq, Repr

/-- The block right after reset (10_state R52, 70_reset_and_hazards R332): the host-visible registers are
0 and `phase` is IDLE; the RAMs list nothing, so every byte is a free value (log 2). The hidden registers
are "unspecified, and never read before written": 0 here, DESIGN CHOICE (log 3). The parameters are the
defaults of 00_scope R4 (log 1). -/
def State.reset : State where
  ctrl := 0
  status := 0
  srcLen := 0
  dstLen := 0
  expLen := 0
  cutPak := 0
  cutRaw := 0
  pakLen := 0
  src := []
  dst := []
  work := []
  phase := .idle
  lOp := 0
  lMode := false
  lExpv := false
  lLen := 0
  lExp := 0
  cur := 0
  wp := 0
  fp := 0
  gk := 0
  pakTmp := 0
  rawTmp := 0
  lb := 0
  db := 0
  ln := 0
  lp := 0
  ip := 0
  oc := 0
  dk := 0
  fl := 0
  midstep := none
  inputs := []
  sched := []
  rdata := 0
  srcGen := 0
  bufGen := 0
  params := Params.default

end Sys2Proof.Machine
end

