-- ==== Sys2Proof/Machine/Flags.lean ====
section
/-! DEFINITION. The flag computations: the per-token flag bits (spec/30_encoding.md R104, spec/43_flag_packer.md
R181, R185) and the bits of STATUS (spec/10_state.md R26 to R31, spec/60_exceptions.md R301, R304). -/

namespace Sys2Proof.Machine

/-- FLAG_FOLD on the byte: `((f << 1) mod 256) | b` (43_flag_packer R181). -/
def foldFlag (f : Byte) (b : Bool) : Byte := (f <<< (1 : Nat)) ||| (if b then 1 else 0)

/-- FLAG_PAD on the byte: `(f << (8 - gk)) mod 256` (43_flag_packer R185). -/
def padFlag (f : Byte) (gk : Nat) : Byte := f <<< (8 - gk)

/-- `fl[7 - dk]`: the flag of token dk of the group, MSB first (46_frame_reader R268). -/
def tokenBit (f : Byte) (dk : Nat) : Bool := f.getLsbD (7 - dk)

/-- STATUS.BUSY (10_state section 2). -/
def State.busy (s : State) : Bool := s.status.getLsbD 0

/-- STATUS.DONE (10_state section 2). -/
def State.done (s : State) : Bool := s.status.getLsbD 1

/-- STATUS.ERROR (10_state section 2). -/
def State.error (s : State) : Bool := s.status.getLsbD 2

/-- STATUS.WARN_TRUNC (10_state section 2). -/
def State.statusTrunc (s : State) : Bool := s.status.getLsbD 3

/-- STATUS.WARN_CLAMP (10_state section 2). -/
def State.statusClamp (s : State) : Bool := s.status.getLsbD 4

/-- STATUS.FRAME (10_state section 2). -/
def State.frame (s : State) : Bool := s.status.getLsbD 5

/-- STATUS.ERRCODE (10_state section 2). -/
def State.errCode (s : State) : BitVec 4 := s.status.extractLsb' 8 4

/-- The error codes of 60_exceptions R301. -/
def ErrorKind.code : ErrorKind → Nat
  | .corruptHeader => 1
  | .badLength => 2
  | .decodedTooLarge => 3
  | .outOfMemory => 4
  | .badCommand => 5
  | .inputTooLarge => 6
  | .badDistance => 7

/-- STATUS after START: BUSY = 1, all else 0 (45_commands R230). -/
def statusBusy : Word := 1

/-- STATUS after `raise E`: `(code(E) << 8) | 0b110` (60_exceptions R304). -/
def statusError (e : ErrorKind) : Word := BitVec.ofNat 32 (e.code * 256 + 6)

/-- STATUS after `complete`: DONE = 1, FRAME and the warning bits as found, all else 0 (45_commands R240). -/
def statusDone (frame trunc clamp : Bool) : Word :=
  BitVec.ofNat 32 (2 + trunc.toNat * 8 + clamp.toNat * 16 + frame.toNat * 32)

end Sys2Proof.Machine
end

