-- ==== Sys2Proof/WellFormed.lean ====
section
/-! DEFINITION. Which terms of `Instr` an encoding exists for (spec/30_encoding.md R103, R110, R114, R120). -/

namespace Sys2Proof

/-- A term has an encoding that a reader reads back as it. A match needs 3 ≤ length ≤ 18 and
3 ≤ distance ≤ 4098 ("no encoding exists" outside, R120). A compressed trailer needs increase_len ≠ 0,
because a reader takes 0 as stored (R114; log 21). Its header_len may be any byte: outside 8..11 it is read and
then raises CORRUPT_HEADER (R119). Every other operand has its width in its type. -/
def Instr.wf : Instr → Bool
  | .encodeNormal _ => true
  | .encodeBest _ => true
  | .decode _ _ => true
  | .reservedOp2 _ _ => true
  | .reservedOp3 _ _ => true
  | .lit _ => true
  | .matchToken len dist =>
    decide (Config.minLen ≤ len) && decide (len ≤ Config.maxLen) &&
      decide (Config.minDist ≤ dist) && decide (dist ≤ Config.window)
  | .flag _ => true
  | .trailerStored => true
  | .trailerCompressed _ _ inc => decide (inc ≠ 0)

end Sys2Proof
end

