-- ==== Sys2Proof/Decode.lean ====
section
/-! DEFINITION. The decoder of the three encoded languages, total on any word and any bytes and rejecting
by name, and after it the encoder, both from the tables of spec/30_encoding.md; the byte-order helpers
of spec/00_scope.md R8. -/

namespace Sys2Proof

/-! ## Byte order (00_scope R8, 20_memory R64) -/

/-- `le_k(v)`: the k-byte little-endian sequence of `v mod 2^(8k)` (00_scope R8). -/
def leBytes : Nat → Nat → List Byte
  | 0, _ => []
  | k + 1, v => BitVec.ofNat 8 v :: leBytes k (v / 256)

/-- `LE(B)`: the number whose little-endian bytes are B (00_scope R8). -/
def fromLE : List Byte → Nat
  | [] => 0
  | b :: bs => b.toNat + 256 * fromLE bs

/-! ## Decoding -/

/-- Why bytes are no instruction of the language they are read in. -/
inductive DecodeError where
  /-- a CTRL write with bit 0 = 0 is no command (30_encoding R117) -/
  | noStart
  /-- the stream ends inside the token's payload (46_frame_reader R271) -/
  | truncated
  /-- fewer than 4 bytes: no trailer (46_frame_reader R262) -/
  | noTrailer
  /-- increase_len ≠ 0 and fewer than 8 bytes (46_frame_reader R264, check 1) -/
  | shortHeader
  deriving DecidableEq, Repr

/-- The command that an OP, MODE and EXP_VALID select (30_encoding R116, 45_commands R232). -/
def commandOf (op : BitVec 2) (mode expValid : Bool) : Instr :=
  if op = 0 then (if mode then .encodeBest expValid else .encodeNormal expValid)
  else if op = 1 then .decode mode expValid
  else if op = 2 then .reservedOp2 mode expValid
  else .reservedOp3 mode expValid

/-- CTRL.OP of a command word or of CTRL, bits 2:1 (30_encoding R115). -/
def opField (w : Word) : BitVec 2 := w.extractLsb' 1 2

/-- CTRL.MODE, bit 3 (30_encoding R115). -/
def modeField (w : Word) : Bool := w.getLsbD 3

/-- CTRL.EXP_VALID, bit 4 (30_encoding R115). -/
def expValidField (w : Word) : Bool := w.getLsbD 4

/-- A command word (30_encoding R115 to R117): START = 1, the OP, MODE and EXP_VALID fields, bits 31:5 ignored. -/
def decodeCommand (w : Word) : Except DecodeError Instr :=
  if w.getLsbD 0 then .ok (commandOf (opField w) (modeField w) (expValidField w)) else .error .noStart

/-- The length of a match record, `(byte0 >> 4) + 3` (30_encoding R103). -/
def matchLength (byte0 : Byte) : Nat := byte0.toNat / 16 + 3

/-- The distance of a match record, `((byte0 & 0xF) << 8 | byte1) + 3` (30_encoding R103). -/
def matchDistance (byte0 byte1 : Byte) : Nat := byte0.toNat % 16 * 256 + byte1.toNat + 3

/-- A token from its flag bit (0 = literal, 1 = match, 30_encoding R104) and the payload bytes at hand
(R100, R101, R103). A payload that is not all there is rejected; bytes after it are not looked at. -/
def decodeToken (flagBit : Bool) (payload : List Byte) : Except DecodeError Instr :=
  match flagBit, payload with
  | false, b :: _ => .ok (.lit b)
  | true, byte0 :: byte1 :: _ => .ok (.matchToken (matchLength byte0) (matchDistance byte0 byte1))
  | _, _ => .error .truncated

/-- Every byte is a flag byte (30_encoding R104, R119). -/
def decodeFlag (f : Byte) : Instr := .flag f

/-- The trailer at the end of `tail`, the last bytes of a frame in index order: the last 4 bytes alone
tell a stored frame from a compressed one (30_encoding R114), and a compressed trailer is the last 8
bytes (R110). -/
def decodeTrailer (tail : List Byte) : Except DecodeError Instr :=
  let k := tail.length
  if k < 4 then .error .noTrailer
  else
    let inc := fromLE ((tail.drop (k - 4)).take 4)
    if inc = 0 then .ok .trailerStored
    else if k < 8 then .error .shortHeader
    else
      .ok (.trailerCompressed (BitVec.ofNat 24 (fromLE ((tail.drop (k - 8)).take 3)))
        (BitVec.ofNat 8 (fromLE ((tail.drop (k - 5)).take 1))) (BitVec.ofNat 32 inc))

/-! ## The words of spec/opcode_table.json -/

/-- The instruction the decoders above read from a word laid out as the table numbers it: a flag byte
(8 bits), a token word (9 or 17 bits: the flag bit above the payload, whose first byte is the highest,
30_encoding section 1), a command word or the stored trailer (32 bits), a compressed trailer (64 bits,
little-endian). A command word has bit 0 = 1 and the stored trailer is 0, so 32 bits are no ambiguity.
A word that sets a bit the row does not have is rejected (log 18). -/
def decodeTableWord (nbits w : Nat) : Option Instr :=
  if nbits ≤ 8 then (if w < 2 ^ 8 then some (decodeFlag (BitVec.ofNat 8 w)) else none)
  else if nbits ≤ 16 then
    (if w < 2 ^ 8 then (decodeToken false [BitVec.ofNat 8 w]).toOption else none)
  else if nbits ≤ 24 then
    (if 2 ^ 16 ≤ w ∧ w < 2 ^ 17 then
      (decodeToken true [BitVec.ofNat 8 (w / 256), BitVec.ofNat 8 w]).toOption else none)
  else if nbits = 32 then
    (if 2 ^ 32 ≤ w then none
     else if w = 0 then (decodeTrailer (leBytes 4 w)).toOption
     else (decodeCommand (BitVec.ofNat 32 w)).toOption)
  else if nbits = 64 then
    (if w < 2 ^ 64 then (decodeTrailer (leBytes 8 w)).toOption else none)
  else none

/-! ## Encoding -/

/-- First byte of a match record, `((length-3) << 4) | ((distance-3) >> 8)` (30_encoding R101, R102). -/
def matchByte0 (len dist : Nat) : Byte := BitVec.ofNat 8 ((len - 3) * 16 + (dist - 3) / 256)

/-- Second byte of a match record, `(distance-3) & 0xFF` (30_encoding R101, R102). -/
def matchByte1 (dist : Nat) : Byte := BitVec.ofNat 8 (dist - 3)

/-- The fields of CTRL as one word, START reading 0: `(EXP_VALID << 4) | (MODE << 3) | (OP << 1)`
(10_state R23, 30_encoding R115). -/
def ctrlWord (op : BitVec 2) (mode expValid : Bool) : Word :=
  BitVec.ofNat 32 (op.toNat * 2 + mode.toNat * 8 + expValid.toNat * 16)

/-- A command word: the CTRL fields with START = 1 and zeros in the ignored bits 31:5 (30_encoding R115). -/
def commandWord (op : BitVec 2) (mode expValid : Bool) : Word := ctrlWord op mode expValid ||| 1

/-- The flag bit of a token (30_encoding R104: 0 = literal, 1 = match). -/
def tokenFlag : Instr → Bool
  | .matchToken _ _ => true
  | _ => false

/-- The bytes an instruction of the stream or of a frame stands as: the payload of a token (30_encoding
R100, R102), a flag byte (R104), a trailer (R109, R110). A command word has no bytes in a buffer. -/
def payloadBytes : Instr → List Byte
  | .lit b => [b]
  | .matchToken len dist => [matchByte0 len dist, matchByte1 dist]
  | .flag f => [f]
  | .trailerStored => leBytes 4 0
  | .trailerCompressed enc hdr inc => leBytes 3 enc.toNat ++ [hdr] ++ leBytes 4 inc.toNat
  | .encodeNormal _ => []
  | .encodeBest _ => []
  | .decode _ _ => []
  | .reservedOp2 _ _ => []
  | .reservedOp3 _ _ => []

/-- The bits the table gives an instruction's row, in whole bytes, and its word, numbered as the table
numbers it (spec/opcode_table.json, 30_encoding). Ignored bits are 0. -/
def encode : Instr → Nat × Nat
  | .encodeNormal e => (32, (commandWord 0 false e).toNat)
  | .encodeBest e => (32, (commandWord 0 true e).toNat)
  | .decode m e => (32, (commandWord 1 m e).toNat)
  | .reservedOp2 m e => (32, (commandWord 2 m e).toNat)
  | .reservedOp3 m e => (32, (commandWord 3 m e).toNat)
  | .lit b => (16, b.toNat)
  | .matchToken len dist => (24, 2 ^ 16 + (matchByte0 len dist).toNat * 256 + (matchByte1 dist).toNat)
  | .flag f => (8, f.toNat)
  | .trailerStored => (32, 0)
  | .trailerCompressed enc hdr inc => (64, enc.toNat + hdr.toNat * 2 ^ 24 + inc.toNat * 2 ^ 32)

/-! ## Token streams (30_encoding R104 to R107, R120) -/

/-- The flag byte of a group: token j of the group has its flag in bit 7 - j, unused low bits are 0
(30_encoding R104). -/
def flagByteOf (tokens : List Instr) : Byte :=
  BitVec.ofNat 8 ((tokens.foldl (fun acc t => acc * 2 + (tokenFlag t).toNat) 0) * 2 ^ (8 - tokens.length))

/-- One group: its flag byte, then the payloads of its tokens in token order (30_encoding R105). -/
def groupBytes (tokens : List Instr) : List Byte :=
  flagByteOf tokens :: tokens.flatMap payloadBytes

/-- The stream of a token list by groups of 8 (30_encoding R106, R107), `fuel` groups at most. -/
def streamOf : Nat → List Instr → List Byte
  | 0, _ => []
  | _, [] => []
  | fuel + 1, t :: ts => groupBytes ((t :: ts).take 8) ++ streamOf fuel ((t :: ts).drop 8)

/-- A token that the assembler of 30_encoding R120 accepts. -/
def isToken : Instr → Bool
  | .lit _ => true
  | .matchToken len dist => (Instr.matchToken len dist).wf
  | _ => false

/-- Token assembly (30_encoding R120): the stream P of a token list in encode order. A token for which no
encoding exists is refused. -/
def assemble (tokens : List Instr) : Option (List Byte) :=
  if tokens.all isToken then some (streamOf tokens.length tokens) else none

end Sys2Proof
end

