-- ==== Sys2Proof/Machine/Memory.lean ====
section
/-! DEFINITION. A byte RAM as a list of cells in one canonical form: its well-formedness, lookup and
writes (spec/00_scope.md R9, spec/20_memory.md R68: every access is built from single bytes). -/

namespace Sys2Proof.Machine

/-- The canonical form: indices strictly rising. (An unlisted index holds no defined byte, so no entry can
equal what an unlisted index reads as: log 2.) -/
abbrev Memory.wf (m : Memory) : Prop := List.Pairwise (fun x y : Host.Cell => x.1 < y.1) m

/-- The defined byte at an index, if there is one. -/
def Memory.get : Memory → Nat → Option Byte
  | [], _ => none
  | (a, b) :: m, i => if i = a then some b else Memory.get m i

/-- `S[i] <- b` (00_scope R9): one byte written, the canonical form kept. -/
def Memory.set : Memory → Nat → Byte → Memory
  | [], i, b => [(i, b)]
  | (a, c) :: m, i, b =>
    if i < a then (i, b) :: (a, c) :: m
    else if i = a then (i, b) :: m
    else (a, c) :: Memory.set m i b

/-- `MemWrite(S, a, n, v)` (00_scope R9): consecutive byte writes from index `a` on. -/
def Memory.setBytes : Memory → Nat → List Byte → Memory
  | m, _, [] => m
  | m, a, b :: bs => Memory.setBytes (Memory.set m a b) (a + 1) bs

/-- The RAM whose defined bytes are exactly `bs` from index `a` on. -/
def Memory.ofBytesFrom : Nat → List Byte → Memory
  | _, [] => []
  | a, b :: bs => (a, b) :: Memory.ofBytesFrom (a + 1) bs

/-- The RAM whose defined bytes are exactly `bs` from index 0 on. -/
def Memory.ofBytes (bs : List Byte) : Memory := Memory.ofBytesFrom 0 bs

end Sys2Proof.Machine
end

