-- ==== Sys2Proof/Machine/Operands.lean ====
section
/-! DEFINITION. The operand forms: alignment to 4 (spec/00_scope.md R8), the byte reads of the three RAMs, the
bottom-up view R of SRC (spec/40_reverser.md R143), the reversed stream view S (spec/46_frame_reader.md
R267), and the byte lanes of a host access (spec/20_memory.md R66). -/

namespace Sys2Proof.Machine

/-- `align4(v) = (v + 3) - ((v + 3) mod 4)` (00_scope R8). -/
def align4 (v : Nat) : Nat := (v + 3) - (v + 3) % 4

/-- `ceil(n/8)`, flag bytes of n tokens (45_commands R233, 43_flag_packer R186). -/
def ceilDiv8 (n : Nat) : Nat := (n + 7) / 8

/-- `SRC[i]`: the byte written last, else the free value (10_state R39, R52; log 2). -/
def State.srcByte (s : State) (i : Nat) : Byte := (Memory.get s.src i).getD (Config.freeSrc s.srcGen i)

/-- `DST[i]`: the result byte, else the free value (10_state R40, 20_memory R82; log 2). -/
def State.dstByte (s : State) (i : Nat) : Byte := (Memory.get s.dst i).getD (Config.freeDst s.bufGen i)

/-- `WORK[i]`: the byte written last in this command, else the free value (10_state R41; log 2). -/
def State.workByte (s : State) (i : Nat) : Byte := (Memory.get s.work i).getD (Config.freeWork s.bufGen i)

/-- `SRC[a..a+n)` (00_scope R7). -/
def State.srcBytes (s : State) (a n : Nat) : List Byte := (List.range n).map fun k => s.srcByte (a + k)

/-- `WORK[0..n)` (00_scope R7). -/
def State.workBytes (s : State) (n : Nat) : List Byte := (List.range n).map s.workByte

/-- `DST[0..n)` (00_scope R7). -/
def State.dstBytes (s : State) (n : Nat) : List Byte := (List.range n).map s.dstByte

/-- REV (40_reverser R140): `REV(B)[i] = B[m-1-i]`. -/
def rev (bs : List Byte) : List Byte := bs.reverse

/-- The bottom-up buffer as an index mapping, `R[i] = SRC[n-1-i]` with n = l_len (40_reverser R143). -/
def State.bottomUp (s : State) (i : Nat) : Byte := s.srcByte (s.lLen.toNat - 1 - i)

/-! ## The working names of a completion step (log 7) -/

/-- Where the completion step stands: at its start, unless it is cut open. -/
def State.progress (s : State) : Progress := s.midstep.getD Progress.fresh

/-- The place in the pseudocode. -/
def State.stage (s : State) : Stage := s.progress.stage

/-- dec (46_frame_reader R265). -/
def State.decLen (s : State) : BitVec 24 := s.progress.decLen

/-- pak_len of DECODE (46_frame_reader R265). -/
def State.streamLen (s : State) : BitVec 24 := s.progress.streamLen

/-- raw_len (46_frame_reader R265). -/
def State.rawLen (s : State) : BitVec 24 := s.progress.rawLen

/-- TRUNCATED_STREAM as the command found it (45_commands R240). -/
def State.warnTrunc (s : State) : Bool := s.progress.warnTrunc

/-- CLAMP as the command found it (45_commands R240). -/
def State.warnClamp (s : State) : Bool := s.progress.warnClamp

/-! ## Views -/

/-- `want = raw_len - dec`, the bytes the token loop rebuilds (46_frame_reader R268). -/
def State.want (s : State) : Nat := s.rawLen.toNat - s.decLen.toNat

/-- `S[i] = SRC[dec + pak_len - 1 - i]` for i < pak_len, nothing beyond (46_frame_reader R267). -/
def State.streamByte (s : State) (i : Nat) : Option Byte :=
  if i < s.streamLen.toNat then some (s.srcByte (s.decLen.toNat + s.streamLen.toNat - 1 - i)) else none

/-- The data of a read of `size` bytes at index `a`: byte a in bits 7:0, byte a+1 in bits 15:8, and so on
(20_memory R66). -/
def readLanes (byteAt : Nat → Byte) (a size : Nat) : Word :=
  BitVec.ofNat 32 (fromLE ((List.range size).map fun k => byteAt (a + k)))

/-- The bytes a write of `size` bytes carries, lowest index first (20_memory R66). -/
def writeLanes (size : Nat) (data : Word) : List Byte := leBytes size data.toNat

/-- The bytes of a window write that fall below the capacity: the others are ignored (20_memory R62). -/
def belowCap (cap a : Nat) (bs : List Byte) : List Byte := bs.take (cap - a)

end Sys2Proof.Machine
end

