-- ==== Sys2Proof/Machine/Ops.lean ====
section
/-! DEFINITION. The named operations over registers and buffers that the meanings share: START with LATCH
(spec/45_commands.md R230, R231), the error completion `raise` (spec/60_exceptions.md R304), the successful
completion (spec/45_commands.md R240), reset (spec/70_reset_and_hazards.md R332), and register access. -/

namespace Sys2Proof.Machine

/-- What a meaning answers. -/
abbrev Result := Host.Outcome State Fault Refusal

/-- START with LATCH (45_commands R230, R231) for the fields OP, MODE and EXP_VALID, and the initial values of
10_state R44. DST and WORK hold no defined byte from here on (10_state R40 with DST_LEN = 0, R41), and
`fp` and `fl` are free values (log 4). -/
def start (op : BitVec 2) (mode expValid : Bool) (s : State) : State :=
  { s with
    ctrl := ctrlWord op mode expValid
    status := statusBusy
    dstLen := 0
    cutPak := 0
    cutRaw := 0
    pakLen := 0
    dst := []
    work := []
    bufGen := s.bufGen + 1
    phase := .run
    midstep := none
    lOp := op
    lMode := mode
    lExpv := expValid
    lLen := s.srcLen
    lExp := s.expLen
    cur := 0
    wp := 0
    fp := Config.freeFp (s.bufGen + 1)
    gk := 8
    pakTmp := 0
    rawTmp := BitVec.ofNat 24 s.srcLen.toNat
    lb := 0
    db := 0
    ln := 0
    lp := 0
    ip := 0
    oc := 0
    dk := 8
    fl := Config.freeFl (s.bufGen + 1) }

/-- `raise E` (60_exceptions R304), the block's one error mechanism: STATUS reports the code, the result
registers are 0, the engine is idle, DST holds any value (no defined byte). There is no saved state and
nothing to return to (R306). -/
def raise (e : ErrorKind) (s : State) : State :=
  { s with
    status := statusError e
    dstLen := 0
    cutPak := 0
    cutRaw := 0
    pakLen := 0
    dst := []
    phase := .idle
    midstep := none }

/-- `complete(...)` (45_commands R240, R237, 46_frame_reader R273): DST, the result registers and STATUS are
written together and the engine is idle. `out` is DST[0..DST_LEN); no byte beyond is defined (20_memory R82). -/
def complete (out : List Byte) (frame trunc clamp : Bool) (pak raw stream : Nat) (s : State) : State :=
  { s with
    status := statusDone frame trunc clamp
    dstLen := BitVec.ofNat 32 out.length
    cutPak := BitVec.ofNat 32 pak
    cutRaw := BitVec.ofNat 32 raw
    pakLen := BitVec.ofNat 32 stream
    dst := Memory.ofBytes out
    phase := .idle
    midstep := none }

/-- The platform's reset (70_reset_and_hazards R330 to R332): everything as in `State.reset`, but the
parameters stay, the RAMs hold new free contents (log 2), and what the outside will still do, the schedule
and the data it has read are not the block's (log 17). -/
def resetBlock (s : State) : State :=
  { State.reset with
    params := s.params
    inputs := s.inputs
    sched := s.sched
    rdata := s.rdata
    srcGen := s.srcGen + 1
    bufGen := s.bufGen + 1 }

/-- A host read of the register at offset `o` (10_state R23, R26, R32 to R38; START and the reserved bits are
never stored). Offsets 0x20 to 0xFC read 0. -/
def regRead (s : State) (o : Nat) : Word :=
  if o = 0x00 then s.ctrl
  else if o = 0x04 then s.status
  else if o = 0x08 then s.srcLen
  else if o = 0x0C then s.dstLen
  else if o = 0x10 then s.expLen
  else if o = 0x14 then s.cutPak
  else if o = 0x18 then s.cutRaw
  else if o = 0x1C then s.pakLen
  else 0

/-- A host write of `w` to the register at offset `o` that starts no command: CTRL stores `w[4:1]`, SRC_LEN and
EXP_LEN store the word, all three are ignored while BUSY, every other write is ignored (10_state R21, R22,
R32, R34, R38). -/
def regWrite (s : State) (o : Nat) (w : Word) : State :=
  if s.busy then s
  else if o = 0x00 then { s with ctrl := ctrlWord (opField w) (modeField w) (expValidField w) }
  else if o = 0x08 then { s with srcLen := w }
  else if o = 0x10 then { s with expLen := w }
  else s

end Sys2Proof.Machine
end

