-- ==== Sys2Proof/Machine/MatchFinder.lean ====
section
/-! DEFINITION. FIND, the match finder (spec/41_match_finder.md R150), and LOOKAHEAD (spec/42_lookahead.md R170).
Both are pure functions of a bottom-up buffer R of length n (R158, R177). -/

namespace Sys2Proof.Machine

/-- FIND's inner loop (41_match_finder R150, R152, R156): equal bytes of `R` at c and c-d from count `l` on,
with `fuel` = MAX_LEN - l comparisons left. -/
def matchRun (overlap : Bool) (R : Nat → Byte) (n c d : Nat) : Nat → Nat → Nat
  | 0, l => l
  | fuel + 1, l =>
    if c + l = n then l
    else if overlap = false ∧ d ≤ l then l
    else if R (c + l) ≠ R (c + l - d) then l
    else matchRun overlap R n c d fuel (l + 1)

/-- The count l for one distance d (41_match_finder R152). -/
def matchLen (overlap : Bool) (R : Nat → Byte) (n c d : Nat) : Nat :=
  matchRun overlap R n c d Config.maxLen 0

/-- FIND's outer loop (41_match_finder R150, R151, R153, R155): `count` distances from d on, ascending, the
best so far in (best, bd). -/
def findFrom (overlap : Bool) (R : Nat → Byte) (n c : Nat) : Nat → Nat → Nat → Nat → Nat × Nat
  | 0, _, best, bd => (best, bd)
  | count + 1, d, best, bd =>
    if best < matchLen overlap R n c d then
      if matchLen overlap R n c d = Config.maxLen then (matchLen overlap R n c d, d)
      else findFrom overlap R n c count (d + 1) (matchLen overlap R n c d) d
    else findFrom overlap R n c count (d + 1) best bd

/-- FIND(R, n, c) (41_match_finder R150): the longest match at c and its smallest distance, (0, 0) for none. -/
def find (overlap : Bool) (R : Nat → Byte) (n c : Nat) : Nat × Nat :=
  let r := findFrom overlap R n c (min c Config.window + 1 - Config.minDist) Config.minDist Config.threshold 0
  if r.2 = 0 then (0, 0) else r

/-- Step 3 of LOOKAHEAD: a length ≤ 2 counts as 1 (42_lookahead R170, R172). -/
def normalizeLen (l : Nat) : Nat := if l ≤ Config.threshold then 1 else l

/-- Steps 1 to 3 of LOOKAHEAD without the room test: (len_next, len_post), normalised (42_lookahead R170). -/
def lookLengthsAt (overlap : Bool) (R : Nat → Byte) (n c lb : Nat) : Nat × Nat :=
  (normalizeLen (find overlap R n (c + lb)).1, normalizeLen (find overlap R n (c + 1)).1)

/-- Steps 1 to 3 of LOOKAHEAD, only when there is room, c + lb < n (42_lookahead R171). -/
def lookLengths (overlap : Bool) (R : Nat → Byte) (n c lb : Nat) : Option (Nat × Nat) :=
  if c + lb < n then some (lookLengthsAt overlap R n c lb) else none

/-- Step 4 of LOOKAHEAD: DROP when `lb + ln ≤ 1 + lp`, KEEP without room (42_lookahead R170, R173). -/
def lookDrops (lb : Nat) : Option (Nat × Nat) → Bool
  | some (ln, lp) => decide (lb + ln ≤ 1 + lp)
  | none => false

/-- LOOKAHEAD(R, n, c, lb): true for DROP, false for KEEP (42_lookahead R170). -/
def lookahead (overlap : Bool) (R : Nat → Byte) (n c lb : Nat) : Bool :=
  lookDrops lb (lookLengths overlap R n c lb)

end Sys2Proof.Machine
end

