-- ==== Sys2Proof/Machine/Packer.lean ====
section
/-! DEFINITION. The token and flag packer of ENCODE (spec/43_flag_packer.md R180 to R185) and the cut tracker
(spec/44_frame_builder.md R201). -/

namespace Sys2Proof.Machine

/-- GROUP_OPEN's body (43_flag_packer R180): the flag byte `f` (0 in R180) is opened at WORK[wp]. -/
def openGroup (f : Byte) (s : State) : State :=
  { s with
    work := Memory.set s.work s.wp.toNat f
    fp := s.wp
    wp := BitVec.ofNat 25 (s.wp.toNat + 1)
    gk := 0 }

/-- FLAG_FOLD(b) (43_flag_packer R181). -/
def flagFold (b : Bool) (s : State) : State :=
  { s with
    work := Memory.set s.work s.fp.toNat (foldFlag (s.workByte s.fp.toNat) b)
    gk := BitVec.ofNat 4 (s.gk.toNat + 1) }

/-- EMIT_LIT after its FLAG_FOLD(0) (43_flag_packer R182). -/
def putLit (b : Byte) (s : State) : State :=
  { s with
    work := Memory.set s.work s.wp.toNat b
    wp := BitVec.ofNat 25 (s.wp.toNat + 1)
    cur := BitVec.ofNat 24 (s.cur.toNat + 1) }

/-- EMIT_LIT for the byte b at the cursor (43_flag_packer R182). -/
def emitLit (b : Byte) (s : State) : State := putLit b (flagFold false s)

/-- EMIT_MATCH after its FLAG_FOLD(1) (43_flag_packer R183). -/
def putMatch (len dist : Nat) (s : State) : State :=
  { s with
    work := Memory.set (Memory.set s.work s.wp.toNat (matchByte0 len dist)) (s.wp.toNat + 1) (matchByte1 dist)
    wp := BitVec.ofNat 25 (s.wp.toNat + 2)
    cur := BitVec.ofNat 24 (s.cur.toNat + len) }

/-- EMIT_MATCH(lb, db) (43_flag_packer R183). -/
def emitMatch (len dist : Nat) (s : State) : State := putMatch len dist (flagFold true s)

/-- FLAG_PAD (43_flag_packer R185). -/
def flagPad (s : State) : State :=
  if 1 ≤ s.gk.toNat ∧ s.gk.toNat ≤ 7 then
    { s with work := Memory.set s.work s.fp.toNat (padFlag (s.workByte s.fp.toNat) s.gk.toNat) }
  else s

/-- CUT_TRACK (44_frame_builder R201). -/
def cutTrack (s : State) : State :=
  if s.wp.toNat + (s.lLen.toNat - s.cur.toNat) < s.pakTmp.toNat + s.rawTmp.toNat then
    { s with
      pakTmp := BitVec.ofNat 24 s.wp.toNat
      rawTmp := BitVec.ofNat 24 (s.lLen.toNat - s.cur.toNat) }
  else s

end Sys2Proof.Machine
end

