-- ==== Sys2Proof/Machine/FrameBuilder.lean ====
section
/-! DEFINITION. The frame builder of ENCODE (spec/44_frame_builder.md R200 to R209) and its completion
(spec/45_commands.md R237). -/

namespace Sys2Proof.Machine

/-- The stored frame of raw bytes B (30_encoding R112, 44_frame_builder R203). -/
def storedFrame (raw : List Byte) : List Byte :=
  raw ++ List.replicate (align4 raw.length - raw.length) 0 ++ payloadBytes .trailerStored

/-- The compressed frame: the verbatim part, the kept stream prefix reversed, 0xFF pad and the trailer
(30_encoding R113, 44_frame_builder R204 to R208). -/
def compressedFrame (verbatim kept : List Byte) (enc : BitVec 24) (hdr : Byte) (inc : Word) : List Byte :=
  verbatim ++ rev kept ++ List.replicate (hdr.toNat - 8) 0xFF ++ payloadBytes (.trailerCompressed enc hdr inc)

/-- `q = pak_tmp + raw_tmp` (44_frame_builder R202). -/
def State.cutSize (s : State) : Nat := s.pakTmp.toNat + s.rawTmp.toNat

/-- `header_len = 8 + pad`, `pad = align4(q) - q` (44_frame_builder R206). -/
def headerLenOf (q : Nat) : Nat := 8 + (align4 q - q)

/-- `increase_len = n - pak_tmp - raw_tmp - header_len`, exactly (44_frame_builder R208). -/
def increaseLenOf (n q : Nat) : Int := (n : Int) - (q : Int) - (headerLenOf q : Int)

/-- The test of P_ROUNDTRIP_GUARD (44_frame_builder R202, R209). -/
def guardTrips (n pakTmp q : Nat) : Bool :=
  decide (increaseLenOf n q % (2 ^ 32 : Int) = 0) || decide (2 ^ 24 ≤ pakTmp + headerLenOf q)

/-- SELECT (44_frame_builder R202): true for the stored frame. -/
def selectsStored (guard : Bool) (n pakTmp q : Nat) : Bool :=
  decide (pakTmp = 0) || decide (n + 4 < align4 q + 8) || (guard && guardTrips n pakTmp q)

/-- The trailer that SELECT closes the frame with (44_frame_builder R202, R206 to R208). -/
def selectTrailer (s : State) : Instr :=
  let q := s.cutSize
  if selectsStored s.params.roundtripGuard s.lLen.toNat s.pakTmp.toNat q then .trailerStored
  else .trailerCompressed (BitVec.ofNat 24 (s.pakTmp.toNat + headerLenOf q)) (BitVec.ofNat 8 (headerLenOf q))
    (BitVec.ofInt 32 (increaseLenOf s.lLen.toNat q))

/-- `complete(ENCODE)` (45_commands R237): CUT_PAK and CUT_RAW hold the cut even when the frame is stored. -/
def completeEncode (out : List Byte) (frame : Bool) (s : State) : State :=
  complete out frame false false s.pakTmp.toNat s.rawTmp.toNat s.wp.toNat s

/-- STORED_FRAME and complete (44_frame_builder R203, 45_commands R237). -/
def emitStored (s : State) : State := completeEncode (storedFrame (s.srcBytes 0 s.lLen.toNat)) false s

/-- COMPRESSED_FRAME and complete (44_frame_builder R204 to R208, 45_commands R237). -/
def emitCompressed (enc : BitVec 24) (hdr : Byte) (inc : Word) (s : State) : State :=
  completeEncode
    (compressedFrame (s.srcBytes 0 s.rawTmp.toNat) (s.workBytes s.pakTmp.toNat) enc hdr inc) true s

end Sys2Proof.Machine
end

