-- ==== Sys2Proof/Machine/FrameReader.lean ====
section
/-! DEFINITION. The frame reader of DECODE (spec/46_frame_reader.md R260 to R273). -/

namespace Sys2Proof.Machine

/-- STORED_READ (46_frame_reader R262, R263): the raw length m the caller or the frame gives, or
CORRUPT_HEADER. -/
def storedRead (s : State) : State :=
  let T := s.lLen.toNat
  if T < 4 then raise .corruptHeader s
  else if s.lExpv then
    if Config.rawMax < s.lExp.toNat ∨ align4 s.lExp.toNat ≠ T - 4 then raise .corruptHeader s
    else complete (s.srcBytes 0 s.lExp.toNat) false false false 0 0 0 s
  else if (T - 4) % 4 ≠ 0 ∨ align4 Config.rawMax < T - 4 then raise .corruptHeader s
  else complete (s.srcBytes 0 (T - 4)) false false false 0 0 0 s

/-- The header checks of a compressed frame in their order (46_frame_reader R260, R264, R265): the first that
fails decides the error. -/
def headerError (T enc hdr inc dstCap : Nat) : Option ErrorKind :=
  if T < 8 then some .corruptHeader
  else if hdr < Config.hdrMin ∨ Config.hdrMax < hdr then some .corruptHeader
  else if enc ≤ hdr ∨ T < hdr ∨ T < enc then some .badLength
  else if Config.rawMax < (T - enc + enc + inc) % 2 ^ 32 then some .decodedTooLarge
  else if (T - enc + enc + inc) % 2 ^ 32 < T - enc then some .badLength
  else if dstCap < (T - enc + enc + inc) % 2 ^ 32 then some .outOfMemory
  else none

/-- The lengths of R265 and the start of TOKEN_LOOP (46_frame_reader R265, R268). VERBATIM's copy is part of
the output that the completion writes (log 8). -/
def openStream (dec stream raw : Nat) (s : State) : State :=
  { s with
    midstep := some
      { stage := .decodeLoop
        decLen := BitVec.ofNat 24 dec
        streamLen := BitVec.ofNat 24 stream
        rawLen := BitVec.ofNat 24 raw
        warnTrunc := false
        warnClamp := false }
    oc := 0
    ip := 0
    dk := 8 }

/-- The header of a compressed frame (46_frame_reader R264, R265). -/
def readHeader (enc : BitVec 24) (hdr : Byte) (inc : Word) (s : State) : State :=
  match headerError s.lLen.toNat enc.toNat hdr.toNat inc.toNat s.params.dstCap with
  | some e => raise e s
  | none =>
    openStream (s.lLen.toNat - enc.toNat) (enc.toNat - hdr.toNat)
      ((s.lLen.toNat - enc.toNat + enc.toNat + inc.toNat) % 2 ^ 32) s

/-- TOKEN_LOOP's next flag byte (46_frame_reader R268). -/
def flagStep (f : Byte) (s : State) : State :=
  { s with
    fl := f
    ip := BitVec.ofNat 25 (s.ip.toNat + 1)
    dk := 0 }

/-- A token's flag bit and `n` payload bytes are consumed (46_frame_reader R268 to R270). -/
def consumeToken (n : Nat) (s : State) : State :=
  { s with
    dk := BitVec.ofNat 4 (s.dk.toNat + 1)
    ip := BitVec.ofNat 25 (s.ip.toNat + n) }

/-- LIT_STEP for the literal byte b = S[ip] (46_frame_reader R269). -/
def litStep (b : Byte) (s : State) : State :=
  let t := consumeToken 1 s
  { t with
    work := Memory.set t.work t.oc.toNat b
    oc := BitVec.ofNat 24 (t.oc.toNat + 1) }

/-- One byte of a match copy, `WORK[oc] <- WORK[oc - dist]; oc <- oc + 1` (46_frame_reader R270). -/
def copyByte (dist : Nat) (s : State) : State :=
  { s with
    work := Memory.set s.work s.oc.toNat (s.workByte (s.oc.toNat - dist))
    oc := BitVec.ofNat 24 (s.oc.toNat + 1) }

/-- The byte-serial copy of `k` bytes (46_frame_reader R270). -/
def copyMatch (dist : Nat) : Nat → State → State
  | 0, s => s
  | k + 1, s => copyMatch dist k (copyByte dist s)

/-- `warn CLAMP` (46_frame_reader R270, 60_exceptions R303). -/
def clampWarn (s : State) : State := { s with midstep := some { s.progress with warnClamp := true } }

/-- MATCH_STEP for a record (len, dist) (46_frame_reader R270): BAD_DISTANCE before the start of the output, a
CLAMP warning past its end. -/
def matchStep (len dist : Nat) (s : State) : State :=
  let t := consumeToken 2 s
  if t.oc.toNat < dist then raise .badDistance t
  else if t.want - t.oc.toNat < len then
    copyMatch dist (t.want - t.oc.toNat) (clampWarn t)
  else copyMatch dist len t

/-- `warn TRUNCATED_STREAM; break` (46_frame_reader R268 to R271). With dk = 8 it is a flag byte that is missing;
else the token's flag bit is already used up, `dk <- dk + 1` (R268), when LIT_STEP or MATCH_STEP breaks. -/
def truncate (s : State) : State :=
  { s with
    dk := if s.dk = 8 then s.dk else BitVec.ofNat 4 (s.dk.toNat + 1)
    midstep := some { s.progress with stage := .decodeEnd, warnTrunc := true } }

/-- VERBATIM and UNREVERSE as one output (46_frame_reader R266, R272): the verbatim part, zeros where a
truncated stream left a gap, and the p = oc bytes produced in forward order. -/
def decodeOutput (s : State) : List Byte :=
  s.srcBytes 0 s.decLen.toNat ++ List.replicate (s.want - s.oc.toNat) 0 ++ rev (s.workBytes s.oc.toNat)

/-- UNREVERSE and complete(DECODE) (46_frame_reader R272, R273). -/
def decodeFinish (s : State) : State :=
  complete (decodeOutput s) true s.warnTrunc s.warnClamp s.streamLen.toNat s.decLen.toNat 0 s

end Sys2Proof.Machine
end

