-- ==== Sys2Proof/Machine/Tokens.lean ====
section
/-! DEFINITION. The meanings of the token rows LIT, MATCH and FLAG (spec/30_encoding.md R100 to R105). A running
ENCODE emits the token (spec/43_flag_packer.md), any other command reads it (spec/46_frame_reader.md);
log 13. -/

namespace Sys2Proof.Machine

/-- The running command writes a stream (l_op = 0) and does not read one (45_commands R232; log 13). -/
def State.encoding (s : State) : Bool := decide (s.lOp = 0)

/-- LIT: EMIT_LIT (43_flag_packer R182) or LIT_STEP (46_frame_reader R269). -/
def litEffect (b : Byte) (s : State) : State := if s.encoding then emitLit b s else litStep b s

/-- MATCH: EMIT_MATCH (43_flag_packer R183) or MATCH_STEP (46_frame_reader R270). -/
def matchEffect (len dist : Nat) (s : State) : State :=
  if s.encoding then emitMatch len dist s else matchStep len dist s

/-- FLAG: the flag byte of a new group, opened (43_flag_packer R180) or read (46_frame_reader R268). -/
def flagEffect (f : Byte) (s : State) : State := if s.encoding then openGroup f s else flagStep f s

/-- LIT (30_encoding R100). -/
def execLit (b : Byte) (s : State) : Result := .next (litEffect b s)

/-- MATCH (30_encoding R101 to R103). -/
def execMatchToken (len dist : Nat) (s : State) : Result := .next (matchEffect len dist s)

/-- FLAG (30_encoding R104, R105). -/
def execFlag (f : Byte) (s : State) : Result := .next (flagEffect f s)

end Sys2Proof.Machine
end

