-- ==== Sys2Proof/Machine/Trailers.lean ====
section
/-! DEFINITION. The meanings of the trailer rows (spec/30_encoding.md R109, R110): a running ENCODE closes its frame
with the trailer and completes (spec/44_frame_builder.md), any other command reads it
(spec/46_frame_reader.md); log 13. -/

namespace Sys2Proof.Machine

/-- TRAILER_STORED: STORED_FRAME (44_frame_builder R203) or STORED_READ (46_frame_reader R263). -/
def trailerStoredEffect (s : State) : State := if s.encoding then emitStored s else storedRead s

/-- TRAILER_COMPRESSED: COMPRESSED_FRAME (44_frame_builder R204 to R208) or the header checks and lengths
(46_frame_reader R264, R265). -/
def trailerCompressedEffect (enc : BitVec 24) (hdr : Byte) (inc : Word) (s : State) : State :=
  if s.encoding then emitCompressed enc hdr inc s else readHeader enc hdr inc s

/-- TRAILER_STORED (30_encoding R109). -/
def execTrailerStored (s : State) : Result := .next (trailerStoredEffect s)

/-- TRAILER_COMPRESSED (30_encoding R110). -/
def execTrailerCompressed (enc : BitVec 24) (hdr : Byte) (inc : Word) (s : State) : Result :=
  .next (trailerCompressedEffect enc hdr inc s)

end Sys2Proof.Machine
end

