-- ==== Sys2Proof/Machine/Engine.lean ====
section
/-! DEFINITION. The engine: TOKEN_STEP and the bodies of ENCODE and DECODE (spec/45_commands.md R232 to R235,
spec/46_frame_reader.md R260, R268), one internal operation at a time, and the completion step that runs
them all (spec/45_commands.md R242). -/

namespace Sys2Proof.Machine

/-! ## ENCODE -/

/-- ENCODE_CHECK (45_commands R233). -/
def encodeError (p : Params) (n : Nat) : Option ErrorKind :=
  if Config.rawMax < n then some .inputTooLarge
  else if p.srcCap < n ∨ p.dstCap < align4 n + 4 ∨ p.workCap < n + ceilDiv8 n then some .outOfMemory
  else none

/-- ENCODE up to its loop (45_commands R233, R234; CUT_INIT, 44_frame_builder R200). -/
def encodeBegin (s : State) : State :=
  match encodeError s.params s.lLen.toNat with
  | some e => raise e s
  | none =>
    { s with
      cur := 0
      wp := 0
      gk := 8
      pakTmp := 0
      rawTmp := BitVec.ofNat 24 s.lLen.toNat
      midstep := some { Progress.fresh with stage := .encodeLoop } }

/-- GROUP_OPEN (43_flag_packer R180). -/
def groupOpen (s : State) : State := if s.gk = 8 then flagEffect 0 s else s

/-- FIND at the cursor, its result in (lb, db) (45_commands R235). -/
def findStep (s : State) : State :=
  let r := find s.params.matchOverlap s.bottomUp s.lLen.toNat s.cur.toNat
  { s with lb := BitVec.ofNat 5 r.1, db := BitVec.ofNat 13 r.2 }

/-- LOOKAHEAD in best mode when FIND found a match (45_commands R235): the lengths go to (ln, lp), a DROP
clears lb (log 19). -/
def lookaheadStep (s : State) : State :=
  if s.lMode && decide (Config.minLen ≤ s.lb.toNat) then
    match lookLengths s.params.matchOverlap s.bottomUp s.lLen.toNat s.cur.toNat s.lb.toNat with
    | some (ln, lp) =>
      { s with
        ln := BitVec.ofNat 5 ln
        lp := BitVec.ofNat 5 lp
        lb := if lookDrops s.lb.toNat (some (ln, lp)) then 0 else s.lb }
    | none => s
  else s

/-- The token that (lb, db) stands for, emitted (45_commands R235): a match, or the literal R[cur]. -/
def emitToken (s : State) : State :=
  if Config.minLen ≤ s.lb.toNat then matchEffect s.lb.toNat s.db.toNat s
  else litEffect (s.bottomUp s.cur.toNat) s

/-- TOKEN_STEP (45_commands R235). -/
def tokenStep (s : State) : State := cutTrack (emitToken (lookaheadStep (findStep (groupOpen s))))

/-- The effect of an instruction of a stream or a frame on the running command. A command word has none. -/
def streamEffect : Instr → State → State
  | .lit b, s => litEffect b s
  | .matchToken len dist, s => matchEffect len dist s
  | .flag f, s => flagEffect f s
  | .trailerStored, s => trailerStoredEffect s
  | .trailerCompressed enc hdr inc, s => trailerCompressedEffect enc hdr inc s
  | .encodeNormal _, s => s
  | .encodeBest _, s => s
  | .decode _ _, s => s
  | .reservedOp2 _ _, s => s
  | .reservedOp3 _ _, s => s

/-- ENCODE after its loop: FLAG_PAD, SELECT, the frame and complete (45_commands R234). -/
def encodeFinish (s : State) : State :=
  let t := flagPad s
  streamEffect (selectTrailer t) t

/-! ## DECODE -/

/-- The trailer of the frame F = SRC[0..T), or the error of the checks before it (46_frame_reader R260 to R262,
R264 check 1). -/
def fetchTrailer (s : State) : Except ErrorKind Instr :=
  let T := s.lLen.toNat
  if s.params.srcCap < T then .error .outOfMemory
  else
    match decodeTrailer (s.srcBytes (T - 8) (min T 8)) with
    | .ok i => .ok i
    | .error _ => .error .corruptHeader

/-- What TOKEN_LOOP reads next (46_frame_reader R268): a flag byte when the group is used up, else the token
whose flag is `fl[7 - dk]`. None when the output is complete or the stream has no more bytes. -/
def fetchToken (s : State) : Option Instr :=
  if s.oc.toNat < s.want then
    if s.dk = 8 then (s.streamByte s.ip.toNat).map decodeFlag
    else
      (decodeToken (tokenBit s.fl s.dk.toNat)
        ((s.streamByte s.ip.toNat).toList ++ (s.streamByte (s.ip.toNat + 1)).toList)).toOption
  else none

/-- The instruction of a frame or stream that the engine's next internal operation runs, if it is one: DECODE
reads its trailer first and then its stream. -/
def fetchInstr (s : State) : Option Instr :=
  match s.stage with
  | .dispatch => if s.lOp = 1 then (fetchTrailer s).toOption else none
  | .encodeLoop => none
  | .decodeLoop => fetchToken s
  | .decodeEnd => none

/-- The engine's internal operation when it runs no fetched instruction (45_commands R232, R234, R239,
46_frame_reader R260, R268, R271, R272). -/
def internalOp (s : State) : State :=
  match s.stage with
  | .dispatch =>
    if s.lOp = 0 then encodeBegin s
    else if s.lOp = 1 then
      match fetchTrailer s with
      | .error e => raise e s
      | .ok _ => s
    else raise .badCommand s
  | .encodeLoop => if s.cur.toNat < s.lLen.toNat then tokenStep s else encodeFinish s
  | .decodeLoop => if s.oc.toNat < s.want then truncate s else decodeFinish s
  | .decodeEnd => decodeFinish s

/-- One internal operation of the running command's completion step. -/
def engineOp (s : State) : State :=
  match fetchInstr s with
  | some i => streamEffect i s
  | none => internalOp s

/-! ## The completion step -/

/-- A bound on the internal operations a running command still takes (70_reset_and_hazards R340; log 14). -/
def opsLeft (s : State) : Nat :=
  match s.phase with
  | .idle => 0
  | .run =>
    match s.stage with
    | .dispatch => 2 ^ 25 + 8
    | .encodeLoop => s.lLen.toNat - s.cur.toNat + 1
    | .decodeLoop => 2 * (s.want - s.oc.toNat) + (if s.dk = 8 then 1 else 0) + 2
    | .decodeEnd => 1

/-- At most `fuel` internal operations, until the command ends. -/
def runOps : Nat → State → State
  | 0, s => s
  | fuel + 1, s =>
    match s.phase with
    | .idle => s
    | .run => runOps fuel (engineOp s)

/-- The whole remaining computation of the running command (45_commands R242). -/
def runCommand (s : State) : State := runOps (opsLeft s) s

end Sys2Proof.Machine
end

