-- ==== Sys2Proof/Machine/Commands.lean ====
section
/-! DEFINITION. The meanings of the command words (spec/30_encoding.md R116). A command is two transitions
(spec/45_commands.md R242): given to an idle engine it is START (R230, R231); given to the running engine it
is the completion step, which does the whole computation at once. -/

namespace Sys2Proof.Machine

/-- The latches of 45_commands R231 hold the command's fields. -/
def withCommand (op : BitVec 2) (mode expValid : Bool) (s : State) : State :=
  { s with lOp := op, lMode := mode, lExpv := expValid }

/-- The completion step has ended the command (45_commands R240, R242), else the model's own fault (log 14). -/
def ended (s : State) : Result :=
  match s.phase with
  | .idle => .next s
  | .run => .fault .commandUnfinished

/-- A command in its two transitions (45_commands R242): START when idle, the completion step when running
(log 22). -/
def command (op : BitVec 2) (mode expValid : Bool) (s : State) : Result :=
  match s.phase with
  | .idle => .next (start op mode expValid s)
  | .run => ended (runCommand (withCommand op mode expValid s))

/-- ENCODE_NORMAL (45_commands R243): ENCODE with l_mode = 0. -/
def execEncodeNormal (expValid : Bool) (s : State) : Result := command 0 false expValid s

/-- ENCODE_BEST (45_commands R244): ENCODE with l_mode = 1. -/
def execEncodeBest (expValid : Bool) (s : State) : Result := command 0 true expValid s

/-- DECODE (46_frame_reader R260). MODE is stored and latched but read by nothing (45_commands R238). -/
def execDecode (mode expValid : Bool) (s : State) : Result := command 1 mode expValid s

/-- OP = 2: BAD_COMMAND (45_commands R239). -/
def execReservedOp2 (mode expValid : Bool) (s : State) : Result := command 2 mode expValid s

/-- OP = 3: BAD_COMMAND (45_commands R239). -/
def execReservedOp3 (mode expValid : Bool) (s : State) : Result := command 3 mode expValid s

end Sys2Proof.Machine
end

