-- ==== Sys2Proof/Machine/Dispatch.lean ====
section
/-! DEFINITION. exec: one arm per constructor of Instr, each one direct call of its meaning. -/

namespace Sys2Proof.Machine

def exec (i : Instr) (s : State) : Host.Outcome State Fault Refusal :=
  match i with
  | .encodeNormal e => Sys2Proof.Machine.execEncodeNormal e s
  | .encodeBest e => Sys2Proof.Machine.execEncodeBest e s
  | .decode m e => Sys2Proof.Machine.execDecode m e s
  | .reservedOp2 m e => Sys2Proof.Machine.execReservedOp2 m e s
  | .reservedOp3 m e => Sys2Proof.Machine.execReservedOp3 m e s
  | .lit b => Sys2Proof.Machine.execLit b s
  | .matchToken len dist => Sys2Proof.Machine.execMatchToken len dist s
  | .flag f => Sys2Proof.Machine.execFlag f s
  | .trailerStored => Sys2Proof.Machine.execTrailerStored s
  | .trailerCompressed enc hdr inc => Sys2Proof.Machine.execTrailerCompressed enc hdr inc s

end Sys2Proof.Machine
end

