-- ==== Sys2Proof/Machine/Bus.lean ====
section
/-! DEFINITION. Host accesses (spec/20_memory.md R60 to R75, spec/60_exceptions.md R314). -/

namespace Sys2Proof.Machine

/-- Where a host address leads (20_memory R60): an offset in one of the three windows, or nowhere. -/
inductive Window where
  | reg (o : Nat)
  | src (i : Nat)
  | dst (i : Nat)
  | undecoded
  deriving DecidableEq, Repr

/-- The address map (20_memory R60). -/
def windowOf (p : Params) (addr : Nat) : Window :=
  if addr < p.regBase then .undecoded
  else
    let o := addr - p.regBase
    if o < 0x100 then .reg o
    else if 0x2000000 ≤ o ∧ o < 0x4000000 then .src (o - 0x2000000)
    else if 0x4000000 ≤ o ∧ o < 0x6000000 then .dst (o - 0x4000000)
    else .undecoded

/-- The register window's access rule (20_memory R67). -/
def regShape (o size : Nat) : Bool := decide (size = 4) && decide (o % 4 = 0)

/-- The buffer windows' access rule (20_memory R67). -/
def bufferShape (i size : Nat) : Bool :=
  (decide (size = 1) || decide (size = 2) || decide (size = 4)) && decide (i % size = 0)

/-- A byte of the SRC window: SRC below its capacity, else 0 (20_memory R62). -/
def srcWindowByte (s : State) (i : Nat) : Byte := if i < s.params.srcCap then s.srcByte i else 0

/-- A byte of the DST window: DST below its capacity, else 0 (20_memory R62). -/
def dstWindowByte (s : State) (i : Nat) : Byte := if i < s.params.dstCap then s.dstByte i else 0

/-- What a host access comes to. -/
inductive BusEffect where
  /-- the access took effect -/
  | done (s : State)
  /-- a write to CTRL with bit 0 = 1 while BUSY = 0: an accepted START (45_commands R230) -/
  | starts (w : Word)
  /-- a transition that does not exist in the model (60_exceptions R314) -/
  | rejected (r : Refusal)
  deriving DecidableEq, Repr

/-- An access of the register window (20_memory R61, 10_state R21 to R38). -/
def regAccess (o size : Nat) (op : BusOp) (s : State) : BusEffect :=
  if regShape o size then
    match op with
    | .read => .done { s with rdata := regRead s o }
    | .write w => if o = 0 ∧ s.busy = false ∧ w.getLsbD 0 = true then .starts w else .done (regWrite s o w)
  else .rejected .regAccessShape

/-- An access of the SRC window (20_memory R62, R66, R67, R75). -/
def srcAccess (i size : Nat) (op : BusOp) (s : State) : BusEffect :=
  if bufferShape i size then
    match op with
    | .read => .done { s with rdata := readLanes (srcWindowByte s) i size }
    | .write w =>
      if s.busy then .rejected .srcWriteWhileBusy
      else .done { s with src := Memory.setBytes s.src i (belowCap s.params.srcCap i (writeLanes size w)) }
  else .rejected .bufferAccessShape

/-- An access of the DST window (20_memory R62, R66, R67, R75). Only the engine writes DST (10_state R40), so a
host write while idle changes nothing (log 9). -/
def dstAccess (i size : Nat) (op : BusOp) (s : State) : BusEffect :=
  if bufferShape i size then
    if s.busy then .rejected .dstAccessWhileBusy
    else
      match op with
      | .read => .done { s with rdata := readLanes (dstWindowByte s) i size }
      | .write _ => .done s
  else .rejected .bufferAccessShape

/-- One host access (20_memory R69: it takes effect entirely, in one transition). -/
def busAccess (a : Access) (s : State) : BusEffect :=
  match windowOf s.params a.addr with
  | .reg o => regAccess o a.size a.op s
  | .src i => srcAccess i a.size a.op s
  | .dst i => dstAccess i a.size a.op s
  | .undecoded => .rejected .undecodedAddress

/-- One poll of WAIT_DONE (30_encoding R121): a read of STATUS; the statement is over when DONE = 1, else it
stays the host's next one. -/
def pollDone (rest : List Input) (s : State) : State :=
  { s with rdata := s.status, inputs := if s.done then rest else .waitDone :: rest }

end Sys2Proof.Machine
end

