-- ==== Sys2Proof/Machine/Fetch.lean ====
section
/-! DEFINITION. Who moves next and what that transition runs (spec/20_memory.md R72, R76, spec/45_commands.md R242),
and how a word is placed where the next transition runs it (log 15). -/

namespace Sys2Proof.Machine

/-- Which agent takes the next transition: as the schedule says, and with no schedule the engine while a command runs
and else the host (log 5). -/
def nextTurn (s : State) : Turn :=
  match s.sched with
  | t :: _ => t
  | [] => match s.phase with
    | .run => .engine
    | .idle => .host

/-- The scheduled turn is used up. -/
def popTurn (s : State) : State := { s with sched := s.sched.tail }

/-- What the next transition is: an instruction and the state it runs in, or a transition that is none. -/
inductive Fetched where
  | instr (i : Instr) (s : State)
  | other (r : Result)

/-- The command word the latches hold (45_commands R231, R232). -/
def latchedWord (s : State) : Word := commandWord s.lOp s.lMode s.lExpv

/-- The host side's transition: the oldest input (20_memory R72). With none the turn passes (log 12). -/
def hostFetch (s : State) : Fetched :=
  match s.inputs with
  | [] => .other (.next s)
  | .reset :: rest => .other (.next (resetBlock { s with inputs := rest }))
  | .waitDone :: rest => .other (.next (pollDone rest s))
  | .access a :: rest =>
    match busAccess a { s with inputs := rest } with
    | .done t => .other (.next t)
    | .rejected r => .other (.refused r)
    | .starts w =>
      match decodeCommand w with
      | .ok i => .instr i { s with inputs := rest }
      | .error _ => .other (.next { s with inputs := rest })

/-- The engine's completion step: the latched command (45_commands R232, R242). Idle, it has no step and the
turn passes (10_state R20; log 12). -/
def engineFetch (s : State) : Fetched :=
  match s.phase with
  | .idle => .other (.next s)
  | .run =>
    match decodeCommand (latchedWord s) with
    | .ok i => .instr i s
    | .error _ => .other (.next s)

/-- The next part of a completion step that is cut open (log 6): the fetched token or trailer, or the operation
between them. -/
def opFetch (s : State) : Fetched :=
  match s.phase with
  | .idle => .other (.next s)
  | .run =>
    match fetchInstr s with
    | some i => .instr i s
    | none => .other (.next (internalOp s))

/-- A transition of one of the two agents (10_state R20, 20_memory R76). -/
def turnFetch (s : State) : Fetched :=
  match nextTurn s with
  | .host => hostFetch (popTurn s)
  | .engine => engineFetch (popTurn s)

/-- The next transition: an agent's. A completion step that the loader has cut open (log 6, log 15) is one
transition of 45_commands R242, so its remaining parts come first and no agent moves between them. -/
def fetch (s : State) : Fetched :=
  match s.midstep with
  | none => turnFetch s
  | some _ => opFetch s

/-! ## Placing a word (log 15) -/

/-- The host's next transition is a 4-byte write of `w` to CTRL, and the engine is idle to accept it. -/
def placeCommand (w : Word) (s : State) : State :=
  { s with
    phase := .idle
    midstep := none
    status := s.status &&& ~~~1
    inputs := .access { addr := s.params.regBase, size := 4, op := .write w } :: s.inputs
    sched := .host :: s.sched }

/-- The engine is inside the completion step of a DECODE, cut open at `p`. -/
def placeDecode (p : Progress) (s : State) : State :=
  { s with
    phase := .run
    status := statusBusy
    lOp := 1
    midstep := some p }

/-- `payload` is the stream S that DECODE's token loop reads next, with `dk` tokens of the flag byte `f` used
up, after 4098 bytes of output, so that every distance is in range, and 18 bytes before its end. -/
def placeStream (payload : List Byte) (f : Byte) (dk : BitVec 4) (s : State) : State :=
  { placeDecode
      { Progress.fresh with
        stage := .decodeLoop
        streamLen := BitVec.ofNat 24 payload.length
        rawLen := 4116 } s with
    src := Memory.setBytes s.src 0 payload.reverse
    lLen := BitVec.ofNat 32 (payload.length + 8)
    oc := 4098
    ip := 0
    fl := f
    dk := dk }

/-- `trailer` ends the frame that DECODE reads next, in a frame long enough for its encoded_len. -/
def placeTrailer (trailer : List Byte) (T : Nat) (s : State) : State :=
  { placeDecode Progress.fresh s with
    src := Memory.setBytes s.src (T - trailer.length) trailer
    lLen := BitVec.ofNat 32 T }

/-- An instruction placed so that the very next step fetches and runs it. -/
def placeInstr (i : Instr) (w : Nat) (s : State) : State :=
  match i with
  | .encodeNormal _ => placeCommand (BitVec.ofNat 32 w) s
  | .encodeBest _ => placeCommand (BitVec.ofNat 32 w) s
  | .decode _ _ => placeCommand (BitVec.ofNat 32 w) s
  | .reservedOp2 _ _ => placeCommand (BitVec.ofNat 32 w) s
  | .reservedOp3 _ _ => placeCommand (BitVec.ofNat 32 w) s
  | .lit b => placeStream (payloadBytes (.lit b)) 0x00 0 s
  | .matchToken len dist => placeStream (payloadBytes (.matchToken len dist)) 0x80 0 s
  | .flag f => placeStream (payloadBytes (.flag f)) 0x00 8 s
  | .trailerStored => placeTrailer (payloadBytes .trailerStored) 4 s
  | .trailerCompressed enc hdr inc =>
    placeTrailer (payloadBytes (.trailerCompressed enc hdr inc)) (max 8 enc.toNat) s

/-- A word of the opcode table placed for the next step. A word that is no instruction is the data of a host
write to CTRL. -/
def placeWord (nbits w : Nat) (s : State) : State :=
  match decodeTableWord nbits w with
  | some i => placeInstr i w s
  | none => placeCommand (BitVec.ofNat 32 w) s

end Sys2Proof.Machine
end

