-- ==== Sys2Proof/Machine/Step.lean ====
section
/-! DEFINITION. The step: one transition of the two-agent machine (spec/20_memory.md R76, spec/45_commands.md R242). -/

namespace Sys2Proof.Machine

/-- One transition: a fetched instruction is run by exec, any other transition is as `fetch` gives it. -/
def step (s : State) : Host.Outcome State Fault Refusal :=
  match fetch s with
  | .instr i t => exec i t
  | .other r => r

/-- The word w of nbits bits placed where the next step runs it (log 15). -/
def State.withFetchWord (s : State) (nbits w : Nat) : State := placeWord nbits w s

end Sys2Proof.Machine
end

