-- ==== Sys2Proof/Safety.lean ====
section
/-! DEFINITION. What a legal state of the block is (`State.Inv`), and the frames that claims name: which parts of two
states agree. -/

namespace Sys2Proof.Machine

/-! ## The invariant -/

/-- The values STATUS may have while no command runs (10_state R28 to R30, 60_exceptions R301, R303): after
reset, after a success without and with FRAME, after a DECODE with each warning, after each error. -/
abbrev idleStatuses : List Nat :=
  [0x000, 0x002, 0x022, 0x02A, 0x032, 0x106, 0x206, 0x306, 0x406, 0x506, 0x606, 0x706]

/-- The three RAMs are in canonical form and inside their capacities (10_state R39 to R41, 20_memory R83), and the
defined bytes of DST are exactly DST[0..DST_LEN) (20_memory R82). -/
abbrev RamsOk (s : State) : Prop :=
  Memory.wf s.src ∧ (∀ c ∈ s.src, c.1 < s.params.srcCap) ∧
  s.dst.map Prod.fst = List.range s.dstLen.toNat ∧ s.dstLen.toNat ≤ s.params.dstCap ∧
  Memory.wf s.work ∧ (∀ c ∈ s.work, c.1 < s.params.workCap)

/-- CTRL's START and reserved bits read 0 (10_state R23). While BUSY, STATUS is 1 and the result registers are 0
(45_commands R230, 70_reset_and_hazards R335). Else STATUS is one of the legal values, and the result
registers are 0 after an error (10_state R27, R28, 60_exceptions R304). -/
abbrev RegsOk (s : State) : Prop :=
  s.ctrl &&& 0xFFFFFFE1 = 0 ∧
  (s.phase = .run → s.status = 1 ∧ s.dstLen = 0 ∧ s.cutPak = 0 ∧ s.cutRaw = 0 ∧ s.pakLen = 0) ∧
  (s.phase = .idle → s.status.toNat ∈ idleStatuses ∧ s.midstep = none ∧
    (s.error = true → s.dstLen = 0 ∧ s.cutPak = 0 ∧ s.cutRaw = 0 ∧ s.pakLen = 0))

/-- ENCODE at the head of its token loop: cur within the input (10_state R51), the length of the stream so far
bounded (43_flag_packer R186), the open flag byte behind the write index (R180), and the cut never worse
than the boundary before the first token (44_frame_builder R200, R201). -/
abbrev EncodeOk (s : State) : Prop :=
  s.lOp = 0 ∧ s.lLen.toNat ≤ Config.rawMax ∧ s.cur.toNat ≤ s.lLen.toNat ∧ s.gk.toNat ≤ 8 ∧
  8 * s.wp.toNat + s.gk.toNat ≤ 9 * s.cur.toNat + 8 ∧ (s.gk.toNat < 8 → s.fp.toNat < s.wp.toNat) ∧
  s.pakTmp.toNat ≤ s.wp.toNat ∧ (s.pakTmp = 0 → s.rawTmp.toNat = s.lLen.toNat) ∧
  (s.pakTmp ≠ 0 → s.pakTmp.toNat + s.rawTmp.toNat < s.lLen.toNat)

/-- DECODE past its header: the verbatim part and the stream lie inside the frame before the trailer
(46_frame_reader R265), the output fits, and the indices are in range (R268). -/
abbrev DecodeOk (s : State) : Prop :=
  s.lOp = 1 ∧ s.lLen.toNat ≤ s.params.srcCap ∧ s.decLen.toNat + s.streamLen.toNat + 8 ≤ s.lLen.toNat ∧
  s.decLen.toNat ≤ s.rawLen.toNat ∧ s.oc.toNat ≤ s.want ∧ s.ip.toNat ≤ s.streamLen.toNat ∧ s.dk.toNat ≤ 8

/-- The engine's hidden registers while a command runs (10_state R44), with the warnings as R303 of
60_exceptions leaves them: none inside the loop unless a clamp has completed the output, and TRUNCATED_STREAM
alone after a broken loop. (A place inside the loops exists only where a completion step is cut open, log 6.) -/
abbrev EngineOk (s : State) : Prop :=
  (s.phase = .run ∧ s.stage = .encodeLoop → EncodeOk s) ∧
  (s.phase = .run ∧ s.stage = .decodeLoop →
    DecodeOk s ∧ s.warnTrunc = false ∧ (s.warnClamp = true → s.oc.toNat = s.want)) ∧
  (s.phase = .run ∧ s.stage = .decodeEnd →
    DecodeOk s ∧ s.warnTrunc = true ∧ s.warnClamp = false)

/-- A legal state of the block. -/
abbrev State.Inv (s : State) : Prop := RamsOk s ∧ RegsOk s ∧ EngineOk s

/-! ## Frames -/

/-- Every host-visible register agrees (10_state section 2). -/
abbrev SameHostRegs (s t : State) : Prop :=
  t.ctrl = s.ctrl ∧ t.status = s.status ∧ t.srcLen = s.srcLen ∧ t.dstLen = s.dstLen ∧ t.expLen = s.expLen ∧
  t.cutPak = s.cutPak ∧ t.cutRaw = s.cutRaw ∧ t.pakLen = s.pakLen

/-- What lies outside the block's buffers and registers agrees: inputs, schedule, data read, parameters, and the
counters of the free values. -/
abbrev SameOutside (s t : State) : Prop :=
  t.inputs = s.inputs ∧ t.sched = s.sched ∧ t.rdata = s.rdata ∧ t.params = s.params ∧
  t.srcGen = s.srcGen ∧ t.bufGen = s.bufGen

/-- Every byte of SRC reads as before. -/
abbrev SameSrc (s t : State) : Prop := ∀ a, t.srcByte a = s.srcByte a

/-- Every byte of DST reads as before. -/
abbrev SameDst (s t : State) : Prop := ∀ a, t.dstByte a = s.dstByte a

/-- Every byte of WORK reads as before. -/
abbrev SameWork (s t : State) : Prop := ∀ a, t.workByte a = s.workByte a

/-- The latches of START agree (45_commands R231). -/
abbrev SameLatches (s t : State) : Prop :=
  t.lOp = s.lOp ∧ t.lMode = s.lMode ∧ t.lExpv = s.lExpv ∧ t.lLen = s.lLen ∧ t.lExp = s.lExp

/-- ENCODE's datapath registers agree (10_state R44). -/
abbrev SameEncoder (s t : State) : Prop :=
  t.cur = s.cur ∧ t.wp = s.wp ∧ t.fp = s.fp ∧ t.gk = s.gk ∧ t.pakTmp = s.pakTmp ∧ t.rawTmp = s.rawTmp ∧
  t.lb = s.lb ∧ t.db = s.db ∧ t.ln = s.ln ∧ t.lp = s.lp

/-- DECODE's datapath registers agree (10_state R44). -/
abbrev SameDecoder (s t : State) : Prop :=
  t.ip = s.ip ∧ t.oc = s.oc ∧ t.dk = s.dk ∧ t.fl = s.fl

/-- The engine stands where it stood. -/
abbrev SamePlace (s t : State) : Prop := t.phase = s.phase ∧ t.midstep = s.midstep

/-- An error completion from `s` to `t` (60_exceptions R304): STATUS reports the code, the result registers are 0,
the engine is idle, SRC and everything outside are unchanged. DST may be anything. -/
abbrev RaisedAs (code : Nat) (s t : State) : Prop :=
  t.status.toNat = code * 256 + 6 ∧ t.dstLen = 0 ∧ t.cutPak = 0 ∧ t.cutRaw = 0 ∧ t.pakLen = 0 ∧
  t.phase = .idle ∧ t.midstep = none ∧ t.ctrl = s.ctrl ∧ t.srcLen = s.srcLen ∧ t.expLen = s.expLen ∧ SameSrc s t ∧ SameOutside s t

end Sys2Proof.Machine
end

