-- ==== Sys2Proof/Certificates/Slice0/Obligations.lean ====
section
/-! DEFINITION. The statements for the provers. Each docstring names the rules of spec/ it comes from. -/

open Sys2Proof Sys2Proof.Machine

namespace Sys2Proof.Machine

/-! ## Words the statements use -/

/-- The host side moves next. (No completion step is cut open: log 6.) -/
abbrev HostMoves (s : State) : Prop := s.midstep = none ∧ nextTurn s = .host

/-- The engine moves next. (No completion step is cut open: log 6.) -/
abbrev EngineMoves (s : State) : Prop := s.midstep = none ∧ nextTurn s = .engine

/-- The host side moves next and its next input is the access `a`. -/
abbrev HostDoes (s : State) (a : Access) (rest : List Input) : Prop := HostMoves s ∧ s.inputs = .access a :: rest

/-- The state once the schedule's turn and the input are used up, nothing else. -/
abbrev afterInput (s : State) (rest : List Input) : State := { popTurn s with inputs := rest }

/-- A 4-byte write of `w` to the register at offset `o`. -/
abbrev regWriteAt (s : State) (o : Nat) (w : Word) : Access := { addr := s.params.regBase + o, size := 4, op := .write w }

/-- A 4-byte read of the register at offset `o`. -/
abbrev regReadAt (s : State) (o : Nat) : Access := { addr := s.params.regBase + o, size := 4, op := .read }

/-- An access of `size` bytes at byte offset `i` of the SRC window (20_memory R60). -/
abbrev srcAccessAt (s : State) (i size : Nat) (op : BusOp) : Access :=
  { addr := s.params.regBase + 0x2000000 + i, size := size, op := op }

/-- An access of `size` bytes at byte offset `i` of the DST window (20_memory R60). -/
abbrev dstAccessAt (s : State) (i size : Nat) (op : BusOp) : Access :=
  { addr := s.params.regBase + 0x4000000 + i, size := size, op := op }

/-- The width and alignment a buffer window asks for (20_memory R67). -/
abbrev BufferShaped (i size : Nat) : Prop := (size = 1 ∨ size = 2 ∨ size = 4) ∧ i % size = 0

/-- A running command before its first check (45_commands R232). -/
abbrev JustStarted (s : State) : Prop := s.phase = .run ∧ s.midstep = none

/-- The order of DECODE's checks as 60_exceptions R305 lists it, with the causes of R302: the error code, or none. -/
def decodeCheck (s : State) (expValid : Bool) : Option Nat :=
  let T := s.lLen.toNat
  let inc := fromLE (s.srcBytes (T - 4) 4)
  let hdr := (s.srcByte (T - 5)).toNat
  let enc := fromLE (s.srcBytes (T - 8) 3)
  let raw := (T - enc + enc + inc) % 2 ^ 32
  if s.params.srcCap < T then some 4
  else if T < 4 then some 1
  else if inc = 0 then
    if expValid then (if Config.rawMax < s.lExp.toNat ∨ align4 s.lExp.toNat ≠ T - 4 then some 1 else none)
    else (if (T - 4) % 4 ≠ 0 ∨ 0x01000000 < T - 4 then some 1 else none)
  else if T < 8 then some 1
  else if hdr < 8 ∨ 11 < hdr then some 1
  else if enc ≤ hdr ∨ T < hdr ∨ T < enc then some 2
  else if Config.rawMax < raw then some 3
  else if raw < T - enc then some 2
  else none

end Sys2Proof.Machine

/-! ## Encodings -/

/-- Words written out from the tables of 30_encoding R100 to R117 and from 43_flag_packer R183 and
95_test_vectors 2.7 decode to what they stand for. -/
def Obligations.SampleWordsDecode : Prop :=
  decodeTableWord 32 0x00000001 = some (.encodeNormal false) ∧
  decodeTableWord 32 0xFFFFFFE1 = some (.encodeNormal false) ∧
  decodeTableWord 32 0x00000019 = some (.encodeBest true) ∧
  decodeTableWord 32 0x0000000B = some (.decode true false) ∧
  decodeTableWord 32 0x00000013 = some (.decode false true) ∧
  decodeTableWord 32 0x00000005 = some (.reservedOp2 false false) ∧
  decodeTableWord 32 0x0000000F = some (.reservedOp3 true false) ∧
  decodeTableWord 32 0x00000000 = some .trailerStored ∧
  decodeTableWord 16 0x043 = some (.lit 0x43) ∧
  decodeTableWord 24 0x17100 = some (.matchToken 10 259) ∧
  decodeTableWord 24 0x1FFFF = some (.matchToken 18 4098) ∧
  decodeTableWord 8 0x20 = some (.flag 0x20) ∧
  decodeTableWord 64 0x000000030B000011 = some (.trailerCompressed 17 11 3)

/-- 30_encoding R100 to R116: reading back the word of any well-formed instruction gives the instruction, with
every operand at every value its encoding admits. -/
def Obligations.DecodeOfEncodeIsInstr : Prop :=
  ∀ i : Instr, i.wf = true → decodeTableWord (encode i).1 (encode i).2 = some i

/-- 30_encoding R116: the opcode map of the command word, by its match and mask, whatever bits 31:5 hold, with
MODE and EXP_VALID as operands; and a word with bit 0 = 0 is no command. -/
def Obligations.CommandWordSelectsCommand : Prop :=
  ∀ w : Word,
    (w &&& 0xF = 0x1 → decodeCommand w = .ok (.encodeNormal (w.getLsbD 4))) ∧
    (w &&& 0xF = 0x9 → decodeCommand w = .ok (.encodeBest (w.getLsbD 4))) ∧
    (w &&& 0x7 = 0x3 → decodeCommand w = .ok (.decode (w.getLsbD 3) (w.getLsbD 4))) ∧
    (w &&& 0x7 = 0x5 → decodeCommand w = .ok (.reservedOp2 (w.getLsbD 3) (w.getLsbD 4))) ∧
    (w &&& 0x7 = 0x7 → decodeCommand w = .ok (.reservedOp3 (w.getLsbD 3) (w.getLsbD 4))) ∧
    (w &&& 0x1 = 0x0 → decodeCommand w = .error .noStart)

/-- 30_encoding R102 and R103: the fields of a match record, assembled for every legal length and distance, and
extracted from every byte pair, none of which is reserved. -/
def Obligations.MatchRecordFields : Prop :=
  (∀ len dist : Nat, 3 ≤ len → len ≤ 18 → 3 ≤ dist → dist ≤ 4098 →
    (matchByte0 len dist).toNat = (len - 3) <<< 4 ||| (dist - 3) >>> 8 ∧
    (matchByte1 dist).toNat = (dist - 3) &&& 0xFF) ∧
  (∀ (b0 b1 : Byte) (rest : List Byte), ∃ len dist : Nat,
    decodeToken true (b0 :: b1 :: rest) = .ok (.matchToken len dist) ∧
    len = (b0.toNat >>> 4) + 3 ∧ dist = ((b0.toNat &&& 0xF) <<< 8 ||| b1.toNat) + 3 ∧
    3 ≤ len ∧ len ≤ 18 ∧ 3 ≤ dist ∧ dist ≤ 4098 ∧ matchByte0 len dist = b0 ∧ matchByte1 dist = b1)

/-- 30_encoding R114 with R110: of any end of a frame of at least 8 bytes, the last 4 bytes alone tell a stored
from a compressed trailer, and the fields of the latter are where R110 puts them. -/
def Obligations.LastFourBytesTellFrames : Prop :=
  ∀ (front : List Byte) (e0 e1 e2 h i0 i1 i2 i3 : Byte),
    (fromLE [i0, i1, i2, i3] = 0 →
      decodeTrailer (front ++ [e0, e1, e2, h, i0, i1, i2, i3]) = .ok .trailerStored) ∧
    (fromLE [i0, i1, i2, i3] ≠ 0 → ∃ (enc : BitVec 24) (inc : Word),
      decodeTrailer (front ++ [e0, e1, e2, h, i0, i1, i2, i3]) = .ok (.trailerCompressed enc h inc) ∧
      enc.toNat = fromLE [e0, e1, e2] ∧ inc.toNat = fromLE [i0, i1, i2, i3])

/-! ## The step -/

/-- A step runs the decoded instruction (45_commands R230, R242): a host write of a command word to CTRL while idle
runs that word; the engine's turn runs the latched command; and a completion step that the loader has cut open (log 6)
runs the token or trailer it reads from the frame. -/
def Obligations.StepRunsDecodedInstruction : Prop :=
  ∀ (s : State) (i : Instr),
    (∀ (w : Word) (rest : List Input), HostDoes s (regWriteAt s 0 w) rest → s.busy = false →
      decodeCommand w = .ok i → step s = exec i (afterInput s rest)) ∧
    (EngineMoves s → s.phase = .run → decodeCommand (latchedWord s) = .ok i → step s = exec i (popTurn s)) ∧
    (s.midstep ≠ none → s.phase = .run → fetchInstr s = some i → step s = exec i s)

/-- 46_frame_reader R267 and R268 (working names: log 7): what DECODE's token loop reads next while output is missing: a flag byte every 8
tokens, else the literal or the match record that the flag bit, MSB first, announces, all from the reversed
stream S. -/
def Obligations.DecodeFetchReadsStream : Prop :=
  ∀ s : State, s.stage = .decodeLoop → s.oc.toNat < s.want →
    let S := fun k => s.srcByte (s.decLen.toNat + s.streamLen.toNat - 1 - k)
    let ip := s.ip.toNat
    (s.dk = 8 → ip < s.streamLen.toNat → fetchInstr s = some (.flag (S ip))) ∧
    (s.dk ≠ 8 → s.fl.getLsbD (7 - s.dk.toNat) = false → ip < s.streamLen.toNat → fetchInstr s = some (.lit (S ip))) ∧
    (s.dk ≠ 8 → s.fl.getLsbD (7 - s.dk.toNat) = true → ip + 2 ≤ s.streamLen.toNat →
      fetchInstr s = some (.matchToken (((S ip).toNat >>> 4) + 3)
        ((((S ip).toNat &&& 0xF) <<< 8 ||| (S (ip + 1)).toNat) + 3)))

/-- The model's loading convention (log 15): a word of the opcode table placed by withFetchWord is what the very next
step runs. -/
def Obligations.PlacedWordIsRunNext : Prop :=
  ∀ (s : State) (nbits w : Nat) (i : Instr), decodeTableWord nbits w = some i →
    ∃ t, step (s.withFetchWord nbits w) = exec i t

/-- 10_state R20: the engine has no step when it is idle; a turn offered to it passes (log 12). -/
def Obligations.IdleEngineHasNoStep : Prop :=
  ∀ s : State, s.phase = .idle → EngineMoves s → step s = .next (popTurn s)

/-! ## START and the command words -/

/-- 45_commands R230 and R231 with the initial values of 10_state R44: what an idle engine does on each command
word, and what it leaves alone. -/
def Obligations.StartLatchesCommand : Prop :=
  ∀ (s : State) (op : BitVec 2) (m e : Bool), s.phase = .idle →
    ∃ t, exec (commandOf op m e) s = .next t ∧
      opField t.ctrl = op ∧ modeField t.ctrl = m ∧ expValidField t.ctrl = e ∧ t.status = 0x00000001 ∧
      t.dstLen = 0 ∧ t.cutPak = 0 ∧ t.cutRaw = 0 ∧ t.pakLen = 0 ∧
      t.lOp = op ∧ t.lMode = m ∧ t.lExpv = e ∧ t.lLen = s.srcLen ∧ t.lExp = s.expLen ∧ t.phase = .run ∧
      t.cur = 0 ∧ t.wp = 0 ∧ t.gk = 8 ∧ t.pakTmp = 0 ∧ t.rawTmp.toNat = s.srcLen.toNat % 2 ^ 24 ∧
      t.lb = 0 ∧ t.db = 0 ∧ t.ln = 0 ∧ t.lp = 0 ∧ t.ip = 0 ∧ t.oc = 0 ∧ t.dk = 8 ∧
      t.srcLen = s.srcLen ∧ t.expLen = s.expLen ∧ SameSrc s t ∧ t.inputs = s.inputs ∧ t.sched = s.sched ∧
      t.rdata = s.rdata ∧ t.params = s.params

/-- 10_state R21: a host write to CTRL while BUSY = 0 stores w[4:1], and with w[0] = 1 it then starts a command with
the newly stored fields. -/
def Obligations.CtrlWriteStoresAndStarts : Prop :=
  ∀ (s : State) (w : Word) (rest : List Input), HostDoes s (regWriteAt s 0 w) rest → s.busy = false → s.phase = .idle →
    ∃ t, step s = .next t ∧ opField t.ctrl = w.extractLsb' 1 2 ∧ modeField t.ctrl = w.getLsbD 3 ∧
      expValidField t.ctrl = w.getLsbD 4 ∧
      (w.getLsbD 0 = false → t = { afterInput s rest with ctrl := t.ctrl }) ∧
      (w.getLsbD 0 = true → t.busy = true ∧ t.phase = .run ∧
        t.lOp = opField t.ctrl ∧ t.lMode = modeField t.ctrl ∧ t.lExpv = expValidField t.ctrl ∧
        t = start (opField w) (modeField w) (expValidField w) (afterInput s rest))

/-- 10_state R22 and 70_reset_and_hazards R336: while BUSY, a host write to CTRL, SRC_LEN or EXP_LEN is ignored
entirely, and a write to SRC is refused. -/
def Obligations.WritesWhileBusyIgnored : Prop :=
  ∀ (s : State) (rest : List Input), s.busy = true →
    (∀ (o : Nat) (w : Word), o = 0x00 ∨ o = 0x08 ∨ o = 0x10 → HostDoes s (regWriteAt s o w) rest →
      step s = .next (afterInput s rest)) ∧
    (∀ (i size : Nat) (w : Word), i < 0x2000000 → BufferShaped i size →
      HostDoes s (srcAccessAt s i size (.write w)) rest → step s = .refused .srcWriteWhileBusy)

/-- 45_commands R239: OP 2 and 3 end at once with BAD_COMMAND; no SRC byte is read (other SRC contents give the
same result) and no DST byte is written. -/
def Obligations.ReservedOpsRaiseBadCommand : Prop :=
  ∀ (s : State) (m e : Bool) (i : Instr), JustStarted s → i = .reservedOp2 m e ∨ i = .reservedOp3 m e →
    ∃ t, exec i s = .next t ∧ RaisedAs 5 s t ∧ t.dst = [] ∧
      ∀ (other : Memory), exec i { s with src := other } = .next { t with src := other }

/-! ## Host registers and windows -/

/-- 10_state R23: a host read of CTRL returns (EXP_VALID << 4) | (MODE << 3) | (OP << 1), bit 0 and bits 31:5 read
0, and nothing else changes. In every legal state. -/
def Obligations.CtrlReadsItsFields : Prop :=
  ∀ (s : State) (rest : List Input), s.Inv → HostDoes s (regReadAt s 0) rest →
    ∃ t, step s = .next t ∧
      t.rdata.toNat = (expValidField s.ctrl).toNat <<< 4 ||| (modeField s.ctrl).toNat <<< 3 ||| (opField s.ctrl).toNat <<< 1 ∧
      t = { afterInput s rest with rdata := t.rdata }

/-- 10_state R38: offsets 0x20 to 0xFC read 0 and ignore writes, and so do writes to the RO registers. -/
def Obligations.ReservedAndReadOnlyRegisters : Prop :=
  ∀ (s : State) (o : Nat) (rest : List Input), o % 4 = 0 → o < 0x100 →
    (0x20 ≤ o → HostDoes s (regReadAt s o) rest → step s = .next { afterInput s rest with rdata := 0 }) ∧
    (∀ w : Word, 0x20 ≤ o ∨ o = 0x04 ∨ o = 0x0C ∨ o = 0x14 ∨ o = 0x18 ∨ o = 0x1C →
      HostDoes s (regWriteAt s o w) rest → step s = .next (afterInput s rest))

/-- 10_state R32 and R34: a host write to SRC_LEN or EXP_LEN while idle stores the word and changes nothing else. -/
def Obligations.LengthRegistersStore : Prop :=
  ∀ (s : State) (w : Word) (rest : List Input), s.busy = false →
    (HostDoes s (regWriteAt s 0x08 w) rest → step s = .next { afterInput s rest with srcLen := w }) ∧
    (HostDoes s (regWriteAt s 0x10 w) rest → step s = .next { afterInput s rest with expLen := w })

/-- 10_state section 2 with 20_memory R61: which register a 4-byte read of each offset returns, in every state, busy or
not; nothing else changes. -/
def Obligations.RegisterReadsReturnTheRegisters : Prop :=
  ∀ (s : State) (rest : List Input),
    (HostDoes s (regReadAt s 0x00) rest → step s = .next { afterInput s rest with rdata := s.ctrl }) ∧
    (HostDoes s (regReadAt s 0x04) rest → step s = .next { afterInput s rest with rdata := s.status }) ∧
    (HostDoes s (regReadAt s 0x08) rest → step s = .next { afterInput s rest with rdata := s.srcLen }) ∧
    (HostDoes s (regReadAt s 0x0C) rest → step s = .next { afterInput s rest with rdata := s.dstLen }) ∧
    (HostDoes s (regReadAt s 0x10) rest → step s = .next { afterInput s rest with rdata := s.expLen }) ∧
    (HostDoes s (regReadAt s 0x14) rest → step s = .next { afterInput s rest with rdata := s.cutPak }) ∧
    (HostDoes s (regReadAt s 0x18) rest → step s = .next { afterInput s rest with rdata := s.cutRaw }) ∧
    (HostDoes s (regReadAt s 0x1C) rest → step s = .next { afterInput s rest with rdata := s.pakLen })

/-- 20_memory R60, R62 and R66: a write to the SRC window while idle stores its bytes, lowest lane at the lowest index,
ignores those at or above SRC_CAP, and changes nothing else. A write to the DST window while idle changes nothing:
that clause is the model's reading of 10_state R40 (log 9). -/
def Obligations.SrcWindowWriteStoresLanes : Prop :=
  ∀ (s : State) (i size : Nat) (w : Word) (rest : List Input), i < 0x2000000 → BufferShaped i size → s.busy = false →
    (HostDoes s (srcAccessAt s i size (.write w)) rest → ∃ t, step s = .next t ∧
      (∀ j, t.srcByte j = if i ≤ j ∧ j < i + size ∧ j < s.params.srcCap then w.extractLsb' (8 * (j - i)) 8
        else s.srcByte j) ∧
      t = { afterInput s rest with src := t.src }) ∧
    (HostDoes s (dstAccessAt s i size (.write w)) rest → step s = .next (afterInput s rest))

/-- 20_memory R60, R62, R66 and R75: a read of the SRC window at any time, or of the DST window while idle, returns the
window's bytes in its lanes, 0 at or above the capacity, and changes nothing else. That the lanes a narrow
read does not name are 0 is the model's choice (log 20). -/
def Obligations.BufferReadsReturnLanes : Prop :=
  ∀ (s : State) (i size : Nat) (rest : List Input), i < 0x2000000 → BufferShaped i size →
    (HostDoes s (srcAccessAt s i size .read) rest →
      ∃ t, step s = .next t ∧ t = { afterInput s rest with rdata := t.rdata } ∧
      ∀ k < 4, t.rdata.extractLsb' (8 * k) 8 =
        if k < size ∧ i + k < s.params.srcCap then s.srcByte (i + k) else 0) ∧
    (HostDoes s (dstAccessAt s i size .read) rest → s.busy = false →
      ∃ t, step s = .next t ∧ t = { afterInput s rest with rdata := t.rdata } ∧
      ∀ k < 4, t.rdata.extractLsb' (8 * k) 8 =
        if k < size ∧ i + k < s.params.dstCap then s.dstByte (i + k) else 0)

/-- 60_exceptions R314 over the address map of 20_memory R60: the four kinds of host access fault are refused, and no
other access inside a window is; an access outside the three windows is refused. The name of the refusal is the
model's, the shape's before the time's, and outside the windows the platform decides (log 16). -/
def Obligations.HostAccessFaultsRefused : Prop :=
  ∀ (s : State) (size : Nat) (op : BusOp) (rest : List Input),
    (∀ o < 0x100, HostDoes s { addr := s.params.regBase + o, size := size, op := op } rest →
      (¬(size = 4 ∧ o % 4 = 0) → step s = .refused .regAccessShape) ∧
      (size = 4 ∧ o % 4 = 0 → ∀ r, step s ≠ .refused r)) ∧
    (∀ i < 0x2000000, HostDoes s (srcAccessAt s i size op) rest →
      (¬BufferShaped i size → step s = .refused .bufferAccessShape) ∧
      (BufferShaped i size → s.busy = true → op ≠ .read → step s = .refused .srcWriteWhileBusy) ∧
      (BufferShaped i size → s.busy = false ∨ op = .read → ∀ r, step s ≠ .refused r)) ∧
    (∀ i < 0x2000000, HostDoes s (dstAccessAt s i size op) rest →
      (¬BufferShaped i size → step s = .refused .bufferAccessShape) ∧
      (BufferShaped i size → s.busy = true → step s = .refused .dstAccessWhileBusy) ∧
      (BufferShaped i size → s.busy = false → ∀ r, step s ≠ .refused r)) ∧
    (∀ addr, HostDoes s { addr := addr, size := size, op := op } rest →
      addr < s.params.regBase ∨
        (s.params.regBase + 0x100 ≤ addr ∧ addr < s.params.regBase + 0x2000000) ∨
        s.params.regBase + 0x6000000 ≤ addr →
      step s = .refused .undecodedAddress)

/-- 20_memory R69 and R70: a host read of any window changes nothing but the data it returns. -/
def Obligations.HostReadsHaveNoSideEffect : Prop :=
  ∀ (s t : State) (a : Access) (rest : List Input), HostDoes s a rest → a.op = .read → step s = .next t →
    t = { afterInput s rest with rdata := t.rdata }

/-- 30_encoding R121: WAIT_DONE reads STATUS, is over when bit 1 (DONE) is 1 and else is the host's next input
again. -/
def Obligations.WaitDonePollsStatus : Prop :=
  ∀ (s : State) (rest : List Input), HostMoves s → s.inputs = .waitDone :: rest →
    (s.status.getLsbD 1 = true → step s = .next { afterInput s rest with rdata := s.status }) ∧
    (s.status.getLsbD 1 = false → step s = .next { afterInput s (.waitDone :: rest) with rdata := s.status })

/-! ## Reset -/

/-- 70_reset_and_hazards R331 and the register rows of R332: a reset at any time, a running command or not, leaves
every host-visible register 0 (so DONE stays 0 and no result is written) and the engine idle, with no step of
its own left. That the inputs still to come stay is the model's choice (log 17). -/
def Obligations.ResetAbortsAndClears : Prop :=
  ∀ (s : State) (rest : List Input), HostMoves s → s.inputs = .reset :: rest →
    ∃ t, step s = .next t ∧ t.ctrl = 0 ∧ t.status = 0 ∧ t.srcLen = 0 ∧ t.dstLen = 0 ∧ t.expLen = 0 ∧
      t.cutPak = 0 ∧ t.cutRaw = 0 ∧ t.pakLen = 0 ∧ t.phase = .idle ∧ t.params = s.params ∧ t.inputs = rest ∧
      (nextTurn t = .engine → step t = .next (popTurn t))

/-- 70_reset_and_hazards R332: a START of ENCODE straight after a reset encodes the empty buffer and gives
`00 00 00 00`, whatever the RAMs hold. -/
def Obligations.EmptyEncodeAfterReset : Prop :=
  ∀ (s : State) (rest : List Input) (i : Instr) (m e : Bool), HostMoves s → s.inputs = .reset :: rest →
    i = commandOf 0 m e →
    ∃ t u v, step s = .next t ∧ exec i t = .next u ∧ exec i u = .next v ∧
      v.status = 0x02 ∧ v.dstLen = 4 ∧ v.cutPak = 0 ∧ v.cutRaw = 0 ∧ v.pakLen = 0 ∧ ∀ a < 4, v.dstByte a = 0

/-! ## FIND and LOOKAHEAD -/

/-- 41_match_finder R157: the result of FIND is a legal match inside the data, and FIND reads R only inside
[0, n). -/
def Obligations.FindResultIsLegal : Prop :=
  ∀ (overlap : Bool) (R : Nat → Byte) (n c : Nat), c ≤ n →
    (0 < (find overlap R n c).1 →
      3 ≤ (find overlap R n c).1 ∧ (find overlap R n c).1 ≤ 18 ∧ 3 ≤ (find overlap R n c).2 ∧
      (find overlap R n c).2 ≤ 4098 ∧ (find overlap R n c).2 ≤ c ∧ c + (find overlap R n c).1 ≤ n) ∧
    (∀ R' : Nat → Byte, (∀ k < n, R' k = R k) → find overlap R' n c = find overlap R n c)

/-- 41_match_finder R152 and R153: the count for a distance is the number of equal bytes before the first stop, and
FIND returns the greatest count above 2 over all distances from 3 to min(c, 4098), with the smallest distance
that reaches it. -/
def Obligations.FindIsLongestAndNearest : Prop :=
  ∀ (overlap : Bool) (R : Nat → Byte) (n c : Nat), c ≤ n →
    (∀ d, 3 ≤ d → d ≤ c →
      matchLen overlap R n c d ≤ 18 ∧ c + matchLen overlap R n c d ≤ n ∧
      (overlap = false → matchLen overlap R n c d ≤ d) ∧
      (∀ k < matchLen overlap R n c d, R (c + k) = R (c + k - d)) ∧
      (matchLen overlap R n c d = 18 ∨ c + matchLen overlap R n c d = n ∨
        (overlap = false ∧ matchLen overlap R n c d = d) ∨
        R (c + matchLen overlap R n c d) ≠ R (c + matchLen overlap R n c d - d))) ∧
    (∀ d, 3 ≤ d → d ≤ min c 4098 → matchLen overlap R n c d ≤ max 2 (find overlap R n c).1) ∧
    (0 < (find overlap R n c).1 →
      matchLen overlap R n c (find overlap R n c).2 = (find overlap R n c).1 ∧
      ∀ d, 3 ≤ d → d < (find overlap R n c).2 → matchLen overlap R n c d < (find overlap R n c).1)

/-- 42_lookahead R175: the room condition changes no output: LOOKAHEAD with and without the room test agree for
every match that FIND returned. -/
def Obligations.LookaheadRoomTestIrrelevant : Prop :=
  ∀ (overlap : Bool) (R : Nat → Byte) (n c : Nat), c < n → 3 ≤ (find overlap R n c).1 →
    lookahead overlap R n c (find overlap R n c).1 =
      lookDrops (find overlap R n c).1 (some (lookLengthsAt overlap R n c (find overlap R n c).1))

/-! ## ENCODE: the packer -/

/-- 43_flag_packer R182 with R181: LIT in a running ENCODE folds flag 0 into the open flag byte, writes the byte at
the write index and advances the cursor by 1. Nothing else changes. -/
def Obligations.EncodeEmitsLiteral : Prop :=
  ∀ (s : State) (b : Byte), s.lOp = 0 → ∃ t, exec (.lit b) s = .next t ∧
    (∀ a, t.workByte a = if a = s.wp.toNat then b
      else if a = s.fp.toNat then s.workByte s.fp.toNat <<< (1 : Nat) else s.workByte a) ∧
    t.wp = s.wp + 1 ∧ t.cur = s.cur + 1 ∧ t.gk = s.gk + 1 ∧
    t.fp = s.fp ∧ t.pakTmp = s.pakTmp ∧ t.rawTmp = s.rawTmp ∧ t.lb = s.lb ∧ t.db = s.db ∧ t.ln = s.ln ∧ t.lp = s.lp ∧
    SameHostRegs s t ∧ SameSrc s t ∧ SameDst s t ∧ SameLatches s t ∧ SameDecoder s t ∧ SamePlace s t ∧ SameOutside s t

/-- 43_flag_packer R183 with R181: MATCH in a running ENCODE folds flag 1 into the open flag byte, writes the two
bytes of the record at the write index and advances the cursor by the length. Nothing else changes. -/
def Obligations.EncodeEmitsMatch : Prop :=
  ∀ (s : State) (len dist : Nat), s.lOp = 0 → (Instr.matchToken len dist).wf = true →
    ∃ t, exec (.matchToken len dist) s = .next t ∧
    (∀ a, t.workByte a = if a = s.wp.toNat + 1 then BitVec.ofNat 8 ((dist - 3) &&& 0xFF)
      else if a = s.wp.toNat then BitVec.ofNat 8 ((len - 3) <<< 4 ||| (dist - 3) >>> 8)
      else if a = s.fp.toNat then s.workByte s.fp.toNat <<< (1 : Nat) ||| 1 else s.workByte a) ∧
    t.wp = s.wp + 2 ∧ t.cur.toNat = (s.cur.toNat + len) % 2 ^ 24 ∧ t.gk = s.gk + 1 ∧
    t.fp = s.fp ∧ t.pakTmp = s.pakTmp ∧ t.rawTmp = s.rawTmp ∧ t.lb = s.lb ∧ t.db = s.db ∧ t.ln = s.ln ∧ t.lp = s.lp ∧
    SameHostRegs s t ∧ SameSrc s t ∧ SameDst s t ∧ SameLatches s t ∧ SameDecoder s t ∧ SamePlace s t ∧ SameOutside s t

/-- 43_flag_packer R180: FLAG in a running ENCODE opens a group: the flag byte stands at the old write index, which
advances by 1, and no token is folded yet. Nothing else changes. -/
def Obligations.EncodeOpensGroup : Prop :=
  ∀ (s : State) (f : Byte), s.lOp = 0 → ∃ t, exec (.flag f) s = .next t ∧
    (∀ a, t.workByte a = if a = s.wp.toNat then f else s.workByte a) ∧
    t.fp = s.wp ∧ t.wp = s.wp + 1 ∧ t.gk = 0 ∧
    t.cur = s.cur ∧ t.pakTmp = s.pakTmp ∧ t.rawTmp = s.rawTmp ∧ t.lb = s.lb ∧ t.db = s.db ∧ t.ln = s.ln ∧ t.lp = s.lp ∧
    SameHostRegs s t ∧ SameSrc s t ∧ SameDst s t ∧ SameLatches s t ∧ SameDecoder s t ∧ SamePlace s t ∧ SameOutside s t

/-- 43_flag_packer R181 and R185, 30_encoding R104: the flags of k ≤ 8 tokens folded from 0 and padded stand MSB
first in the flag byte, and every unused bit is 0. -/
def Obligations.FlagByteIsMsbFirst : Prop :=
  ∀ flags : List Bool, flags.length ≤ 8 → ∀ j < 8,
    tokenBit (padFlag (flags.foldl foldFlag 0) flags.length) j = flags.getD j false

/-! ## ENCODE: the frame -/

/-- 44_frame_builder R203, 45_commands R237: TRAILER_STORED in a running ENCODE ends the command with the stored
frame: the input verbatim, zero pad to 4, a 4-byte zero trailer. -/
def Obligations.EncodeWritesStoredFrame : Prop :=
  ∀ s : State, s.lOp = 0 → s.lLen.toNat ≤ Config.rawMax → ∃ t, exec .trailerStored s = .next t ∧
    t.dstLen.toNat = align4 s.lLen.toNat + 4 ∧
    (∀ a < s.lLen.toNat, t.dstByte a = s.srcByte a) ∧
    (∀ a, s.lLen.toNat ≤ a → a < align4 s.lLen.toNat + 4 → t.dstByte a = 0) ∧
    t.cutPak.toNat = s.pakTmp.toNat ∧ t.cutRaw.toNat = s.rawTmp.toNat ∧ t.pakLen.toNat = s.wp.toNat ∧
    t.status = 0x02 ∧ t.phase = .idle ∧ t.ctrl = s.ctrl ∧ t.srcLen = s.srcLen ∧ t.expLen = s.expLen ∧
    SameSrc s t ∧ SameWork s t ∧ SameLatches s t ∧ SameEncoder s t ∧ SameDecoder s t ∧ SameOutside s t

/-- 44_frame_builder R204 to R208, 45_commands R237: TRAILER_COMPRESSED in a running ENCODE ends the command with the
compressed frame: the verbatim part, the kept stream reversed, 0xFF pad, encoded_len, header_len and
increase_len, little-endian. -/
def Obligations.EncodeWritesCompressedFrame : Prop :=
  ∀ (s : State) (enc : BitVec 24) (hdr : Byte) (inc : Word), s.lOp = 0 → 8 ≤ hdr.toNat → hdr.toNat ≤ 11 →
    ∃ t, exec (.trailerCompressed enc hdr inc) s = .next t ∧
    (let raw := s.rawTmp.toNat
     let pak := s.pakTmp.toNat
     let z := raw + pak + (hdr.toNat - 8)
     t.dstLen.toNat = raw + pak + hdr.toNat ∧
     (∀ a < raw, t.dstByte a = s.srcByte a) ∧
     (∀ a < pak, t.dstByte (raw + a) = s.workByte (pak - 1 - a)) ∧
     (∀ a < hdr.toNat - 8, t.dstByte (raw + pak + a) = 0xFF) ∧
     (∀ a < 3, t.dstByte (z + a) = enc.extractLsb' (8 * a) 8) ∧ t.dstByte (z + 3) = hdr ∧
     (∀ a < 4, t.dstByte (z + 4 + a) = inc.extractLsb' (8 * a) 8)) ∧
    t.cutPak.toNat = s.pakTmp.toNat ∧ t.cutRaw.toNat = s.rawTmp.toNat ∧ t.pakLen.toNat = s.wp.toNat ∧
    t.status = 0x22 ∧ t.phase = .idle ∧ t.ctrl = s.ctrl ∧ t.srcLen = s.srcLen ∧ t.expLen = s.expLen ∧
    SameSrc s t ∧ SameWork s t ∧ SameLatches s t ∧ SameEncoder s t ∧ SameDecoder s t ∧ SameOutside s t

/-- 44_frame_builder R206 to R208 and R213: the trailer fields SELECT closes a compressed frame with. header_len is 8
plus the pad, encoded_len is pak_tmp + header_len in 24 bits, increase_len is the exact difference, from -4 to
n - 12, and the three lengths add up to n. -/
def Obligations.SelectedTrailerFields : Prop :=
  ∀ (s : State) (enc : BitVec 24) (hdr : Byte) (inc : Word), s.lLen.toNat ≤ Config.rawMax →
    selectTrailer s = .trailerCompressed enc hdr inc →
    let n := s.lLen.toNat
    let pak := s.pakTmp.toNat
    let raw := s.rawTmp.toNat
    hdr.toNat = 8 + (align4 (raw + pak) - (raw + pak)) ∧ 8 ≤ hdr.toNat ∧ hdr.toNat ≤ 11 ∧
    (raw + pak + hdr.toNat) % 4 = 0 ∧
    enc.toNat = (pak + hdr.toNat) % 2 ^ 24 ∧
    inc.toInt = (n : Int) - pak - raw - hdr.toNat ∧ -4 ≤ inc.toInt ∧ inc.toInt ≤ (n : Int) - 12 ∧
    (pak + hdr.toNat < 2 ^ 24 → hdr.toNat < enc.toNat ∧ (raw + enc.toNat + inc.toNat) % 2 ^ 32 = n)

/-- 44_frame_builder R202, R209 and R210: when SELECT closes the frame as stored, for every state and both values of
the guard; and with pak_tmp > 0 and the guard off that is the shorter frame: on a tie it is stored if
n mod 4 ≠ 0 and compressed if n mod 4 = 0. Ts and Tc are the lengths of the two frames. -/
def Obligations.SelectorEmitsShorterFrame : Prop :=
  (∀ s : State,
    let n := s.lLen.toNat
    let pak := s.pakTmp.toNat
    let q := pak + s.rawTmp.toNat
    let hdr := 8 + (align4 q - q)
    (pak = 0 → selectTrailer s = .trailerStored) ∧
    (0 < pak → s.params.roundtripGuard = false →
      (selectTrailer s = .trailerStored ↔ n + 4 < align4 q + 8) ∧
      (align4 n + 4 < align4 q + 8 → selectTrailer s = .trailerStored) ∧
      (align4 q + 8 < align4 n + 4 → selectTrailer s ≠ .trailerStored) ∧
      (align4 n + 4 = align4 q + 8 → (selectTrailer s = .trailerStored ↔ n % 4 ≠ 0))) ∧
    (0 < pak → s.params.roundtripGuard = true →
      (selectTrailer s = .trailerStored ↔
        n + 4 < align4 q + 8 ∨ ((n : Int) - q - hdr) % (2 ^ 32 : Int) = 0 ∨ 2 ^ 24 ≤ pak + hdr))) ∧
  ∀ (raw kept verbatim : List Byte) (enc : BitVec 24) (hdr : Byte) (inc : Word),
    0 < kept.length → hdr.toNat = headerLenOf (kept.length + verbatim.length) →
    let n := raw.length
    let Ts := (storedFrame raw).length
    let Tc := (compressedFrame verbatim kept enc hdr inc).length
    let stored := selectsStored false n kept.length (kept.length + verbatim.length)
    Ts = align4 n + 4 ∧ Tc = align4 (kept.length + verbatim.length) + 8 ∧
    (if stored then Ts else Tc) = min Ts Tc ∧
    (Ts = Tc → (stored = true ↔ n % 4 ≠ 0))

/-- 45_commands R235 with R243 and R244, 43_flag_packer R180, 44_frame_builder R201: TOKEN_STEP, which tokens ENCODE
emits. A group is opened exactly when gk = 8. The token is the match FIND gives at the cursor; it is the literal
R[cur] when FIND gives none or when, in best mode, LOOKAHEAD drops it. exec of that token does the rest, and
the cut moves exactly when R201's quantity falls. The step is a part of the completion step, cut open (log 6). -/
def Obligations.EncodeStepEmitsToken : Prop :=
  ∀ s : State, s.Inv → s.phase = .run → s.stage = .encodeLoop → s.cur.toNat < s.lLen.toNat →
    let n := s.lLen.toNat
    let c := s.cur.toNat
    let R := fun i => s.srcByte (n - 1 - i)
    let found := find s.params.matchOverlap R n c
    let drops := s.lMode && lookahead s.params.matchOverlap R n c found.1
    let isMatch := decide (3 ≤ found.1) && !drops
    ∃ g u t, (s.gk = 8 → exec (.flag 0) s = .next g) ∧ (s.gk ≠ 8 → g = s) ∧
      exec (if isMatch then .matchToken found.1 found.2 else .lit (R c)) g = .next u ∧
      step s = .next t ∧
      t = { u with lb := t.lb, db := t.db, ln := t.ln, lp := t.lp, pakTmp := t.pakTmp, rawTmp := t.rawTmp } ∧
      t.lb.toNat = (if isMatch then found.1 else 0) ∧ t.db.toNat = found.2 ∧
      (if u.wp.toNat + (n - u.cur.toNat) < s.pakTmp.toNat + s.rawTmp.toNat
        then t.pakTmp.toNat = u.wp.toNat ∧ t.rawTmp.toNat = n - u.cur.toNat
        else t.pakTmp = s.pakTmp ∧ t.rawTmp = s.rawTmp) ∧
      c < t.cur.toNat ∧ t.cur.toNat ≤ n

/-- 45_commands R233, R234, 44_frame_builder R200, 43_flag_packer R185: how ENCODE enters and leaves its token loop.
After its checks the loop starts at cur = 0 with no group, no stream and the cut at the whole input. At cur = n the
last flag byte is padded and exec of the trailer that SELECT picks ends the command. -/
def Obligations.EncodeStartsAndEndsLoop : Prop :=
  ∀ s : State,
    (JustStarted s → s.lOp = 0 → s.lLen.toNat ≤ Config.rawMax →
      engineOp s = { s with
        cur := 0
        wp := 0
        gk := 8
        pakTmp := 0
        rawTmp := BitVec.ofNat 24 s.lLen.toNat
        midstep := some { Progress.fresh with stage := .encodeLoop } }) ∧
    (s.phase = .run → s.stage = .encodeLoop → s.cur.toNat = s.lLen.toNat →
      ∃ p : State, p = { s with work := p.work } ∧
        (∀ a, p.workByte a = if 1 ≤ s.gk.toNat ∧ s.gk.toNat ≤ 7 ∧ a = s.fp.toNat
          then s.workByte a <<< (8 - s.gk.toNat) else s.workByte a) ∧
        step s = exec (selectTrailer s) p)

/-- 45_commands R233: ENCODE of more than 0x00FFFFFF bytes ends with INPUT_TOO_LARGE, in both modes. -/
def Obligations.EncodeRejectsOversizedInput : Prop :=
  ∀ (s : State) (m e : Bool), JustStarted s → Config.rawMax < s.lLen.toNat →
    ∃ t, exec (commandOf 0 m e) s = .next t ∧ RaisedAs 6 s t

/-- 60_exceptions R302, 44_frame_builder R211, 43_flag_packer R186, 45_commands R237: ENCODE of any input within the
size bound never fails, in both modes. It delivers a frame of at most align4(n) + 4 bytes, a multiple of 4;
a stored frame is the input with its pad and trailer; the reported cut and stream length are bounded; and
nothing outside changes. -/
def Obligations.EncodeAlwaysDelivers : Prop :=
  ∀ (s : State) (m e : Bool), JustStarted s → s.lLen.toNat ≤ Config.rawMax →
    ∃ t, exec (commandOf 0 m e) s = .next t ∧
      (let n := s.lLen.toNat
       t.phase = .idle ∧ (t.status = 0x02 ∨ t.status = 0x22) ∧
       4 ≤ t.dstLen.toNat ∧ t.dstLen.toNat ≤ align4 n + 4 ∧ align4 n + 4 ≤ n + 7 ∧ t.dstLen.toNat % 4 = 0 ∧
       t.pakLen.toNat ≤ n + ceilDiv8 n ∧ (t.pakLen = 0 ↔ n = 0) ∧
       t.cutPak.toNat + t.cutRaw.toNat ≤ n ∧ (t.cutPak ≠ 0 → t.cutPak.toNat + t.cutRaw.toNat < n) ∧
       (t.cutPak = 0 → t.status = 0x02) ∧
       (t.status = 0x02 → t.dstLen.toNat = align4 n + 4 ∧ (∀ a < n, t.dstByte a = s.srcByte a) ∧
         ∀ a, n ≤ a → a < align4 n + 4 → t.dstByte a = 0) ∧
       (t.status = 0x22 → t.dstLen.toNat = align4 (t.cutPak.toNat + t.cutRaw.toNat) + 8 ∧
         ∀ a < t.cutRaw.toNat, t.dstByte a = s.srcByte a)) ∧
      t.ctrl = s.ctrl ∧ t.srcLen = s.srcLen ∧ t.expLen = s.expLen ∧ SameSrc s t ∧ SameOutside s t

/-! ## DECODE -/

/-- 46_frame_reader R263: STORED_READ, with and without the caller's expectation. The result is the raw bytes, or
CORRUPT_HEADER. -/
def Obligations.DecodeReadsStoredFrame : Prop :=
  ∀ s : State, s.lOp = 1 → 4 ≤ s.lLen.toNat → s.lLen.toNat ≤ s.params.srcCap →
    let T := s.lLen.toNat
    let m := if s.lExpv then s.lExp.toNat else T - 4
    let bad := if s.lExpv then Config.rawMax < s.lExp.toNat ∨ align4 s.lExp.toNat ≠ T - 4
      else (T - 4) % 4 ≠ 0 ∨ align4 Config.rawMax < T - 4
    ∃ t, exec .trailerStored s = .next t ∧ (bad → RaisedAs 1 s t) ∧
      (¬bad → t.status = 0x02 ∧ t.dstLen.toNat = m ∧ t.cutPak = 0 ∧ t.cutRaw = 0 ∧ t.pakLen = 0 ∧
        (∀ a < m, t.dstByte a = s.srcByte a) ∧ m ≤ s.params.dstCap ∧ t.phase = .idle ∧
        t.ctrl = s.ctrl ∧ t.srcLen = s.srcLen ∧ t.expLen = s.expLen ∧ SameSrc s t ∧ SameWork s t ∧
        SameLatches s t ∧ SameEncoder s t ∧ SameDecoder s t ∧ SameOutside s t)

/-- 46_frame_reader R264 and R265: TRAILER_COMPRESSED in DECODE, for a frame of T ≥ 8 bytes: the header checks in
their order, and, when they pass, the lengths and the start of the token loop. Nothing else changes. -/
def Obligations.DecodeReadsCompressedHeader : Prop :=
  ∀ (s : State) (enc : BitVec 24) (hdr : Byte) (inc : Word), s.lOp = 1 → 8 ≤ s.lLen.toNat →
    s.lLen.toNat ≤ s.params.srcCap →
    let T := s.lLen.toNat
    let dec := T - enc.toNat
    let raw := (dec + enc.toNat + inc.toNat) % 2 ^ 32
    ∃ t, exec (.trailerCompressed enc hdr inc) s = .next t ∧
      (hdr.toNat < 8 ∨ 11 < hdr.toNat → RaisedAs 1 s t) ∧
      (8 ≤ hdr.toNat → hdr.toNat ≤ 11 →
        (enc.toNat ≤ hdr.toNat ∨ T < hdr.toNat ∨ T < enc.toNat → RaisedAs 2 s t) ∧
        (hdr.toNat < enc.toNat → hdr.toNat ≤ T → enc.toNat ≤ T →
          (0x00FFFFFF < raw → RaisedAs 3 s t) ∧
          (raw ≤ 0x00FFFFFF → raw < dec → RaisedAs 2 s t) ∧
          (raw ≤ 0x00FFFFFF → dec ≤ raw →
            t.decLen.toNat = dec ∧ t.streamLen.toNat = enc.toNat - hdr.toNat ∧ t.rawLen.toNat = raw ∧
            t.oc = 0 ∧ t.ip = 0 ∧ t.dk = 8 ∧ t.warnTrunc = false ∧ t.warnClamp = false ∧ t.fl = s.fl ∧
            t.stage = .decodeLoop ∧ t.phase = s.phase ∧ raw ≤ s.params.dstCap ∧
            dec + (enc.toNat - hdr.toNat) + 8 ≤ T ∧
            SameHostRegs s t ∧ SameSrc s t ∧ SameDst s t ∧ SameWork s t ∧ SameLatches s t ∧ SameEncoder s t ∧
            SameOutside s t)))

/-- 60_exceptions R305 with the causes of R302: DECODE raises the first check that fails, in R305's order, before it
reads a token; when none fails it ends with success or, in the token loop, with BAD_DISTANCE. -/
def Obligations.DecodeErrorPriority : Prop :=
  ∀ (s : State) (m e : Bool), JustStarted s → ∃ t, exec (.decode m e) s = .next t ∧
    (∀ c, decodeCheck s e = some c → RaisedAs c s t) ∧
    (decodeCheck s e = none →
      t.status = 0x02 ∨ t.status = 0x22 ∨ t.status = 0x2A ∨ t.status = 0x32 ∨ RaisedAs 7 s t)

/-- 46_frame_reader R269: LIT in DECODE writes its byte at the output index; one flag bit and one stream byte are
used up. Nothing else changes. -/
def Obligations.DecodeReadsLiteral : Prop :=
  ∀ (s : State) (b : Byte), s.lOp = 1 → ∃ t, exec (.lit b) s = .next t ∧
    (∀ a, t.workByte a = if a = s.oc.toNat then b else s.workByte a) ∧
    t.ip = s.ip + 1 ∧ t.oc = s.oc + 1 ∧ t.dk = s.dk + 1 ∧
    t.fl = s.fl ∧ SameHostRegs s t ∧ SameSrc s t ∧ SameDst s t ∧ SameLatches s t ∧ SameEncoder s t ∧ SamePlace s t ∧ SameOutside s t

/-- 46_frame_reader R268: FLAG in DECODE becomes the current flag byte, none of its tokens used yet. Nothing else
changes. -/
def Obligations.DecodeReadsFlagByte : Prop :=
  ∀ (s : State) (f : Byte), s.lOp = 1 → ∃ t, exec (.flag f) s = .next t ∧
    t.fl = f ∧ t.ip = s.ip + 1 ∧ t.dk = 0 ∧
    t.oc = s.oc ∧ SameWork s t ∧
    SameHostRegs s t ∧ SameSrc s t ∧ SameDst s t ∧ SameLatches s t ∧ SameEncoder s t ∧ SamePlace s t ∧ SameOutside s t

/-- 46_frame_reader R270: MATCH in DECODE. A distance beyond the output raises BAD_DISTANCE. Else the length, clamped
with a warning to what is missing, is copied byte by byte from `dist` bytes behind, so that a copy that
overlaps its source repeats it. Nothing else changes. -/
def Obligations.DecodeCopiesMatch : Prop :=
  ∀ (s : State) (len dist : Nat), s.lOp = 1 → (Instr.matchToken len dist).wf = true → s.oc.toNat ≤ s.want →
    let k := min len (s.want - s.oc.toNat)
    ∃ t, exec (.matchToken len dist) s = .next t ∧
      (s.oc.toNat < dist → RaisedAs 7 s t) ∧
      (dist ≤ s.oc.toNat →
        t.oc.toNat = s.oc.toNat + k ∧
        (∀ j < k, t.workByte (s.oc.toNat + j) = t.workByte (s.oc.toNat + j - dist)) ∧
        (∀ a, a < s.oc.toNat ∨ s.oc.toNat + k ≤ a → t.workByte a = s.workByte a) ∧
        t.warnClamp = (s.warnClamp || decide (s.want - s.oc.toNat < len)) ∧ t.warnTrunc = s.warnTrunc ∧
        t.ip = s.ip + 2 ∧ t.dk = s.dk + 1 ∧ t.fl = s.fl ∧ t.decLen = s.decLen ∧ t.streamLen = s.streamLen ∧
        t.rawLen = s.rawLen ∧ SameHostRegs s t ∧ SameSrc s t ∧ SameDst s t ∧ SameLatches s t ∧ SameEncoder s t ∧
        t.phase = s.phase ∧ t.stage = s.stage ∧ SameOutside s t)

/-- 46_frame_reader R271: when the token loop needs a flag byte, a literal byte or either byte of a match record and
the stream has no more, DECODE stops without failing: it completes with WARN_TRUNC, the count of bytes
produced as it was, and those bytes at the top of the output. A token whose payload is missing has used up its
flag bit (R268); a missing flag byte has not. -/
def Obligations.DecodeStopsAtTruncation : Prop :=
  ∀ (s : State) (m e : Bool), s.phase = .run → s.stage = .decodeLoop → s.warnClamp = false → s.oc.toNat < s.want →
    (s.dk = 8 ∧ s.streamLen.toNat ≤ s.ip.toNat) ∨
    (s.dk ≠ 8 ∧ s.fl.getLsbD (7 - s.dk.toNat) = false ∧ s.streamLen.toNat ≤ s.ip.toNat) ∨
    (s.dk ≠ 8 ∧ s.fl.getLsbD (7 - s.dk.toNat) = true ∧ s.streamLen.toNat < s.ip.toNat + 2) →
    ∃ t, exec (.decode m e) s = .next t ∧ t.status = 0x2A ∧ t.oc = s.oc ∧ t.ip = s.ip ∧ t.fl = s.fl ∧
      t.dk = (if s.dk = 8 then s.dk else s.dk + 1) ∧ t.dstLen.toNat = s.rawLen.toNat ∧
      ∀ j < s.oc.toNat, t.dstByte (s.rawLen.toNat - 1 - j) = s.workByte j

/-- 46_frame_reader R272 and R273: the output and the registers of a DECODE whose token loop is over, by a full
output or by a truncated stream: the verbatim part, zeros in the gap a truncated stream leaves, and the bytes
produced in forward order at the top. -/
def Obligations.DecodeCompletionLayout : Prop :=
  ∀ (s : State) (m e : Bool), s.phase = .run → s.decLen.toNat ≤ s.rawLen.toNat → s.oc.toNat ≤ s.want →
    (s.stage = .decodeEnd ∨ (s.stage = .decodeLoop ∧ s.oc.toNat = s.want)) →
    ∃ t, exec (.decode m e) s = .next t ∧
      (let raw := s.rawLen.toNat
       t.dstLen.toNat = raw ∧ t.cutPak.toNat = s.streamLen.toNat ∧ t.cutRaw.toNat = s.decLen.toNat ∧ t.pakLen = 0 ∧
       t.status.toNat = 0x22 + 8 * s.warnTrunc.toNat + 16 * s.warnClamp.toNat ∧ t.phase = .idle ∧
       (∀ a < s.decLen.toNat, t.dstByte a = s.srcByte a) ∧
       (∀ a, s.decLen.toNat ≤ a → a < raw - s.oc.toNat → t.dstByte a = 0) ∧
       (∀ j < s.oc.toNat, t.dstByte (raw - 1 - j) = s.workByte j)) ∧
      t.ctrl = s.ctrl ∧ t.srcLen = s.srcLen ∧ t.expLen = s.expLen ∧ SameSrc s t ∧ SameWork s t ∧ SameEncoder s t ∧
      SameDecoder s t ∧ SameOutside s t

/-- 70_reset_and_hazards R340 for DECODE, with 46_frame_reader R273 and 10_state R28, R29: every DECODE ends, from any
legal state of its run, idle and DONE, with at most one warning, an output within DST, and nothing outside
changed. -/
def Obligations.DecodeAlwaysEnds : Prop :=
  ∀ (s : State) (m e : Bool), s.Inv → s.phase = .run → s.lOp = 1 → ∃ t, exec (.decode m e) s = .next t ∧
    t.phase = .idle ∧ t.done = true ∧ t.busy = false ∧ (t.statusTrunc && t.statusClamp) = false ∧
    (t.error = true → t.dstLen = 0 ∧ t.cutPak = 0 ∧ t.cutRaw = 0) ∧ t.dstLen.toNat ≤ s.params.dstCap ∧ t.pakLen = 0 ∧
    t.ctrl = s.ctrl ∧ t.srcLen = s.srcLen ∧ t.expLen = s.expLen ∧ SameSrc s t ∧ SameOutside s t

/-- 44_frame_builder R212 and 46_frame_reader R274, the losslessness of the codec: a frame that ENCODE made of n bytes,
in either mode, decodes with the caller's expectation n to the same n bytes, with no warning, except in R212's
two cases: a compressed frame whose increase_len is 0 mod 2^32, or whose encoded_len does not fit 24 bits. -/
def Obligations.DecodeInvertsEncode : Prop :=
  ∀ (s t d : State) (m e m' : Bool), JustStarted s → s.lLen.toNat ≤ Config.rawMax →
    exec (commandOf 0 m e) s = .next t →
    (t.status = 0x22 → increaseLenOf s.lLen.toNat (t.cutPak.toNat + t.cutRaw.toNat) % (2 ^ 32 : Int) ≠ 0 ∧
      t.cutPak.toNat + headerLenOf (t.cutPak.toNat + t.cutRaw.toNat) < 2 ^ 24) →
    JustStarted d → d.lLen = t.dstLen → d.lExp = s.lLen → (∀ a < t.dstLen.toNat, d.srcByte a = t.dstByte a) →
    ∃ u, exec (.decode m' true) d = .next u ∧ u.status = t.status ∧ u.dstLen = s.lLen ∧
      ∀ a < s.lLen.toNat, u.dstByte a = s.srcByte a

/-! ## The whole machine -/

/-- The state after reset is a legal state (10_state R52). -/
def Obligations.ResetStateIsLegal : Prop := State.reset.Inv

/-- Every step from a legal state answers a legal state: the RAMs stay canonical and inside their capacities (20_memory
R83), DST's defined bytes stay DST[0..DST_LEN) (R82), reserved CTRL bits stay 0 (10_state R23), STATUS stays one
of its legal values (R27 to R30), and the running command's registers stay in range (R44, R51). -/
def Obligations.StepKeepsLegal : Prop := ∀ s t : State, s.Inv → step s = .next t → t.Inv

/-- 70_reset_and_hazards R340: every command terminates: no step from a legal state runs out of its bound. -/
def Obligations.NoStepFaults : Prop := ∀ (s : State) (f : Fault), s.Inv → step s ≠ .fault f

/-- 20_memory R81: no command changes any byte of SRC; and no instruction changes the host's registers SRC_LEN and
EXP_LEN, the parameters, the host's inputs, the schedule or the data read. -/
def Obligations.NoInstructionChangesSrc : Prop :=
  ∀ (i : Instr) (s t : State), exec i s = .next t →
    SameSrc s t ∧ t.srcLen = s.srcLen ∧ t.expLen = s.expLen ∧ t.params = s.params ∧ t.inputs = s.inputs ∧
    t.sched = s.sched ∧ t.rdata = s.rdata

/-- 10_state R20 with 45_commands R242: the busy engine has exactly one step, the completion of the latched command,
and it leaves the engine idle and DONE; a host transition other than reset neither ends the command nor changes a
host-visible register; and no transition of the two agents leaves a completion step cut open (log 6). -/
def Obligations.BusyEngineHasOneStep : Prop :=
  (∀ s : State, s.Inv → s.phase = .run → EngineMoves s →
    ∃ t, step s = .next t ∧ step s = exec (commandOf s.lOp s.lMode s.lExpv) (popTurn s) ∧
      t.phase = .idle ∧ t.busy = false ∧ t.done = true) ∧
  (∀ s t : State, s.Inv → s.phase = .run → HostMoves s → s.inputs.head? ≠ some .reset → step s = .next t →
    t.phase = .run ∧ SameHostRegs s t ∧ SameSrc s t ∧ SameDst s t) ∧
  (∀ s t : State, s.midstep = none → step s = .next t → t.midstep = none)

/-- 10_state R31 and R45, 70_reset_and_hazards R335: a part of a cut-open completion step (log 6) that leaves the command
running changes nothing a host can see: no host-visible register, no byte of SRC or DST, no input. -/
def Obligations.InternalOperationsAreHidden : Prop :=
  ∀ s t : State, s.midstep ≠ none → step s = .next t → t.phase = .run →
    s.phase = .run ∧ SameHostRegs s t ∧ SameSrc s t ∧ SameDst s t ∧ SameLatches s t ∧ t.inputs = s.inputs ∧
    t.rdata = s.rdata ∧ t.params = s.params

/-- 45_commands R242: however many internal operations have been taken one by one (log 6), the completion step
gives the same state as it would have given before them. -/
def Obligations.CompletionAbsorbsOperations : Prop :=
  ∀ (s : State) (k : Nat), s.Inv → s.phase = .run → (runOps k s).phase = .run →
    exec (commandOf s.lOp s.lMode s.lExpv) (runOps k s) = exec (commandOf s.lOp s.lMode s.lExpv) s

/-- 45_commands R241: the registers of the completion step and DST[0..DST_LEN) are a function of the START snapshot
(the command, l_len, l_exp and SRC[0..l_len)) and of the parameters. -/
def Obligations.ResultDependsOnSnapshotOnly : Prop :=
  ∀ (s s' : State) (op : BitVec 2) (m e : Bool), JustStarted s → JustStarted s' → s'.lLen = s.lLen → s'.lExp = s.lExp →
    s'.params = s.params → (∀ a < s.lLen.toNat, s'.srcByte a = s.srcByte a) →
    ∃ t t', exec (commandOf op m e) s = .next t ∧ exec (commandOf op m e) s' = .next t' ∧
      t'.status = t.status ∧ t'.dstLen = t.dstLen ∧ t'.cutPak = t.cutPak ∧ t'.cutRaw = t.cutRaw ∧
      t'.pakLen = t.pakLen ∧ ∀ a < t.dstLen.toNat, t'.dstByte a = t.dstByte a

/-- 10_state R28 and R30: in every legal state ERROR = 1 if and only if ERRCODE ≠ 0, the warnings and FRAME are 0 with
ERROR = 1, and ERRCODE is at most 7. -/
def Obligations.StatusReportsErrors : Prop :=
  ∀ s : State, s.Inv → (s.error = true ↔ s.errCode ≠ 0) ∧
    (s.error = true → s.statusTrunc = false ∧ s.statusClamp = false ∧ s.frame = false) ∧ s.errCode.toNat < 8

/-- 00_scope R3 and R4, 70_reset_and_hazards R332: no transition changes the parameters, reset included. -/
def Obligations.ParametersAreFixed : Prop := ∀ s t : State, step s = .next t → t.params = s.params
end

