-- ==== Sys2Proof/Laws/Memory.lean ====
section
/-! SUPPORT. The laws of a byte RAM: a read after a write, the frame of a write, and that every operation keeps the
canonical form and the bound on the indices. -/

namespace Sys2Proof.Machine

/-! ## Lookup -/

@[simp] theorem Memory.get_nil (i : Nat) : Memory.get [] i = none := rfl

theorem Memory.get_cons (a : Nat) (b : Byte) (m : Memory) (i : Nat) :
    Memory.get ((a, b) :: m) i = if i = a then some b else Memory.get m i := rfl

/-- Below every listed index nothing is listed. -/
theorem Memory.get_of_lt (m : Memory) (i : Nat) (h : ∀ c ∈ m, i < c.1) : Memory.get m i = none := by
  induction m with
  | nil => rfl
  | cons c m ih =>
    obtain ⟨a, b⟩ := c
    have ha : i < a := h (a, b) (by simp)
    rw [Memory.get_cons, if_neg (by omega)]
    exact ih fun c hc => h c (by simp [hc])

/-- A read after a write: the byte written at its index, any other index as before. -/
theorem Memory.get_set (m : Memory) (i : Nat) (b : Byte) (j : Nat) :
    Memory.get (Memory.set m i b) j = if j = i then some b else Memory.get m j := by
  induction m with
  | nil => rfl
  | cons c m ih =>
    obtain ⟨a, x⟩ := c
    unfold Memory.set
    split
    · rfl
    · split
      · next h => subst h; simp only [Memory.get_cons]; split <;> rfl
      · next h =>
        simp only [Memory.get_cons, ih]
        by_cases h1 : j = a
        · rw [if_pos h1, if_pos h1, if_neg (by omega)]
        · rw [if_neg h1, if_neg h1]

@[simp] theorem Memory.get_set_same (m : Memory) (i : Nat) (b : Byte) :
    Memory.get (Memory.set m i b) i = some b := by rw [Memory.get_set, if_pos rfl]

theorem Memory.get_set_other (m : Memory) {i j : Nat} (b : Byte) (h : j ≠ i) :
    Memory.get (Memory.set m i b) j = Memory.get m j := by rw [Memory.get_set, if_neg h]

/-- A read after consecutive writes. -/
theorem Memory.get_setBytes (m : Memory) (a : Nat) (bs : List Byte) (j : Nat) :
    Memory.get (Memory.setBytes m a bs) j =
      if a ≤ j ∧ j < a + bs.length then bs[j - a]? else Memory.get m j := by
  induction bs generalizing m a with
  | nil => simp [Memory.setBytes]
  | cons b bs ih =>
    simp only [Memory.setBytes, ih, Memory.get_set, List.length_cons]
    by_cases h1 : j = a
    · subst h1; simp
    · by_cases h2 : a + 1 ≤ j ∧ j < a + 1 + bs.length
      · have e : j - a = j - (a + 1) + 1 := by omega
        rw [if_pos h2, if_pos (by omega), e, List.getElem?_cons_succ]
      · rw [if_neg h2, if_neg h1, if_neg (by omega)]

/-- A read of the RAM made of a byte sequence. -/
theorem Memory.get_ofBytesFrom (a : Nat) (bs : List Byte) (j : Nat) :
    Memory.get (Memory.ofBytesFrom a bs) j = if a ≤ j then bs[j - a]? else none := by
  induction bs generalizing a with
  | nil => simp [Memory.ofBytesFrom]
  | cons b bs ih =>
    simp only [Memory.ofBytesFrom, Memory.get_cons, ih]
    by_cases h1 : j = a
    · subst h1; simp
    · by_cases h2 : a + 1 ≤ j
      · have e : j - a = j - (a + 1) + 1 := by omega
        rw [if_neg h1, if_pos h2, if_pos (by omega), e, List.getElem?_cons_succ]
      · rw [if_neg h1, if_neg h2, if_neg (by omega)]

@[simp] theorem Memory.get_ofBytes (bs : List Byte) (j : Nat) : Memory.get (Memory.ofBytes bs) j = bs[j]? := by
  simp [Memory.ofBytes, Memory.get_ofBytesFrom]

/-! ## The canonical form and the bound -/

theorem Memory.wf_nil : Memory.wf [] := List.Pairwise.nil

theorem Memory.mem_set {m : Memory} {i : Nat} {b : Byte} {c : Host.Cell} (h : c ∈ Memory.set m i b) :
    c = (i, b) ∨ c ∈ m := by
  induction m with
  | nil => simpa [Memory.set] using h
  | cons x m ih =>
    obtain ⟨a, y⟩ := x
    unfold Memory.set at h
    split at h
    · simpa using h
    · split at h
      · rcases List.mem_cons.1 h with h | h
        · exact .inl h
        · exact .inr (by simp [h])
      · rcases List.mem_cons.1 h with h | h
        · exact .inr (by simp [h])
        · rcases ih h with h | h
          · exact .inl h
          · exact .inr (by simp [h])

/-- A write keeps the canonical form. -/
theorem Memory.wf_set {m : Memory} (h : Memory.wf m) (i : Nat) (b : Byte) : Memory.wf (Memory.set m i b) := by
  induction m with
  | nil => exact List.pairwise_singleton _ _
  | cons x m ih =>
    obtain ⟨a, y⟩ := x
    obtain ⟨hx, hm⟩ := List.pairwise_cons.1 h
    unfold Memory.set
    split
    · next hi =>
      refine List.pairwise_cons.2 ⟨fun c hc => ?_, h⟩
      rcases List.mem_cons.1 hc with rfl | hc
      · exact hi
      · exact Nat.lt_trans hi (hx c hc)
    · split
      · next hi => subst hi; exact List.pairwise_cons.2 ⟨hx, hm⟩
      · next h1 h2 =>
        refine List.pairwise_cons.2 ⟨fun c hc => ?_, ih hm⟩
        rcases Memory.mem_set hc with rfl | hc
        · show a < i
          omega
        · exact hx c hc

/-- A write below a capacity keeps every index below it. -/
theorem Memory.lt_set {m : Memory} {cap : Nat} (h : ∀ c ∈ m, c.1 < cap) {i : Nat} (hi : i < cap) (b : Byte) :
    ∀ c ∈ Memory.set m i b, c.1 < cap := fun c hc => by
  rcases Memory.mem_set hc with rfl | hc
  · exact hi
  · exact h c hc

/-- Consecutive writes keep the canonical form. -/
theorem Memory.wf_setBytes {m : Memory} (h : Memory.wf m) (a : Nat) (bs : List Byte) :
    Memory.wf (Memory.setBytes m a bs) := by
  induction bs generalizing m a with
  | nil => exact h
  | cons b bs ih => exact ih (Memory.wf_set h a b) (a + 1)

/-- Consecutive writes below a capacity keep every index below it. -/
theorem Memory.lt_setBytes {m : Memory} {cap : Nat} (h : ∀ c ∈ m, c.1 < cap) (a : Nat) (bs : List Byte)
    (hb : a + bs.length ≤ cap) : ∀ c ∈ Memory.setBytes m a bs, c.1 < cap := by
  induction bs generalizing m a with
  | nil => exact h
  | cons b bs ih =>
    simp only [List.length_cons] at hb
    exact ih (Memory.lt_set h (by omega) b) (a + 1) (by omega)

/-- The indices of a RAM made of a byte sequence. -/
theorem Memory.map_fst_ofBytesFrom (a : Nat) (bs : List Byte) :
    (Memory.ofBytesFrom a bs).map Prod.fst = List.range' a bs.length := by
  induction bs generalizing a with
  | nil => rfl
  | cons b bs ih => simp [Memory.ofBytesFrom, ih, List.range'_succ]

@[simp] theorem Memory.map_fst_ofBytes (bs : List Byte) :
    (Memory.ofBytes bs).map Prod.fst = List.range bs.length := by
  rw [Memory.ofBytes, Memory.map_fst_ofBytesFrom, List.range_eq_range']

/-- A RAM whose indices are 0, 1, 2, … is in canonical form: DST under `RamsOk`. -/
theorem Memory.wf_of_map_fst {m : Memory} {n : Nat} (h : m.map Prod.fst = List.range n) : Memory.wf m := by
  have := List.pairwise_lt_range (n := n)
  rw [← h] at this
  exact List.pairwise_map.1 this

/-- The RAM made of a byte sequence is in canonical form. -/
theorem Memory.wf_ofBytes (bs : List Byte) : Memory.wf (Memory.ofBytes bs) :=
  Memory.wf_of_map_fst (Memory.map_fst_ofBytes bs)

/-- The RAMs after reset are in canonical form. -/
theorem reset_rams_wf : Memory.wf State.reset.src ∧ Memory.wf State.reset.dst ∧ Memory.wf State.reset.work :=
  ⟨Memory.wf_nil, Memory.wf_nil, Memory.wf_nil⟩

/-! ## Byte reads -/

/-- SRC reads the same where its cells and its generation are the same. -/
theorem srcByte_congr {s t : State} (h : t.src = s.src) (g : t.srcGen = s.srcGen) (i : Nat) :
    t.srcByte i = s.srcByte i := by rw [State.srcByte, State.srcByte, h, g]

/-- DST reads the same where its cells and its generation are the same. -/
theorem dstByte_congr {s t : State} (h : t.dst = s.dst) (g : t.bufGen = s.bufGen) (i : Nat) :
    t.dstByte i = s.dstByte i := by rw [State.dstByte, State.dstByte, h, g]

/-- WORK after one write at `i`. -/
theorem workByte_set {s t : State} {i : Nat} {b : Byte} (h : t.work = Memory.set s.work i b)
    (g : t.bufGen = s.bufGen) (j : Nat) : t.workByte j = if j = i then b else s.workByte j := by
  rw [State.workByte, State.workByte, h, g, Memory.get_set]
  split <;> rfl

/-- A result byte after `complete`. -/
theorem dstByte_complete (out : List Byte) (f tr cl : Bool) (p r k : Nat) (s : State) (i : Nat)
    (h : i < out.length) : (complete out f tr cl p r k s).dstByte i = out[i] := by
  simp [State.dstByte, complete, h]

@[simp] theorem srcBytes_length (s : State) (a n : Nat) : (s.srcBytes a n).length = n := by simp [State.srcBytes]

@[simp] theorem workBytes_length (s : State) (n : Nat) : (s.workBytes n).length = n := by simp [State.workBytes]

@[simp] theorem srcBytes_getElem (s : State) (a n i : Nat) (h : i < (s.srcBytes a n).length) :
    (s.srcBytes a n)[i] = s.srcByte (a + i) := by simp [State.srcBytes]

@[simp] theorem workBytes_getElem (s : State) (n i : Nat) (h : i < (s.workBytes n).length) :
    (s.workBytes n)[i] = s.workByte i := by simp [State.workBytes]

@[simp] theorem rev_length (bs : List Byte) : (rev bs).length = bs.length := by simp [rev]

@[simp] theorem leBytes_length (k v : Nat) : (leBytes k v).length = k := by
  induction k generalizing v with
  | zero => rfl
  | succ k ih => simp [leBytes, ih]

theorem le_align4 (v : Nat) : v ≤ align4 v := by unfold align4; omega

theorem align4_lt (v : Nat) : align4 v < v + 4 := by unfold align4; omega

theorem align4_mod (v : Nat) : align4 v % 4 = 0 := by unfold align4; omega

end Sys2Proof.Machine
end

