-- ==== Sys2Proof/Laws/State.lean ====
section
/-! SUPPORT. For every named update of the state and every field, what the field is after the update: true by rfl,
so that no later proof unfolds a record update. The conditional updates have their unchanged fields here too. -/

namespace Sys2Proof.Machine

variable (s : State)

/-! ## The working names of a completion step -/

theorem progress_none {s : State} (h : s.midstep = none) : s.progress = Progress.fresh := by simp [State.progress, h]

theorem progress_some {s : State} {p : Progress} (h : s.midstep = some p) : s.progress = p := by simp [State.progress, h]

/-- Not cut open, a completion step stands at its start. -/
theorem stage_none {s : State} (h : s.midstep = none) : s.stage = .dispatch := by simp [State.stage, progress_none h, Progress.fresh]

/-- A place inside the loops is one of a completion step that is cut open. -/
theorem midstep_of_stage {s : State} (h : s.stage ≠ .dispatch) : s.midstep = some s.progress := by
  cases hm : s.midstep with
  | none => exact absurd (stage_none hm) h
  | some p => rw [progress_some hm]

/-! ## popTurn -/

@[simp] theorem popTurn_ctrl : (popTurn s).ctrl = s.ctrl := rfl
@[simp] theorem popTurn_status : (popTurn s).status = s.status := rfl
@[simp] theorem popTurn_srcLen : (popTurn s).srcLen = s.srcLen := rfl
@[simp] theorem popTurn_dstLen : (popTurn s).dstLen = s.dstLen := rfl
@[simp] theorem popTurn_expLen : (popTurn s).expLen = s.expLen := rfl
@[simp] theorem popTurn_cutPak : (popTurn s).cutPak = s.cutPak := rfl
@[simp] theorem popTurn_cutRaw : (popTurn s).cutRaw = s.cutRaw := rfl
@[simp] theorem popTurn_pakLen : (popTurn s).pakLen = s.pakLen := rfl
@[simp] theorem popTurn_src : (popTurn s).src = s.src := rfl
@[simp] theorem popTurn_dst : (popTurn s).dst = s.dst := rfl
@[simp] theorem popTurn_work : (popTurn s).work = s.work := rfl
@[simp] theorem popTurn_phase : (popTurn s).phase = s.phase := rfl
@[simp] theorem popTurn_lOp : (popTurn s).lOp = s.lOp := rfl
@[simp] theorem popTurn_lMode : (popTurn s).lMode = s.lMode := rfl
@[simp] theorem popTurn_lExpv : (popTurn s).lExpv = s.lExpv := rfl
@[simp] theorem popTurn_lLen : (popTurn s).lLen = s.lLen := rfl
@[simp] theorem popTurn_lExp : (popTurn s).lExp = s.lExp := rfl
@[simp] theorem popTurn_cur : (popTurn s).cur = s.cur := rfl
@[simp] theorem popTurn_wp : (popTurn s).wp = s.wp := rfl
@[simp] theorem popTurn_fp : (popTurn s).fp = s.fp := rfl
@[simp] theorem popTurn_gk : (popTurn s).gk = s.gk := rfl
@[simp] theorem popTurn_pakTmp : (popTurn s).pakTmp = s.pakTmp := rfl
@[simp] theorem popTurn_rawTmp : (popTurn s).rawTmp = s.rawTmp := rfl
@[simp] theorem popTurn_lb : (popTurn s).lb = s.lb := rfl
@[simp] theorem popTurn_db : (popTurn s).db = s.db := rfl
@[simp] theorem popTurn_ln : (popTurn s).ln = s.ln := rfl
@[simp] theorem popTurn_lp : (popTurn s).lp = s.lp := rfl
@[simp] theorem popTurn_ip : (popTurn s).ip = s.ip := rfl
@[simp] theorem popTurn_oc : (popTurn s).oc = s.oc := rfl
@[simp] theorem popTurn_dk : (popTurn s).dk = s.dk := rfl
@[simp] theorem popTurn_fl : (popTurn s).fl = s.fl := rfl
@[simp] theorem popTurn_decLen : (popTurn s).decLen = s.decLen := rfl
@[simp] theorem popTurn_streamLen : (popTurn s).streamLen = s.streamLen := rfl
@[simp] theorem popTurn_rawLen : (popTurn s).rawLen = s.rawLen := rfl
@[simp] theorem popTurn_warnTrunc : (popTurn s).warnTrunc = s.warnTrunc := rfl
@[simp] theorem popTurn_warnClamp : (popTurn s).warnClamp = s.warnClamp := rfl
@[simp] theorem popTurn_stage : (popTurn s).stage = s.stage := rfl
@[simp] theorem popTurn_midstep : (popTurn s).midstep = s.midstep := rfl
@[simp] theorem popTurn_inputs : (popTurn s).inputs = s.inputs := rfl
@[simp] theorem popTurn_sched : (popTurn s).sched = s.sched.tail := rfl
@[simp] theorem popTurn_rdata : (popTurn s).rdata = s.rdata := rfl
@[simp] theorem popTurn_srcGen : (popTurn s).srcGen = s.srcGen := rfl
@[simp] theorem popTurn_bufGen : (popTurn s).bufGen = s.bufGen := rfl
@[simp] theorem popTurn_params : (popTurn s).params = s.params := rfl

/-! ## withCommand -/

@[simp] theorem withCommand_ctrl (op : BitVec 2) (m e : Bool) : (withCommand op m e s).ctrl = s.ctrl := rfl
@[simp] theorem withCommand_status (op : BitVec 2) (m e : Bool) : (withCommand op m e s).status = s.status := rfl
@[simp] theorem withCommand_srcLen (op : BitVec 2) (m e : Bool) : (withCommand op m e s).srcLen = s.srcLen := rfl
@[simp] theorem withCommand_dstLen (op : BitVec 2) (m e : Bool) : (withCommand op m e s).dstLen = s.dstLen := rfl
@[simp] theorem withCommand_expLen (op : BitVec 2) (m e : Bool) : (withCommand op m e s).expLen = s.expLen := rfl
@[simp] theorem withCommand_cutPak (op : BitVec 2) (m e : Bool) : (withCommand op m e s).cutPak = s.cutPak := rfl
@[simp] theorem withCommand_cutRaw (op : BitVec 2) (m e : Bool) : (withCommand op m e s).cutRaw = s.cutRaw := rfl
@[simp] theorem withCommand_pakLen (op : BitVec 2) (m e : Bool) : (withCommand op m e s).pakLen = s.pakLen := rfl
@[simp] theorem withCommand_src (op : BitVec 2) (m e : Bool) : (withCommand op m e s).src = s.src := rfl
@[simp] theorem withCommand_dst (op : BitVec 2) (m e : Bool) : (withCommand op m e s).dst = s.dst := rfl
@[simp] theorem withCommand_work (op : BitVec 2) (m e : Bool) : (withCommand op m e s).work = s.work := rfl
@[simp] theorem withCommand_phase (op : BitVec 2) (m e : Bool) : (withCommand op m e s).phase = s.phase := rfl
@[simp] theorem withCommand_lOp (op : BitVec 2) (m e : Bool) : (withCommand op m e s).lOp = op := rfl
@[simp] theorem withCommand_lMode (op : BitVec 2) (m e : Bool) : (withCommand op m e s).lMode = m := rfl
@[simp] theorem withCommand_lExpv (op : BitVec 2) (m e : Bool) : (withCommand op m e s).lExpv = e := rfl
@[simp] theorem withCommand_lLen (op : BitVec 2) (m e : Bool) : (withCommand op m e s).lLen = s.lLen := rfl
@[simp] theorem withCommand_lExp (op : BitVec 2) (m e : Bool) : (withCommand op m e s).lExp = s.lExp := rfl
@[simp] theorem withCommand_cur (op : BitVec 2) (m e : Bool) : (withCommand op m e s).cur = s.cur := rfl
@[simp] theorem withCommand_wp (op : BitVec 2) (m e : Bool) : (withCommand op m e s).wp = s.wp := rfl
@[simp] theorem withCommand_fp (op : BitVec 2) (m e : Bool) : (withCommand op m e s).fp = s.fp := rfl
@[simp] theorem withCommand_gk (op : BitVec 2) (m e : Bool) : (withCommand op m e s).gk = s.gk := rfl
@[simp] theorem withCommand_pakTmp (op : BitVec 2) (m e : Bool) : (withCommand op m e s).pakTmp = s.pakTmp := rfl
@[simp] theorem withCommand_rawTmp (op : BitVec 2) (m e : Bool) : (withCommand op m e s).rawTmp = s.rawTmp := rfl
@[simp] theorem withCommand_lb (op : BitVec 2) (m e : Bool) : (withCommand op m e s).lb = s.lb := rfl
@[simp] theorem withCommand_db (op : BitVec 2) (m e : Bool) : (withCommand op m e s).db = s.db := rfl
@[simp] theorem withCommand_ln (op : BitVec 2) (m e : Bool) : (withCommand op m e s).ln = s.ln := rfl
@[simp] theorem withCommand_lp (op : BitVec 2) (m e : Bool) : (withCommand op m e s).lp = s.lp := rfl
@[simp] theorem withCommand_ip (op : BitVec 2) (m e : Bool) : (withCommand op m e s).ip = s.ip := rfl
@[simp] theorem withCommand_oc (op : BitVec 2) (m e : Bool) : (withCommand op m e s).oc = s.oc := rfl
@[simp] theorem withCommand_dk (op : BitVec 2) (m e : Bool) : (withCommand op m e s).dk = s.dk := rfl
@[simp] theorem withCommand_fl (op : BitVec 2) (m e : Bool) : (withCommand op m e s).fl = s.fl := rfl
@[simp] theorem withCommand_decLen (op : BitVec 2) (m e : Bool) : (withCommand op m e s).decLen = s.decLen := rfl
@[simp] theorem withCommand_streamLen (op : BitVec 2) (m e : Bool) : (withCommand op m e s).streamLen = s.streamLen := rfl
@[simp] theorem withCommand_rawLen (op : BitVec 2) (m e : Bool) : (withCommand op m e s).rawLen = s.rawLen := rfl
@[simp] theorem withCommand_warnTrunc (op : BitVec 2) (m e : Bool) : (withCommand op m e s).warnTrunc = s.warnTrunc := rfl
@[simp] theorem withCommand_warnClamp (op : BitVec 2) (m e : Bool) : (withCommand op m e s).warnClamp = s.warnClamp := rfl
@[simp] theorem withCommand_stage (op : BitVec 2) (m e : Bool) : (withCommand op m e s).stage = s.stage := rfl
@[simp] theorem withCommand_midstep (op : BitVec 2) (m e : Bool) : (withCommand op m e s).midstep = s.midstep := rfl
@[simp] theorem withCommand_inputs (op : BitVec 2) (m e : Bool) : (withCommand op m e s).inputs = s.inputs := rfl
@[simp] theorem withCommand_sched (op : BitVec 2) (m e : Bool) : (withCommand op m e s).sched = s.sched := rfl
@[simp] theorem withCommand_rdata (op : BitVec 2) (m e : Bool) : (withCommand op m e s).rdata = s.rdata := rfl
@[simp] theorem withCommand_srcGen (op : BitVec 2) (m e : Bool) : (withCommand op m e s).srcGen = s.srcGen := rfl
@[simp] theorem withCommand_bufGen (op : BitVec 2) (m e : Bool) : (withCommand op m e s).bufGen = s.bufGen := rfl
@[simp] theorem withCommand_params (op : BitVec 2) (m e : Bool) : (withCommand op m e s).params = s.params := rfl

/-! ## raise -/

@[simp] theorem raise_ctrl (e : ErrorKind) : (raise e s).ctrl = s.ctrl := rfl
@[simp] theorem raise_status (e : ErrorKind) : (raise e s).status = statusError e := rfl
@[simp] theorem raise_srcLen (e : ErrorKind) : (raise e s).srcLen = s.srcLen := rfl
@[simp] theorem raise_dstLen (e : ErrorKind) : (raise e s).dstLen = 0 := rfl
@[simp] theorem raise_expLen (e : ErrorKind) : (raise e s).expLen = s.expLen := rfl
@[simp] theorem raise_cutPak (e : ErrorKind) : (raise e s).cutPak = 0 := rfl
@[simp] theorem raise_cutRaw (e : ErrorKind) : (raise e s).cutRaw = 0 := rfl
@[simp] theorem raise_pakLen (e : ErrorKind) : (raise e s).pakLen = 0 := rfl
@[simp] theorem raise_src (e : ErrorKind) : (raise e s).src = s.src := rfl
@[simp] theorem raise_dst (e : ErrorKind) : (raise e s).dst = [] := rfl
@[simp] theorem raise_work (e : ErrorKind) : (raise e s).work = s.work := rfl
@[simp] theorem raise_phase (e : ErrorKind) : (raise e s).phase = .idle := rfl
@[simp] theorem raise_lOp (e : ErrorKind) : (raise e s).lOp = s.lOp := rfl
@[simp] theorem raise_lMode (e : ErrorKind) : (raise e s).lMode = s.lMode := rfl
@[simp] theorem raise_lExpv (e : ErrorKind) : (raise e s).lExpv = s.lExpv := rfl
@[simp] theorem raise_lLen (e : ErrorKind) : (raise e s).lLen = s.lLen := rfl
@[simp] theorem raise_lExp (e : ErrorKind) : (raise e s).lExp = s.lExp := rfl
@[simp] theorem raise_cur (e : ErrorKind) : (raise e s).cur = s.cur := rfl
@[simp] theorem raise_wp (e : ErrorKind) : (raise e s).wp = s.wp := rfl
@[simp] theorem raise_fp (e : ErrorKind) : (raise e s).fp = s.fp := rfl
@[simp] theorem raise_gk (e : ErrorKind) : (raise e s).gk = s.gk := rfl
@[simp] theorem raise_pakTmp (e : ErrorKind) : (raise e s).pakTmp = s.pakTmp := rfl
@[simp] theorem raise_rawTmp (e : ErrorKind) : (raise e s).rawTmp = s.rawTmp := rfl
@[simp] theorem raise_lb (e : ErrorKind) : (raise e s).lb = s.lb := rfl
@[simp] theorem raise_db (e : ErrorKind) : (raise e s).db = s.db := rfl
@[simp] theorem raise_ln (e : ErrorKind) : (raise e s).ln = s.ln := rfl
@[simp] theorem raise_lp (e : ErrorKind) : (raise e s).lp = s.lp := rfl
@[simp] theorem raise_ip (e : ErrorKind) : (raise e s).ip = s.ip := rfl
@[simp] theorem raise_oc (e : ErrorKind) : (raise e s).oc = s.oc := rfl
@[simp] theorem raise_dk (e : ErrorKind) : (raise e s).dk = s.dk := rfl
@[simp] theorem raise_fl (e : ErrorKind) : (raise e s).fl = s.fl := rfl
@[simp] theorem raise_decLen (e : ErrorKind) : (raise e s).decLen = 0 := rfl
@[simp] theorem raise_streamLen (e : ErrorKind) : (raise e s).streamLen = 0 := rfl
@[simp] theorem raise_rawLen (e : ErrorKind) : (raise e s).rawLen = 0 := rfl
@[simp] theorem raise_warnTrunc (e : ErrorKind) : (raise e s).warnTrunc = false := rfl
@[simp] theorem raise_warnClamp (e : ErrorKind) : (raise e s).warnClamp = false := rfl
@[simp] theorem raise_stage (e : ErrorKind) : (raise e s).stage = .dispatch := rfl
@[simp] theorem raise_midstep (e : ErrorKind) : (raise e s).midstep = none := rfl
@[simp] theorem raise_inputs (e : ErrorKind) : (raise e s).inputs = s.inputs := rfl
@[simp] theorem raise_sched (e : ErrorKind) : (raise e s).sched = s.sched := rfl
@[simp] theorem raise_rdata (e : ErrorKind) : (raise e s).rdata = s.rdata := rfl
@[simp] theorem raise_srcGen (e : ErrorKind) : (raise e s).srcGen = s.srcGen := rfl
@[simp] theorem raise_bufGen (e : ErrorKind) : (raise e s).bufGen = s.bufGen := rfl
@[simp] theorem raise_params (e : ErrorKind) : (raise e s).params = s.params := rfl

/-! ## complete -/

@[simp] theorem complete_ctrl (out : List Byte) (f tr cl : Bool) (p r k : Nat) : (complete out f tr cl p r k s).ctrl = s.ctrl := rfl
@[simp] theorem complete_status (out : List Byte) (f tr cl : Bool) (p r k : Nat) : (complete out f tr cl p r k s).status = statusDone f tr cl := rfl
@[simp] theorem complete_srcLen (out : List Byte) (f tr cl : Bool) (p r k : Nat) : (complete out f tr cl p r k s).srcLen = s.srcLen := rfl
@[simp] theorem complete_dstLen (out : List Byte) (f tr cl : Bool) (p r k : Nat) : (complete out f tr cl p r k s).dstLen = BitVec.ofNat 32 out.length := rfl
@[simp] theorem complete_expLen (out : List Byte) (f tr cl : Bool) (p r k : Nat) : (complete out f tr cl p r k s).expLen = s.expLen := rfl
@[simp] theorem complete_cutPak (out : List Byte) (f tr cl : Bool) (p r k : Nat) : (complete out f tr cl p r k s).cutPak = BitVec.ofNat 32 p := rfl
@[simp] theorem complete_cutRaw (out : List Byte) (f tr cl : Bool) (p r k : Nat) : (complete out f tr cl p r k s).cutRaw = BitVec.ofNat 32 r := rfl
@[simp] theorem complete_pakLen (out : List Byte) (f tr cl : Bool) (p r k : Nat) : (complete out f tr cl p r k s).pakLen = BitVec.ofNat 32 k := rfl
@[simp] theorem complete_src (out : List Byte) (f tr cl : Bool) (p r k : Nat) : (complete out f tr cl p r k s).src = s.src := rfl
@[simp] theorem complete_dst (out : List Byte) (f tr cl : Bool) (p r k : Nat) : (complete out f tr cl p r k s).dst = Memory.ofBytes out := rfl
@[simp] theorem complete_work (out : List Byte) (f tr cl : Bool) (p r k : Nat) : (complete out f tr cl p r k s).work = s.work := rfl
@[simp] theorem complete_phase (out : List Byte) (f tr cl : Bool) (p r k : Nat) : (complete out f tr cl p r k s).phase = .idle := rfl
@[simp] theorem complete_lOp (out : List Byte) (f tr cl : Bool) (p r k : Nat) : (complete out f tr cl p r k s).lOp = s.lOp := rfl
@[simp] theorem complete_lMode (out : List Byte) (f tr cl : Bool) (p r k : Nat) : (complete out f tr cl p r k s).lMode = s.lMode := rfl
@[simp] theorem complete_lExpv (out : List Byte) (f tr cl : Bool) (p r k : Nat) : (complete out f tr cl p r k s).lExpv = s.lExpv := rfl
@[simp] theorem complete_lLen (out : List Byte) (f tr cl : Bool) (p r k : Nat) : (complete out f tr cl p r k s).lLen = s.lLen := rfl
@[simp] theorem complete_lExp (out : List Byte) (f tr cl : Bool) (p r k : Nat) : (complete out f tr cl p r k s).lExp = s.lExp := rfl
@[simp] theorem complete_cur (out : List Byte) (f tr cl : Bool) (p r k : Nat) : (complete out f tr cl p r k s).cur = s.cur := rfl
@[simp] theorem complete_wp (out : List Byte) (f tr cl : Bool) (p r k : Nat) : (complete out f tr cl p r k s).wp = s.wp := rfl
@[simp] theorem complete_fp (out : List Byte) (f tr cl : Bool) (p r k : Nat) : (complete out f tr cl p r k s).fp = s.fp := rfl
@[simp] theorem complete_gk (out : List Byte) (f tr cl : Bool) (p r k : Nat) : (complete out f tr cl p r k s).gk = s.gk := rfl
@[simp] theorem complete_pakTmp (out : List Byte) (f tr cl : Bool) (p r k : Nat) : (complete out f tr cl p r k s).pakTmp = s.pakTmp := rfl
@[simp] theorem complete_rawTmp (out : List Byte) (f tr cl : Bool) (p r k : Nat) : (complete out f tr cl p r k s).rawTmp = s.rawTmp := rfl
@[simp] theorem complete_lb (out : List Byte) (f tr cl : Bool) (p r k : Nat) : (complete out f tr cl p r k s).lb = s.lb := rfl
@[simp] theorem complete_db (out : List Byte) (f tr cl : Bool) (p r k : Nat) : (complete out f tr cl p r k s).db = s.db := rfl
@[simp] theorem complete_ln (out : List Byte) (f tr cl : Bool) (p r k : Nat) : (complete out f tr cl p r k s).ln = s.ln := rfl
@[simp] theorem complete_lp (out : List Byte) (f tr cl : Bool) (p r k : Nat) : (complete out f tr cl p r k s).lp = s.lp := rfl
@[simp] theorem complete_ip (out : List Byte) (f tr cl : Bool) (p r k : Nat) : (complete out f tr cl p r k s).ip = s.ip := rfl
@[simp] theorem complete_oc (out : List Byte) (f tr cl : Bool) (p r k : Nat) : (complete out f tr cl p r k s).oc = s.oc := rfl
@[simp] theorem complete_dk (out : List Byte) (f tr cl : Bool) (p r k : Nat) : (complete out f tr cl p r k s).dk = s.dk := rfl
@[simp] theorem complete_fl (out : List Byte) (f tr cl : Bool) (p r k : Nat) : (complete out f tr cl p r k s).fl = s.fl := rfl
@[simp] theorem complete_decLen (out : List Byte) (f tr cl : Bool) (p r k : Nat) : (complete out f tr cl p r k s).decLen = 0 := rfl
@[simp] theorem complete_streamLen (out : List Byte) (f tr cl : Bool) (p r k : Nat) : (complete out f tr cl p r k s).streamLen = 0 := rfl
@[simp] theorem complete_rawLen (out : List Byte) (f tr cl : Bool) (p r k : Nat) : (complete out f tr cl p r k s).rawLen = 0 := rfl
@[simp] theorem complete_warnTrunc (out : List Byte) (f tr cl : Bool) (p r k : Nat) : (complete out f tr cl p r k s).warnTrunc = false := rfl
@[simp] theorem complete_warnClamp (out : List Byte) (f tr cl : Bool) (p r k : Nat) : (complete out f tr cl p r k s).warnClamp = false := rfl
@[simp] theorem complete_stage (out : List Byte) (f tr cl : Bool) (p r k : Nat) : (complete out f tr cl p r k s).stage = .dispatch := rfl
@[simp] theorem complete_midstep (out : List Byte) (f tr cl : Bool) (p r k : Nat) : (complete out f tr cl p r k s).midstep = none := rfl
@[simp] theorem complete_inputs (out : List Byte) (f tr cl : Bool) (p r k : Nat) : (complete out f tr cl p r k s).inputs = s.inputs := rfl
@[simp] theorem complete_sched (out : List Byte) (f tr cl : Bool) (p r k : Nat) : (complete out f tr cl p r k s).sched = s.sched := rfl
@[simp] theorem complete_rdata (out : List Byte) (f tr cl : Bool) (p r k : Nat) : (complete out f tr cl p r k s).rdata = s.rdata := rfl
@[simp] theorem complete_srcGen (out : List Byte) (f tr cl : Bool) (p r k : Nat) : (complete out f tr cl p r k s).srcGen = s.srcGen := rfl
@[simp] theorem complete_bufGen (out : List Byte) (f tr cl : Bool) (p r k : Nat) : (complete out f tr cl p r k s).bufGen = s.bufGen := rfl
@[simp] theorem complete_params (out : List Byte) (f tr cl : Bool) (p r k : Nat) : (complete out f tr cl p r k s).params = s.params := rfl

/-! ## openGroup -/

@[simp] theorem openGroup_ctrl (f : Byte) : (openGroup f s).ctrl = s.ctrl := rfl
@[simp] theorem openGroup_status (f : Byte) : (openGroup f s).status = s.status := rfl
@[simp] theorem openGroup_srcLen (f : Byte) : (openGroup f s).srcLen = s.srcLen := rfl
@[simp] theorem openGroup_dstLen (f : Byte) : (openGroup f s).dstLen = s.dstLen := rfl
@[simp] theorem openGroup_expLen (f : Byte) : (openGroup f s).expLen = s.expLen := rfl
@[simp] theorem openGroup_cutPak (f : Byte) : (openGroup f s).cutPak = s.cutPak := rfl
@[simp] theorem openGroup_cutRaw (f : Byte) : (openGroup f s).cutRaw = s.cutRaw := rfl
@[simp] theorem openGroup_pakLen (f : Byte) : (openGroup f s).pakLen = s.pakLen := rfl
@[simp] theorem openGroup_src (f : Byte) : (openGroup f s).src = s.src := rfl
@[simp] theorem openGroup_dst (f : Byte) : (openGroup f s).dst = s.dst := rfl
@[simp] theorem openGroup_work (f : Byte) : (openGroup f s).work = Memory.set s.work s.wp.toNat f := rfl
@[simp] theorem openGroup_phase (f : Byte) : (openGroup f s).phase = s.phase := rfl
@[simp] theorem openGroup_lOp (f : Byte) : (openGroup f s).lOp = s.lOp := rfl
@[simp] theorem openGroup_lMode (f : Byte) : (openGroup f s).lMode = s.lMode := rfl
@[simp] theorem openGroup_lExpv (f : Byte) : (openGroup f s).lExpv = s.lExpv := rfl
@[simp] theorem openGroup_lLen (f : Byte) : (openGroup f s).lLen = s.lLen := rfl
@[simp] theorem openGroup_lExp (f : Byte) : (openGroup f s).lExp = s.lExp := rfl
@[simp] theorem openGroup_cur (f : Byte) : (openGroup f s).cur = s.cur := rfl
@[simp] theorem openGroup_wp (f : Byte) : (openGroup f s).wp = BitVec.ofNat 25 (s.wp.toNat + 1) := rfl
@[simp] theorem openGroup_fp (f : Byte) : (openGroup f s).fp = s.wp := rfl
@[simp] theorem openGroup_gk (f : Byte) : (openGroup f s).gk = 0 := rfl
@[simp] theorem openGroup_pakTmp (f : Byte) : (openGroup f s).pakTmp = s.pakTmp := rfl
@[simp] theorem openGroup_rawTmp (f : Byte) : (openGroup f s).rawTmp = s.rawTmp := rfl
@[simp] theorem openGroup_lb (f : Byte) : (openGroup f s).lb = s.lb := rfl
@[simp] theorem openGroup_db (f : Byte) : (openGroup f s).db = s.db := rfl
@[simp] theorem openGroup_ln (f : Byte) : (openGroup f s).ln = s.ln := rfl
@[simp] theorem openGroup_lp (f : Byte) : (openGroup f s).lp = s.lp := rfl
@[simp] theorem openGroup_ip (f : Byte) : (openGroup f s).ip = s.ip := rfl
@[simp] theorem openGroup_oc (f : Byte) : (openGroup f s).oc = s.oc := rfl
@[simp] theorem openGroup_dk (f : Byte) : (openGroup f s).dk = s.dk := rfl
@[simp] theorem openGroup_fl (f : Byte) : (openGroup f s).fl = s.fl := rfl
@[simp] theorem openGroup_decLen (f : Byte) : (openGroup f s).decLen = s.decLen := rfl
@[simp] theorem openGroup_streamLen (f : Byte) : (openGroup f s).streamLen = s.streamLen := rfl
@[simp] theorem openGroup_rawLen (f : Byte) : (openGroup f s).rawLen = s.rawLen := rfl
@[simp] theorem openGroup_warnTrunc (f : Byte) : (openGroup f s).warnTrunc = s.warnTrunc := rfl
@[simp] theorem openGroup_warnClamp (f : Byte) : (openGroup f s).warnClamp = s.warnClamp := rfl
@[simp] theorem openGroup_stage (f : Byte) : (openGroup f s).stage = s.stage := rfl
@[simp] theorem openGroup_midstep (f : Byte) : (openGroup f s).midstep = s.midstep := rfl
@[simp] theorem openGroup_inputs (f : Byte) : (openGroup f s).inputs = s.inputs := rfl
@[simp] theorem openGroup_sched (f : Byte) : (openGroup f s).sched = s.sched := rfl
@[simp] theorem openGroup_rdata (f : Byte) : (openGroup f s).rdata = s.rdata := rfl
@[simp] theorem openGroup_srcGen (f : Byte) : (openGroup f s).srcGen = s.srcGen := rfl
@[simp] theorem openGroup_bufGen (f : Byte) : (openGroup f s).bufGen = s.bufGen := rfl
@[simp] theorem openGroup_params (f : Byte) : (openGroup f s).params = s.params := rfl

/-! ## flagFold -/

@[simp] theorem flagFold_ctrl (b : Bool) : (flagFold b s).ctrl = s.ctrl := rfl
@[simp] theorem flagFold_status (b : Bool) : (flagFold b s).status = s.status := rfl
@[simp] theorem flagFold_srcLen (b : Bool) : (flagFold b s).srcLen = s.srcLen := rfl
@[simp] theorem flagFold_dstLen (b : Bool) : (flagFold b s).dstLen = s.dstLen := rfl
@[simp] theorem flagFold_expLen (b : Bool) : (flagFold b s).expLen = s.expLen := rfl
@[simp] theorem flagFold_cutPak (b : Bool) : (flagFold b s).cutPak = s.cutPak := rfl
@[simp] theorem flagFold_cutRaw (b : Bool) : (flagFold b s).cutRaw = s.cutRaw := rfl
@[simp] theorem flagFold_pakLen (b : Bool) : (flagFold b s).pakLen = s.pakLen := rfl
@[simp] theorem flagFold_src (b : Bool) : (flagFold b s).src = s.src := rfl
@[simp] theorem flagFold_dst (b : Bool) : (flagFold b s).dst = s.dst := rfl
@[simp] theorem flagFold_work (b : Bool) : (flagFold b s).work = Memory.set s.work s.fp.toNat (foldFlag (s.workByte s.fp.toNat) b) := rfl
@[simp] theorem flagFold_phase (b : Bool) : (flagFold b s).phase = s.phase := rfl
@[simp] theorem flagFold_lOp (b : Bool) : (flagFold b s).lOp = s.lOp := rfl
@[simp] theorem flagFold_lMode (b : Bool) : (flagFold b s).lMode = s.lMode := rfl
@[simp] theorem flagFold_lExpv (b : Bool) : (flagFold b s).lExpv = s.lExpv := rfl
@[simp] theorem flagFold_lLen (b : Bool) : (flagFold b s).lLen = s.lLen := rfl
@[simp] theorem flagFold_lExp (b : Bool) : (flagFold b s).lExp = s.lExp := rfl
@[simp] theorem flagFold_cur (b : Bool) : (flagFold b s).cur = s.cur := rfl
@[simp] theorem flagFold_wp (b : Bool) : (flagFold b s).wp = s.wp := rfl
@[simp] theorem flagFold_fp (b : Bool) : (flagFold b s).fp = s.fp := rfl
@[simp] theorem flagFold_gk (b : Bool) : (flagFold b s).gk = BitVec.ofNat 4 (s.gk.toNat + 1) := rfl
@[simp] theorem flagFold_pakTmp (b : Bool) : (flagFold b s).pakTmp = s.pakTmp := rfl
@[simp] theorem flagFold_rawTmp (b : Bool) : (flagFold b s).rawTmp = s.rawTmp := rfl
@[simp] theorem flagFold_lb (b : Bool) : (flagFold b s).lb = s.lb := rfl
@[simp] theorem flagFold_db (b : Bool) : (flagFold b s).db = s.db := rfl
@[simp] theorem flagFold_ln (b : Bool) : (flagFold b s).ln = s.ln := rfl
@[simp] theorem flagFold_lp (b : Bool) : (flagFold b s).lp = s.lp := rfl
@[simp] theorem flagFold_ip (b : Bool) : (flagFold b s).ip = s.ip := rfl
@[simp] theorem flagFold_oc (b : Bool) : (flagFold b s).oc = s.oc := rfl
@[simp] theorem flagFold_dk (b : Bool) : (flagFold b s).dk = s.dk := rfl
@[simp] theorem flagFold_fl (b : Bool) : (flagFold b s).fl = s.fl := rfl
@[simp] theorem flagFold_decLen (b : Bool) : (flagFold b s).decLen = s.decLen := rfl
@[simp] theorem flagFold_streamLen (b : Bool) : (flagFold b s).streamLen = s.streamLen := rfl
@[simp] theorem flagFold_rawLen (b : Bool) : (flagFold b s).rawLen = s.rawLen := rfl
@[simp] theorem flagFold_warnTrunc (b : Bool) : (flagFold b s).warnTrunc = s.warnTrunc := rfl
@[simp] theorem flagFold_warnClamp (b : Bool) : (flagFold b s).warnClamp = s.warnClamp := rfl
@[simp] theorem flagFold_stage (b : Bool) : (flagFold b s).stage = s.stage := rfl
@[simp] theorem flagFold_midstep (b : Bool) : (flagFold b s).midstep = s.midstep := rfl
@[simp] theorem flagFold_inputs (b : Bool) : (flagFold b s).inputs = s.inputs := rfl
@[simp] theorem flagFold_sched (b : Bool) : (flagFold b s).sched = s.sched := rfl
@[simp] theorem flagFold_rdata (b : Bool) : (flagFold b s).rdata = s.rdata := rfl
@[simp] theorem flagFold_srcGen (b : Bool) : (flagFold b s).srcGen = s.srcGen := rfl
@[simp] theorem flagFold_bufGen (b : Bool) : (flagFold b s).bufGen = s.bufGen := rfl
@[simp] theorem flagFold_params (b : Bool) : (flagFold b s).params = s.params := rfl

/-! ## putLit -/

@[simp] theorem putLit_ctrl (b : Byte) : (putLit b s).ctrl = s.ctrl := rfl
@[simp] theorem putLit_status (b : Byte) : (putLit b s).status = s.status := rfl
@[simp] theorem putLit_srcLen (b : Byte) : (putLit b s).srcLen = s.srcLen := rfl
@[simp] theorem putLit_dstLen (b : Byte) : (putLit b s).dstLen = s.dstLen := rfl
@[simp] theorem putLit_expLen (b : Byte) : (putLit b s).expLen = s.expLen := rfl
@[simp] theorem putLit_cutPak (b : Byte) : (putLit b s).cutPak = s.cutPak := rfl
@[simp] theorem putLit_cutRaw (b : Byte) : (putLit b s).cutRaw = s.cutRaw := rfl
@[simp] theorem putLit_pakLen (b : Byte) : (putLit b s).pakLen = s.pakLen := rfl
@[simp] theorem putLit_src (b : Byte) : (putLit b s).src = s.src := rfl
@[simp] theorem putLit_dst (b : Byte) : (putLit b s).dst = s.dst := rfl
@[simp] theorem putLit_work (b : Byte) : (putLit b s).work = Memory.set s.work s.wp.toNat b := rfl
@[simp] theorem putLit_phase (b : Byte) : (putLit b s).phase = s.phase := rfl
@[simp] theorem putLit_lOp (b : Byte) : (putLit b s).lOp = s.lOp := rfl
@[simp] theorem putLit_lMode (b : Byte) : (putLit b s).lMode = s.lMode := rfl
@[simp] theorem putLit_lExpv (b : Byte) : (putLit b s).lExpv = s.lExpv := rfl
@[simp] theorem putLit_lLen (b : Byte) : (putLit b s).lLen = s.lLen := rfl
@[simp] theorem putLit_lExp (b : Byte) : (putLit b s).lExp = s.lExp := rfl
@[simp] theorem putLit_cur (b : Byte) : (putLit b s).cur = BitVec.ofNat 24 (s.cur.toNat + 1) := rfl
@[simp] theorem putLit_wp (b : Byte) : (putLit b s).wp = BitVec.ofNat 25 (s.wp.toNat + 1) := rfl
@[simp] theorem putLit_fp (b : Byte) : (putLit b s).fp = s.fp := rfl
@[simp] theorem putLit_gk (b : Byte) : (putLit b s).gk = s.gk := rfl
@[simp] theorem putLit_pakTmp (b : Byte) : (putLit b s).pakTmp = s.pakTmp := rfl
@[simp] theorem putLit_rawTmp (b : Byte) : (putLit b s).rawTmp = s.rawTmp := rfl
@[simp] theorem putLit_lb (b : Byte) : (putLit b s).lb = s.lb := rfl
@[simp] theorem putLit_db (b : Byte) : (putLit b s).db = s.db := rfl
@[simp] theorem putLit_ln (b : Byte) : (putLit b s).ln = s.ln := rfl
@[simp] theorem putLit_lp (b : Byte) : (putLit b s).lp = s.lp := rfl
@[simp] theorem putLit_ip (b : Byte) : (putLit b s).ip = s.ip := rfl
@[simp] theorem putLit_oc (b : Byte) : (putLit b s).oc = s.oc := rfl
@[simp] theorem putLit_dk (b : Byte) : (putLit b s).dk = s.dk := rfl
@[simp] theorem putLit_fl (b : Byte) : (putLit b s).fl = s.fl := rfl
@[simp] theorem putLit_decLen (b : Byte) : (putLit b s).decLen = s.decLen := rfl
@[simp] theorem putLit_streamLen (b : Byte) : (putLit b s).streamLen = s.streamLen := rfl
@[simp] theorem putLit_rawLen (b : Byte) : (putLit b s).rawLen = s.rawLen := rfl
@[simp] theorem putLit_warnTrunc (b : Byte) : (putLit b s).warnTrunc = s.warnTrunc := rfl
@[simp] theorem putLit_warnClamp (b : Byte) : (putLit b s).warnClamp = s.warnClamp := rfl
@[simp] theorem putLit_stage (b : Byte) : (putLit b s).stage = s.stage := rfl
@[simp] theorem putLit_midstep (b : Byte) : (putLit b s).midstep = s.midstep := rfl
@[simp] theorem putLit_inputs (b : Byte) : (putLit b s).inputs = s.inputs := rfl
@[simp] theorem putLit_sched (b : Byte) : (putLit b s).sched = s.sched := rfl
@[simp] theorem putLit_rdata (b : Byte) : (putLit b s).rdata = s.rdata := rfl
@[simp] theorem putLit_srcGen (b : Byte) : (putLit b s).srcGen = s.srcGen := rfl
@[simp] theorem putLit_bufGen (b : Byte) : (putLit b s).bufGen = s.bufGen := rfl
@[simp] theorem putLit_params (b : Byte) : (putLit b s).params = s.params := rfl

/-! ## putMatch -/

@[simp] theorem putMatch_ctrl (len dist : Nat) : (putMatch len dist s).ctrl = s.ctrl := rfl
@[simp] theorem putMatch_status (len dist : Nat) : (putMatch len dist s).status = s.status := rfl
@[simp] theorem putMatch_srcLen (len dist : Nat) : (putMatch len dist s).srcLen = s.srcLen := rfl
@[simp] theorem putMatch_dstLen (len dist : Nat) : (putMatch len dist s).dstLen = s.dstLen := rfl
@[simp] theorem putMatch_expLen (len dist : Nat) : (putMatch len dist s).expLen = s.expLen := rfl
@[simp] theorem putMatch_cutPak (len dist : Nat) : (putMatch len dist s).cutPak = s.cutPak := rfl
@[simp] theorem putMatch_cutRaw (len dist : Nat) : (putMatch len dist s).cutRaw = s.cutRaw := rfl
@[simp] theorem putMatch_pakLen (len dist : Nat) : (putMatch len dist s).pakLen = s.pakLen := rfl
@[simp] theorem putMatch_src (len dist : Nat) : (putMatch len dist s).src = s.src := rfl
@[simp] theorem putMatch_dst (len dist : Nat) : (putMatch len dist s).dst = s.dst := rfl
@[simp] theorem putMatch_work (len dist : Nat) : (putMatch len dist s).work = Memory.set (Memory.set s.work s.wp.toNat (matchByte0 len dist)) (s.wp.toNat + 1) (matchByte1 dist) := rfl
@[simp] theorem putMatch_phase (len dist : Nat) : (putMatch len dist s).phase = s.phase := rfl
@[simp] theorem putMatch_lOp (len dist : Nat) : (putMatch len dist s).lOp = s.lOp := rfl
@[simp] theorem putMatch_lMode (len dist : Nat) : (putMatch len dist s).lMode = s.lMode := rfl
@[simp] theorem putMatch_lExpv (len dist : Nat) : (putMatch len dist s).lExpv = s.lExpv := rfl
@[simp] theorem putMatch_lLen (len dist : Nat) : (putMatch len dist s).lLen = s.lLen := rfl
@[simp] theorem putMatch_lExp (len dist : Nat) : (putMatch len dist s).lExp = s.lExp := rfl
@[simp] theorem putMatch_cur (len dist : Nat) : (putMatch len dist s).cur = BitVec.ofNat 24 (s.cur.toNat + len) := rfl
@[simp] theorem putMatch_wp (len dist : Nat) : (putMatch len dist s).wp = BitVec.ofNat 25 (s.wp.toNat + 2) := rfl
@[simp] theorem putMatch_fp (len dist : Nat) : (putMatch len dist s).fp = s.fp := rfl
@[simp] theorem putMatch_gk (len dist : Nat) : (putMatch len dist s).gk = s.gk := rfl
@[simp] theorem putMatch_pakTmp (len dist : Nat) : (putMatch len dist s).pakTmp = s.pakTmp := rfl
@[simp] theorem putMatch_rawTmp (len dist : Nat) : (putMatch len dist s).rawTmp = s.rawTmp := rfl
@[simp] theorem putMatch_lb (len dist : Nat) : (putMatch len dist s).lb = s.lb := rfl
@[simp] theorem putMatch_db (len dist : Nat) : (putMatch len dist s).db = s.db := rfl
@[simp] theorem putMatch_ln (len dist : Nat) : (putMatch len dist s).ln = s.ln := rfl
@[simp] theorem putMatch_lp (len dist : Nat) : (putMatch len dist s).lp = s.lp := rfl
@[simp] theorem putMatch_ip (len dist : Nat) : (putMatch len dist s).ip = s.ip := rfl
@[simp] theorem putMatch_oc (len dist : Nat) : (putMatch len dist s).oc = s.oc := rfl
@[simp] theorem putMatch_dk (len dist : Nat) : (putMatch len dist s).dk = s.dk := rfl
@[simp] theorem putMatch_fl (len dist : Nat) : (putMatch len dist s).fl = s.fl := rfl
@[simp] theorem putMatch_decLen (len dist : Nat) : (putMatch len dist s).decLen = s.decLen := rfl
@[simp] theorem putMatch_streamLen (len dist : Nat) : (putMatch len dist s).streamLen = s.streamLen := rfl
@[simp] theorem putMatch_rawLen (len dist : Nat) : (putMatch len dist s).rawLen = s.rawLen := rfl
@[simp] theorem putMatch_warnTrunc (len dist : Nat) : (putMatch len dist s).warnTrunc = s.warnTrunc := rfl
@[simp] theorem putMatch_warnClamp (len dist : Nat) : (putMatch len dist s).warnClamp = s.warnClamp := rfl
@[simp] theorem putMatch_stage (len dist : Nat) : (putMatch len dist s).stage = s.stage := rfl
@[simp] theorem putMatch_midstep (len dist : Nat) : (putMatch len dist s).midstep = s.midstep := rfl
@[simp] theorem putMatch_inputs (len dist : Nat) : (putMatch len dist s).inputs = s.inputs := rfl
@[simp] theorem putMatch_sched (len dist : Nat) : (putMatch len dist s).sched = s.sched := rfl
@[simp] theorem putMatch_rdata (len dist : Nat) : (putMatch len dist s).rdata = s.rdata := rfl
@[simp] theorem putMatch_srcGen (len dist : Nat) : (putMatch len dist s).srcGen = s.srcGen := rfl
@[simp] theorem putMatch_bufGen (len dist : Nat) : (putMatch len dist s).bufGen = s.bufGen := rfl
@[simp] theorem putMatch_params (len dist : Nat) : (putMatch len dist s).params = s.params := rfl

/-! ## openStream -/

@[simp] theorem openStream_ctrl (d k r : Nat) : (openStream d k r s).ctrl = s.ctrl := rfl
@[simp] theorem openStream_status (d k r : Nat) : (openStream d k r s).status = s.status := rfl
@[simp] theorem openStream_srcLen (d k r : Nat) : (openStream d k r s).srcLen = s.srcLen := rfl
@[simp] theorem openStream_dstLen (d k r : Nat) : (openStream d k r s).dstLen = s.dstLen := rfl
@[simp] theorem openStream_expLen (d k r : Nat) : (openStream d k r s).expLen = s.expLen := rfl
@[simp] theorem openStream_cutPak (d k r : Nat) : (openStream d k r s).cutPak = s.cutPak := rfl
@[simp] theorem openStream_cutRaw (d k r : Nat) : (openStream d k r s).cutRaw = s.cutRaw := rfl
@[simp] theorem openStream_pakLen (d k r : Nat) : (openStream d k r s).pakLen = s.pakLen := rfl
@[simp] theorem openStream_src (d k r : Nat) : (openStream d k r s).src = s.src := rfl
@[simp] theorem openStream_dst (d k r : Nat) : (openStream d k r s).dst = s.dst := rfl
@[simp] theorem openStream_work (d k r : Nat) : (openStream d k r s).work = s.work := rfl
@[simp] theorem openStream_phase (d k r : Nat) : (openStream d k r s).phase = s.phase := rfl
@[simp] theorem openStream_lOp (d k r : Nat) : (openStream d k r s).lOp = s.lOp := rfl
@[simp] theorem openStream_lMode (d k r : Nat) : (openStream d k r s).lMode = s.lMode := rfl
@[simp] theorem openStream_lExpv (d k r : Nat) : (openStream d k r s).lExpv = s.lExpv := rfl
@[simp] theorem openStream_lLen (d k r : Nat) : (openStream d k r s).lLen = s.lLen := rfl
@[simp] theorem openStream_lExp (d k r : Nat) : (openStream d k r s).lExp = s.lExp := rfl
@[simp] theorem openStream_cur (d k r : Nat) : (openStream d k r s).cur = s.cur := rfl
@[simp] theorem openStream_wp (d k r : Nat) : (openStream d k r s).wp = s.wp := rfl
@[simp] theorem openStream_fp (d k r : Nat) : (openStream d k r s).fp = s.fp := rfl
@[simp] theorem openStream_gk (d k r : Nat) : (openStream d k r s).gk = s.gk := rfl
@[simp] theorem openStream_pakTmp (d k r : Nat) : (openStream d k r s).pakTmp = s.pakTmp := rfl
@[simp] theorem openStream_rawTmp (d k r : Nat) : (openStream d k r s).rawTmp = s.rawTmp := rfl
@[simp] theorem openStream_lb (d k r : Nat) : (openStream d k r s).lb = s.lb := rfl
@[simp] theorem openStream_db (d k r : Nat) : (openStream d k r s).db = s.db := rfl
@[simp] theorem openStream_ln (d k r : Nat) : (openStream d k r s).ln = s.ln := rfl
@[simp] theorem openStream_lp (d k r : Nat) : (openStream d k r s).lp = s.lp := rfl
@[simp] theorem openStream_ip (d k r : Nat) : (openStream d k r s).ip = 0 := rfl
@[simp] theorem openStream_oc (d k r : Nat) : (openStream d k r s).oc = 0 := rfl
@[simp] theorem openStream_dk (d k r : Nat) : (openStream d k r s).dk = 8 := rfl
@[simp] theorem openStream_fl (d k r : Nat) : (openStream d k r s).fl = s.fl := rfl
@[simp] theorem openStream_decLen (d k r : Nat) : (openStream d k r s).decLen = BitVec.ofNat 24 d := rfl
@[simp] theorem openStream_streamLen (d k r : Nat) : (openStream d k r s).streamLen = BitVec.ofNat 24 k := rfl
@[simp] theorem openStream_rawLen (d k r : Nat) : (openStream d k r s).rawLen = BitVec.ofNat 24 r := rfl
@[simp] theorem openStream_warnTrunc (d k r : Nat) : (openStream d k r s).warnTrunc = false := rfl
@[simp] theorem openStream_warnClamp (d k r : Nat) : (openStream d k r s).warnClamp = false := rfl
@[simp] theorem openStream_stage (d k r : Nat) : (openStream d k r s).stage = .decodeLoop := rfl
@[simp] theorem openStream_midstep (d k r : Nat) : (openStream d k r s).midstep =
    some (.mk .decodeLoop (BitVec.ofNat 24 d) (BitVec.ofNat 24 k) (BitVec.ofNat 24 r) false false) := rfl
@[simp] theorem openStream_inputs (d k r : Nat) : (openStream d k r s).inputs = s.inputs := rfl
@[simp] theorem openStream_sched (d k r : Nat) : (openStream d k r s).sched = s.sched := rfl
@[simp] theorem openStream_rdata (d k r : Nat) : (openStream d k r s).rdata = s.rdata := rfl
@[simp] theorem openStream_srcGen (d k r : Nat) : (openStream d k r s).srcGen = s.srcGen := rfl
@[simp] theorem openStream_bufGen (d k r : Nat) : (openStream d k r s).bufGen = s.bufGen := rfl
@[simp] theorem openStream_params (d k r : Nat) : (openStream d k r s).params = s.params := rfl

/-! ## flagStep -/

@[simp] theorem flagStep_ctrl (f : Byte) : (flagStep f s).ctrl = s.ctrl := rfl
@[simp] theorem flagStep_status (f : Byte) : (flagStep f s).status = s.status := rfl
@[simp] theorem flagStep_srcLen (f : Byte) : (flagStep f s).srcLen = s.srcLen := rfl
@[simp] theorem flagStep_dstLen (f : Byte) : (flagStep f s).dstLen = s.dstLen := rfl
@[simp] theorem flagStep_expLen (f : Byte) : (flagStep f s).expLen = s.expLen := rfl
@[simp] theorem flagStep_cutPak (f : Byte) : (flagStep f s).cutPak = s.cutPak := rfl
@[simp] theorem flagStep_cutRaw (f : Byte) : (flagStep f s).cutRaw = s.cutRaw := rfl
@[simp] theorem flagStep_pakLen (f : Byte) : (flagStep f s).pakLen = s.pakLen := rfl
@[simp] theorem flagStep_src (f : Byte) : (flagStep f s).src = s.src := rfl
@[simp] theorem flagStep_dst (f : Byte) : (flagStep f s).dst = s.dst := rfl
@[simp] theorem flagStep_work (f : Byte) : (flagStep f s).work = s.work := rfl
@[simp] theorem flagStep_phase (f : Byte) : (flagStep f s).phase = s.phase := rfl
@[simp] theorem flagStep_lOp (f : Byte) : (flagStep f s).lOp = s.lOp := rfl
@[simp] theorem flagStep_lMode (f : Byte) : (flagStep f s).lMode = s.lMode := rfl
@[simp] theorem flagStep_lExpv (f : Byte) : (flagStep f s).lExpv = s.lExpv := rfl
@[simp] theorem flagStep_lLen (f : Byte) : (flagStep f s).lLen = s.lLen := rfl
@[simp] theorem flagStep_lExp (f : Byte) : (flagStep f s).lExp = s.lExp := rfl
@[simp] theorem flagStep_cur (f : Byte) : (flagStep f s).cur = s.cur := rfl
@[simp] theorem flagStep_wp (f : Byte) : (flagStep f s).wp = s.wp := rfl
@[simp] theorem flagStep_fp (f : Byte) : (flagStep f s).fp = s.fp := rfl
@[simp] theorem flagStep_gk (f : Byte) : (flagStep f s).gk = s.gk := rfl
@[simp] theorem flagStep_pakTmp (f : Byte) : (flagStep f s).pakTmp = s.pakTmp := rfl
@[simp] theorem flagStep_rawTmp (f : Byte) : (flagStep f s).rawTmp = s.rawTmp := rfl
@[simp] theorem flagStep_lb (f : Byte) : (flagStep f s).lb = s.lb := rfl
@[simp] theorem flagStep_db (f : Byte) : (flagStep f s).db = s.db := rfl
@[simp] theorem flagStep_ln (f : Byte) : (flagStep f s).ln = s.ln := rfl
@[simp] theorem flagStep_lp (f : Byte) : (flagStep f s).lp = s.lp := rfl
@[simp] theorem flagStep_ip (f : Byte) : (flagStep f s).ip = BitVec.ofNat 25 (s.ip.toNat + 1) := rfl
@[simp] theorem flagStep_oc (f : Byte) : (flagStep f s).oc = s.oc := rfl
@[simp] theorem flagStep_dk (f : Byte) : (flagStep f s).dk = 0 := rfl
@[simp] theorem flagStep_fl (f : Byte) : (flagStep f s).fl = f := rfl
@[simp] theorem flagStep_decLen (f : Byte) : (flagStep f s).decLen = s.decLen := rfl
@[simp] theorem flagStep_streamLen (f : Byte) : (flagStep f s).streamLen = s.streamLen := rfl
@[simp] theorem flagStep_rawLen (f : Byte) : (flagStep f s).rawLen = s.rawLen := rfl
@[simp] theorem flagStep_warnTrunc (f : Byte) : (flagStep f s).warnTrunc = s.warnTrunc := rfl
@[simp] theorem flagStep_warnClamp (f : Byte) : (flagStep f s).warnClamp = s.warnClamp := rfl
@[simp] theorem flagStep_stage (f : Byte) : (flagStep f s).stage = s.stage := rfl
@[simp] theorem flagStep_midstep (f : Byte) : (flagStep f s).midstep = s.midstep := rfl
@[simp] theorem flagStep_inputs (f : Byte) : (flagStep f s).inputs = s.inputs := rfl
@[simp] theorem flagStep_sched (f : Byte) : (flagStep f s).sched = s.sched := rfl
@[simp] theorem flagStep_rdata (f : Byte) : (flagStep f s).rdata = s.rdata := rfl
@[simp] theorem flagStep_srcGen (f : Byte) : (flagStep f s).srcGen = s.srcGen := rfl
@[simp] theorem flagStep_bufGen (f : Byte) : (flagStep f s).bufGen = s.bufGen := rfl
@[simp] theorem flagStep_params (f : Byte) : (flagStep f s).params = s.params := rfl

/-! ## consumeToken -/

@[simp] theorem consumeToken_ctrl (n : Nat) : (consumeToken n s).ctrl = s.ctrl := rfl
@[simp] theorem consumeToken_status (n : Nat) : (consumeToken n s).status = s.status := rfl
@[simp] theorem consumeToken_srcLen (n : Nat) : (consumeToken n s).srcLen = s.srcLen := rfl
@[simp] theorem consumeToken_dstLen (n : Nat) : (consumeToken n s).dstLen = s.dstLen := rfl
@[simp] theorem consumeToken_expLen (n : Nat) : (consumeToken n s).expLen = s.expLen := rfl
@[simp] theorem consumeToken_cutPak (n : Nat) : (consumeToken n s).cutPak = s.cutPak := rfl
@[simp] theorem consumeToken_cutRaw (n : Nat) : (consumeToken n s).cutRaw = s.cutRaw := rfl
@[simp] theorem consumeToken_pakLen (n : Nat) : (consumeToken n s).pakLen = s.pakLen := rfl
@[simp] theorem consumeToken_src (n : Nat) : (consumeToken n s).src = s.src := rfl
@[simp] theorem consumeToken_dst (n : Nat) : (consumeToken n s).dst = s.dst := rfl
@[simp] theorem consumeToken_work (n : Nat) : (consumeToken n s).work = s.work := rfl
@[simp] theorem consumeToken_phase (n : Nat) : (consumeToken n s).phase = s.phase := rfl
@[simp] theorem consumeToken_lOp (n : Nat) : (consumeToken n s).lOp = s.lOp := rfl
@[simp] theorem consumeToken_lMode (n : Nat) : (consumeToken n s).lMode = s.lMode := rfl
@[simp] theorem consumeToken_lExpv (n : Nat) : (consumeToken n s).lExpv = s.lExpv := rfl
@[simp] theorem consumeToken_lLen (n : Nat) : (consumeToken n s).lLen = s.lLen := rfl
@[simp] theorem consumeToken_lExp (n : Nat) : (consumeToken n s).lExp = s.lExp := rfl
@[simp] theorem consumeToken_cur (n : Nat) : (consumeToken n s).cur = s.cur := rfl
@[simp] theorem consumeToken_wp (n : Nat) : (consumeToken n s).wp = s.wp := rfl
@[simp] theorem consumeToken_fp (n : Nat) : (consumeToken n s).fp = s.fp := rfl
@[simp] theorem consumeToken_gk (n : Nat) : (consumeToken n s).gk = s.gk := rfl
@[simp] theorem consumeToken_pakTmp (n : Nat) : (consumeToken n s).pakTmp = s.pakTmp := rfl
@[simp] theorem consumeToken_rawTmp (n : Nat) : (consumeToken n s).rawTmp = s.rawTmp := rfl
@[simp] theorem consumeToken_lb (n : Nat) : (consumeToken n s).lb = s.lb := rfl
@[simp] theorem consumeToken_db (n : Nat) : (consumeToken n s).db = s.db := rfl
@[simp] theorem consumeToken_ln (n : Nat) : (consumeToken n s).ln = s.ln := rfl
@[simp] theorem consumeToken_lp (n : Nat) : (consumeToken n s).lp = s.lp := rfl
@[simp] theorem consumeToken_ip (n : Nat) : (consumeToken n s).ip = BitVec.ofNat 25 (s.ip.toNat + n) := rfl
@[simp] theorem consumeToken_oc (n : Nat) : (consumeToken n s).oc = s.oc := rfl
@[simp] theorem consumeToken_dk (n : Nat) : (consumeToken n s).dk = BitVec.ofNat 4 (s.dk.toNat + 1) := rfl
@[simp] theorem consumeToken_fl (n : Nat) : (consumeToken n s).fl = s.fl := rfl
@[simp] theorem consumeToken_decLen (n : Nat) : (consumeToken n s).decLen = s.decLen := rfl
@[simp] theorem consumeToken_streamLen (n : Nat) : (consumeToken n s).streamLen = s.streamLen := rfl
@[simp] theorem consumeToken_rawLen (n : Nat) : (consumeToken n s).rawLen = s.rawLen := rfl
@[simp] theorem consumeToken_warnTrunc (n : Nat) : (consumeToken n s).warnTrunc = s.warnTrunc := rfl
@[simp] theorem consumeToken_warnClamp (n : Nat) : (consumeToken n s).warnClamp = s.warnClamp := rfl
@[simp] theorem consumeToken_stage (n : Nat) : (consumeToken n s).stage = s.stage := rfl
@[simp] theorem consumeToken_midstep (n : Nat) : (consumeToken n s).midstep = s.midstep := rfl
@[simp] theorem consumeToken_inputs (n : Nat) : (consumeToken n s).inputs = s.inputs := rfl
@[simp] theorem consumeToken_sched (n : Nat) : (consumeToken n s).sched = s.sched := rfl
@[simp] theorem consumeToken_rdata (n : Nat) : (consumeToken n s).rdata = s.rdata := rfl
@[simp] theorem consumeToken_srcGen (n : Nat) : (consumeToken n s).srcGen = s.srcGen := rfl
@[simp] theorem consumeToken_bufGen (n : Nat) : (consumeToken n s).bufGen = s.bufGen := rfl
@[simp] theorem consumeToken_params (n : Nat) : (consumeToken n s).params = s.params := rfl

/-! ## copyByte -/

@[simp] theorem copyByte_ctrl (d : Nat) : (copyByte d s).ctrl = s.ctrl := rfl
@[simp] theorem copyByte_status (d : Nat) : (copyByte d s).status = s.status := rfl
@[simp] theorem copyByte_srcLen (d : Nat) : (copyByte d s).srcLen = s.srcLen := rfl
@[simp] theorem copyByte_dstLen (d : Nat) : (copyByte d s).dstLen = s.dstLen := rfl
@[simp] theorem copyByte_expLen (d : Nat) : (copyByte d s).expLen = s.expLen := rfl
@[simp] theorem copyByte_cutPak (d : Nat) : (copyByte d s).cutPak = s.cutPak := rfl
@[simp] theorem copyByte_cutRaw (d : Nat) : (copyByte d s).cutRaw = s.cutRaw := rfl
@[simp] theorem copyByte_pakLen (d : Nat) : (copyByte d s).pakLen = s.pakLen := rfl
@[simp] theorem copyByte_src (d : Nat) : (copyByte d s).src = s.src := rfl
@[simp] theorem copyByte_dst (d : Nat) : (copyByte d s).dst = s.dst := rfl
@[simp] theorem copyByte_work (d : Nat) : (copyByte d s).work = Memory.set s.work s.oc.toNat (s.workByte (s.oc.toNat - d)) := rfl
@[simp] theorem copyByte_phase (d : Nat) : (copyByte d s).phase = s.phase := rfl
@[simp] theorem copyByte_lOp (d : Nat) : (copyByte d s).lOp = s.lOp := rfl
@[simp] theorem copyByte_lMode (d : Nat) : (copyByte d s).lMode = s.lMode := rfl
@[simp] theorem copyByte_lExpv (d : Nat) : (copyByte d s).lExpv = s.lExpv := rfl
@[simp] theorem copyByte_lLen (d : Nat) : (copyByte d s).lLen = s.lLen := rfl
@[simp] theorem copyByte_lExp (d : Nat) : (copyByte d s).lExp = s.lExp := rfl
@[simp] theorem copyByte_cur (d : Nat) : (copyByte d s).cur = s.cur := rfl
@[simp] theorem copyByte_wp (d : Nat) : (copyByte d s).wp = s.wp := rfl
@[simp] theorem copyByte_fp (d : Nat) : (copyByte d s).fp = s.fp := rfl
@[simp] theorem copyByte_gk (d : Nat) : (copyByte d s).gk = s.gk := rfl
@[simp] theorem copyByte_pakTmp (d : Nat) : (copyByte d s).pakTmp = s.pakTmp := rfl
@[simp] theorem copyByte_rawTmp (d : Nat) : (copyByte d s).rawTmp = s.rawTmp := rfl
@[simp] theorem copyByte_lb (d : Nat) : (copyByte d s).lb = s.lb := rfl
@[simp] theorem copyByte_db (d : Nat) : (copyByte d s).db = s.db := rfl
@[simp] theorem copyByte_ln (d : Nat) : (copyByte d s).ln = s.ln := rfl
@[simp] theorem copyByte_lp (d : Nat) : (copyByte d s).lp = s.lp := rfl
@[simp] theorem copyByte_ip (d : Nat) : (copyByte d s).ip = s.ip := rfl
@[simp] theorem copyByte_oc (d : Nat) : (copyByte d s).oc = BitVec.ofNat 24 (s.oc.toNat + 1) := rfl
@[simp] theorem copyByte_dk (d : Nat) : (copyByte d s).dk = s.dk := rfl
@[simp] theorem copyByte_fl (d : Nat) : (copyByte d s).fl = s.fl := rfl
@[simp] theorem copyByte_decLen (d : Nat) : (copyByte d s).decLen = s.decLen := rfl
@[simp] theorem copyByte_streamLen (d : Nat) : (copyByte d s).streamLen = s.streamLen := rfl
@[simp] theorem copyByte_rawLen (d : Nat) : (copyByte d s).rawLen = s.rawLen := rfl
@[simp] theorem copyByte_warnTrunc (d : Nat) : (copyByte d s).warnTrunc = s.warnTrunc := rfl
@[simp] theorem copyByte_warnClamp (d : Nat) : (copyByte d s).warnClamp = s.warnClamp := rfl
@[simp] theorem copyByte_stage (d : Nat) : (copyByte d s).stage = s.stage := rfl
@[simp] theorem copyByte_midstep (d : Nat) : (copyByte d s).midstep = s.midstep := rfl
@[simp] theorem copyByte_inputs (d : Nat) : (copyByte d s).inputs = s.inputs := rfl
@[simp] theorem copyByte_sched (d : Nat) : (copyByte d s).sched = s.sched := rfl
@[simp] theorem copyByte_rdata (d : Nat) : (copyByte d s).rdata = s.rdata := rfl
@[simp] theorem copyByte_srcGen (d : Nat) : (copyByte d s).srcGen = s.srcGen := rfl
@[simp] theorem copyByte_bufGen (d : Nat) : (copyByte d s).bufGen = s.bufGen := rfl
@[simp] theorem copyByte_params (d : Nat) : (copyByte d s).params = s.params := rfl

/-! ## truncate -/

@[simp] theorem truncate_ctrl : (truncate s).ctrl = s.ctrl := rfl
@[simp] theorem truncate_status : (truncate s).status = s.status := rfl
@[simp] theorem truncate_srcLen : (truncate s).srcLen = s.srcLen := rfl
@[simp] theorem truncate_dstLen : (truncate s).dstLen = s.dstLen := rfl
@[simp] theorem truncate_expLen : (truncate s).expLen = s.expLen := rfl
@[simp] theorem truncate_cutPak : (truncate s).cutPak = s.cutPak := rfl
@[simp] theorem truncate_cutRaw : (truncate s).cutRaw = s.cutRaw := rfl
@[simp] theorem truncate_pakLen : (truncate s).pakLen = s.pakLen := rfl
@[simp] theorem truncate_src : (truncate s).src = s.src := rfl
@[simp] theorem truncate_dst : (truncate s).dst = s.dst := rfl
@[simp] theorem truncate_work : (truncate s).work = s.work := rfl
@[simp] theorem truncate_phase : (truncate s).phase = s.phase := rfl
@[simp] theorem truncate_lOp : (truncate s).lOp = s.lOp := rfl
@[simp] theorem truncate_lMode : (truncate s).lMode = s.lMode := rfl
@[simp] theorem truncate_lExpv : (truncate s).lExpv = s.lExpv := rfl
@[simp] theorem truncate_lLen : (truncate s).lLen = s.lLen := rfl
@[simp] theorem truncate_lExp : (truncate s).lExp = s.lExp := rfl
@[simp] theorem truncate_cur : (truncate s).cur = s.cur := rfl
@[simp] theorem truncate_wp : (truncate s).wp = s.wp := rfl
@[simp] theorem truncate_fp : (truncate s).fp = s.fp := rfl
@[simp] theorem truncate_gk : (truncate s).gk = s.gk := rfl
@[simp] theorem truncate_pakTmp : (truncate s).pakTmp = s.pakTmp := rfl
@[simp] theorem truncate_rawTmp : (truncate s).rawTmp = s.rawTmp := rfl
@[simp] theorem truncate_lb : (truncate s).lb = s.lb := rfl
@[simp] theorem truncate_db : (truncate s).db = s.db := rfl
@[simp] theorem truncate_ln : (truncate s).ln = s.ln := rfl
@[simp] theorem truncate_lp : (truncate s).lp = s.lp := rfl
@[simp] theorem truncate_ip : (truncate s).ip = s.ip := rfl
@[simp] theorem truncate_oc : (truncate s).oc = s.oc := rfl
@[simp] theorem truncate_dk :
    (truncate s).dk = if s.dk = 8 then s.dk else BitVec.ofNat 4 (s.dk.toNat + 1) := rfl
@[simp] theorem truncate_fl : (truncate s).fl = s.fl := rfl
@[simp] theorem truncate_decLen : (truncate s).decLen = s.decLen := rfl
@[simp] theorem truncate_streamLen : (truncate s).streamLen = s.streamLen := rfl
@[simp] theorem truncate_rawLen : (truncate s).rawLen = s.rawLen := rfl
@[simp] theorem truncate_warnTrunc : (truncate s).warnTrunc = true := rfl
@[simp] theorem truncate_warnClamp : (truncate s).warnClamp = s.warnClamp := rfl
@[simp] theorem truncate_stage : (truncate s).stage = .decodeEnd := rfl
@[simp] theorem truncate_midstep : (truncate s).midstep =
    some { s.progress with stage := .decodeEnd, warnTrunc := true } := rfl
@[simp] theorem truncate_inputs : (truncate s).inputs = s.inputs := rfl
@[simp] theorem truncate_sched : (truncate s).sched = s.sched := rfl
@[simp] theorem truncate_rdata : (truncate s).rdata = s.rdata := rfl
@[simp] theorem truncate_srcGen : (truncate s).srcGen = s.srcGen := rfl
@[simp] theorem truncate_bufGen : (truncate s).bufGen = s.bufGen := rfl
@[simp] theorem truncate_params : (truncate s).params = s.params := rfl

/-! ## clampWarn -/

@[simp] theorem clampWarn_ctrl : (clampWarn s).ctrl = s.ctrl := rfl
@[simp] theorem clampWarn_status : (clampWarn s).status = s.status := rfl
@[simp] theorem clampWarn_srcLen : (clampWarn s).srcLen = s.srcLen := rfl
@[simp] theorem clampWarn_dstLen : (clampWarn s).dstLen = s.dstLen := rfl
@[simp] theorem clampWarn_expLen : (clampWarn s).expLen = s.expLen := rfl
@[simp] theorem clampWarn_cutPak : (clampWarn s).cutPak = s.cutPak := rfl
@[simp] theorem clampWarn_cutRaw : (clampWarn s).cutRaw = s.cutRaw := rfl
@[simp] theorem clampWarn_pakLen : (clampWarn s).pakLen = s.pakLen := rfl
@[simp] theorem clampWarn_src : (clampWarn s).src = s.src := rfl
@[simp] theorem clampWarn_dst : (clampWarn s).dst = s.dst := rfl
@[simp] theorem clampWarn_work : (clampWarn s).work = s.work := rfl
@[simp] theorem clampWarn_phase : (clampWarn s).phase = s.phase := rfl
@[simp] theorem clampWarn_lOp : (clampWarn s).lOp = s.lOp := rfl
@[simp] theorem clampWarn_lMode : (clampWarn s).lMode = s.lMode := rfl
@[simp] theorem clampWarn_lExpv : (clampWarn s).lExpv = s.lExpv := rfl
@[simp] theorem clampWarn_lLen : (clampWarn s).lLen = s.lLen := rfl
@[simp] theorem clampWarn_lExp : (clampWarn s).lExp = s.lExp := rfl
@[simp] theorem clampWarn_cur : (clampWarn s).cur = s.cur := rfl
@[simp] theorem clampWarn_wp : (clampWarn s).wp = s.wp := rfl
@[simp] theorem clampWarn_fp : (clampWarn s).fp = s.fp := rfl
@[simp] theorem clampWarn_gk : (clampWarn s).gk = s.gk := rfl
@[simp] theorem clampWarn_pakTmp : (clampWarn s).pakTmp = s.pakTmp := rfl
@[simp] theorem clampWarn_rawTmp : (clampWarn s).rawTmp = s.rawTmp := rfl
@[simp] theorem clampWarn_lb : (clampWarn s).lb = s.lb := rfl
@[simp] theorem clampWarn_db : (clampWarn s).db = s.db := rfl
@[simp] theorem clampWarn_ln : (clampWarn s).ln = s.ln := rfl
@[simp] theorem clampWarn_lp : (clampWarn s).lp = s.lp := rfl
@[simp] theorem clampWarn_ip : (clampWarn s).ip = s.ip := rfl
@[simp] theorem clampWarn_oc : (clampWarn s).oc = s.oc := rfl
@[simp] theorem clampWarn_dk : (clampWarn s).dk = s.dk := rfl
@[simp] theorem clampWarn_fl : (clampWarn s).fl = s.fl := rfl
@[simp] theorem clampWarn_decLen : (clampWarn s).decLen = s.decLen := rfl
@[simp] theorem clampWarn_streamLen : (clampWarn s).streamLen = s.streamLen := rfl
@[simp] theorem clampWarn_rawLen : (clampWarn s).rawLen = s.rawLen := rfl
@[simp] theorem clampWarn_warnTrunc : (clampWarn s).warnTrunc = s.warnTrunc := rfl
@[simp] theorem clampWarn_warnClamp : (clampWarn s).warnClamp = true := rfl
@[simp] theorem clampWarn_stage : (clampWarn s).stage = s.stage := rfl
@[simp] theorem clampWarn_inputs : (clampWarn s).inputs = s.inputs := rfl
@[simp] theorem clampWarn_sched : (clampWarn s).sched = s.sched := rfl
@[simp] theorem clampWarn_rdata : (clampWarn s).rdata = s.rdata := rfl
@[simp] theorem clampWarn_srcGen : (clampWarn s).srcGen = s.srcGen := rfl
@[simp] theorem clampWarn_bufGen : (clampWarn s).bufGen = s.bufGen := rfl
@[simp] theorem clampWarn_params : (clampWarn s).params = s.params := rfl
@[simp] theorem clampWarn_midstep : (clampWarn s).midstep = some { s.progress with warnClamp := true } := rfl

/-! ## flagPad -/

@[simp] theorem flagPad_ctrl : (flagPad s).ctrl = s.ctrl := by unfold flagPad; split <;> rfl
@[simp] theorem flagPad_status : (flagPad s).status = s.status := by unfold flagPad; split <;> rfl
@[simp] theorem flagPad_srcLen : (flagPad s).srcLen = s.srcLen := by unfold flagPad; split <;> rfl
@[simp] theorem flagPad_dstLen : (flagPad s).dstLen = s.dstLen := by unfold flagPad; split <;> rfl
@[simp] theorem flagPad_expLen : (flagPad s).expLen = s.expLen := by unfold flagPad; split <;> rfl
@[simp] theorem flagPad_cutPak : (flagPad s).cutPak = s.cutPak := by unfold flagPad; split <;> rfl
@[simp] theorem flagPad_cutRaw : (flagPad s).cutRaw = s.cutRaw := by unfold flagPad; split <;> rfl
@[simp] theorem flagPad_pakLen : (flagPad s).pakLen = s.pakLen := by unfold flagPad; split <;> rfl
@[simp] theorem flagPad_src : (flagPad s).src = s.src := by unfold flagPad; split <;> rfl
@[simp] theorem flagPad_dst : (flagPad s).dst = s.dst := by unfold flagPad; split <;> rfl
@[simp] theorem flagPad_phase : (flagPad s).phase = s.phase := by unfold flagPad; split <;> rfl
@[simp] theorem flagPad_lOp : (flagPad s).lOp = s.lOp := by unfold flagPad; split <;> rfl
@[simp] theorem flagPad_lMode : (flagPad s).lMode = s.lMode := by unfold flagPad; split <;> rfl
@[simp] theorem flagPad_lExpv : (flagPad s).lExpv = s.lExpv := by unfold flagPad; split <;> rfl
@[simp] theorem flagPad_lLen : (flagPad s).lLen = s.lLen := by unfold flagPad; split <;> rfl
@[simp] theorem flagPad_lExp : (flagPad s).lExp = s.lExp := by unfold flagPad; split <;> rfl
@[simp] theorem flagPad_cur : (flagPad s).cur = s.cur := by unfold flagPad; split <;> rfl
@[simp] theorem flagPad_wp : (flagPad s).wp = s.wp := by unfold flagPad; split <;> rfl
@[simp] theorem flagPad_fp : (flagPad s).fp = s.fp := by unfold flagPad; split <;> rfl
@[simp] theorem flagPad_gk : (flagPad s).gk = s.gk := by unfold flagPad; split <;> rfl
@[simp] theorem flagPad_pakTmp : (flagPad s).pakTmp = s.pakTmp := by unfold flagPad; split <;> rfl
@[simp] theorem flagPad_rawTmp : (flagPad s).rawTmp = s.rawTmp := by unfold flagPad; split <;> rfl
@[simp] theorem flagPad_lb : (flagPad s).lb = s.lb := by unfold flagPad; split <;> rfl
@[simp] theorem flagPad_db : (flagPad s).db = s.db := by unfold flagPad; split <;> rfl
@[simp] theorem flagPad_ln : (flagPad s).ln = s.ln := by unfold flagPad; split <;> rfl
@[simp] theorem flagPad_lp : (flagPad s).lp = s.lp := by unfold flagPad; split <;> rfl
@[simp] theorem flagPad_ip : (flagPad s).ip = s.ip := by unfold flagPad; split <;> rfl
@[simp] theorem flagPad_oc : (flagPad s).oc = s.oc := by unfold flagPad; split <;> rfl
@[simp] theorem flagPad_dk : (flagPad s).dk = s.dk := by unfold flagPad; split <;> rfl
@[simp] theorem flagPad_fl : (flagPad s).fl = s.fl := by unfold flagPad; split <;> rfl
@[simp] theorem flagPad_decLen : (flagPad s).decLen = s.decLen := by unfold flagPad; split <;> rfl
@[simp] theorem flagPad_streamLen : (flagPad s).streamLen = s.streamLen := by unfold flagPad; split <;> rfl
@[simp] theorem flagPad_rawLen : (flagPad s).rawLen = s.rawLen := by unfold flagPad; split <;> rfl
@[simp] theorem flagPad_warnTrunc : (flagPad s).warnTrunc = s.warnTrunc := by unfold flagPad; split <;> rfl
@[simp] theorem flagPad_warnClamp : (flagPad s).warnClamp = s.warnClamp := by unfold flagPad; split <;> rfl
@[simp] theorem flagPad_stage : (flagPad s).stage = s.stage := by unfold flagPad; split <;> rfl
@[simp] theorem flagPad_midstep : (flagPad s).midstep = s.midstep := by unfold flagPad; split <;> rfl
@[simp] theorem flagPad_inputs : (flagPad s).inputs = s.inputs := by unfold flagPad; split <;> rfl
@[simp] theorem flagPad_sched : (flagPad s).sched = s.sched := by unfold flagPad; split <;> rfl
@[simp] theorem flagPad_rdata : (flagPad s).rdata = s.rdata := by unfold flagPad; split <;> rfl
@[simp] theorem flagPad_srcGen : (flagPad s).srcGen = s.srcGen := by unfold flagPad; split <;> rfl
@[simp] theorem flagPad_bufGen : (flagPad s).bufGen = s.bufGen := by unfold flagPad; split <;> rfl
@[simp] theorem flagPad_params : (flagPad s).params = s.params := by unfold flagPad; split <;> rfl

/-! ## cutTrack -/

@[simp] theorem cutTrack_ctrl : (cutTrack s).ctrl = s.ctrl := by unfold cutTrack; split <;> rfl
@[simp] theorem cutTrack_status : (cutTrack s).status = s.status := by unfold cutTrack; split <;> rfl
@[simp] theorem cutTrack_srcLen : (cutTrack s).srcLen = s.srcLen := by unfold cutTrack; split <;> rfl
@[simp] theorem cutTrack_dstLen : (cutTrack s).dstLen = s.dstLen := by unfold cutTrack; split <;> rfl
@[simp] theorem cutTrack_expLen : (cutTrack s).expLen = s.expLen := by unfold cutTrack; split <;> rfl
@[simp] theorem cutTrack_cutPak : (cutTrack s).cutPak = s.cutPak := by unfold cutTrack; split <;> rfl
@[simp] theorem cutTrack_cutRaw : (cutTrack s).cutRaw = s.cutRaw := by unfold cutTrack; split <;> rfl
@[simp] theorem cutTrack_pakLen : (cutTrack s).pakLen = s.pakLen := by unfold cutTrack; split <;> rfl
@[simp] theorem cutTrack_src : (cutTrack s).src = s.src := by unfold cutTrack; split <;> rfl
@[simp] theorem cutTrack_dst : (cutTrack s).dst = s.dst := by unfold cutTrack; split <;> rfl
@[simp] theorem cutTrack_work : (cutTrack s).work = s.work := by unfold cutTrack; split <;> rfl
@[simp] theorem cutTrack_phase : (cutTrack s).phase = s.phase := by unfold cutTrack; split <;> rfl
@[simp] theorem cutTrack_lOp : (cutTrack s).lOp = s.lOp := by unfold cutTrack; split <;> rfl
@[simp] theorem cutTrack_lMode : (cutTrack s).lMode = s.lMode := by unfold cutTrack; split <;> rfl
@[simp] theorem cutTrack_lExpv : (cutTrack s).lExpv = s.lExpv := by unfold cutTrack; split <;> rfl
@[simp] theorem cutTrack_lLen : (cutTrack s).lLen = s.lLen := by unfold cutTrack; split <;> rfl
@[simp] theorem cutTrack_lExp : (cutTrack s).lExp = s.lExp := by unfold cutTrack; split <;> rfl
@[simp] theorem cutTrack_cur : (cutTrack s).cur = s.cur := by unfold cutTrack; split <;> rfl
@[simp] theorem cutTrack_wp : (cutTrack s).wp = s.wp := by unfold cutTrack; split <;> rfl
@[simp] theorem cutTrack_fp : (cutTrack s).fp = s.fp := by unfold cutTrack; split <;> rfl
@[simp] theorem cutTrack_gk : (cutTrack s).gk = s.gk := by unfold cutTrack; split <;> rfl
@[simp] theorem cutTrack_lb : (cutTrack s).lb = s.lb := by unfold cutTrack; split <;> rfl
@[simp] theorem cutTrack_db : (cutTrack s).db = s.db := by unfold cutTrack; split <;> rfl
@[simp] theorem cutTrack_ln : (cutTrack s).ln = s.ln := by unfold cutTrack; split <;> rfl
@[simp] theorem cutTrack_lp : (cutTrack s).lp = s.lp := by unfold cutTrack; split <;> rfl
@[simp] theorem cutTrack_ip : (cutTrack s).ip = s.ip := by unfold cutTrack; split <;> rfl
@[simp] theorem cutTrack_oc : (cutTrack s).oc = s.oc := by unfold cutTrack; split <;> rfl
@[simp] theorem cutTrack_dk : (cutTrack s).dk = s.dk := by unfold cutTrack; split <;> rfl
@[simp] theorem cutTrack_fl : (cutTrack s).fl = s.fl := by unfold cutTrack; split <;> rfl
@[simp] theorem cutTrack_decLen : (cutTrack s).decLen = s.decLen := by unfold cutTrack; split <;> rfl
@[simp] theorem cutTrack_streamLen : (cutTrack s).streamLen = s.streamLen := by unfold cutTrack; split <;> rfl
@[simp] theorem cutTrack_rawLen : (cutTrack s).rawLen = s.rawLen := by unfold cutTrack; split <;> rfl
@[simp] theorem cutTrack_warnTrunc : (cutTrack s).warnTrunc = s.warnTrunc := by unfold cutTrack; split <;> rfl
@[simp] theorem cutTrack_warnClamp : (cutTrack s).warnClamp = s.warnClamp := by unfold cutTrack; split <;> rfl
@[simp] theorem cutTrack_stage : (cutTrack s).stage = s.stage := by unfold cutTrack; split <;> rfl
@[simp] theorem cutTrack_midstep : (cutTrack s).midstep = s.midstep := by unfold cutTrack; split <;> rfl
@[simp] theorem cutTrack_inputs : (cutTrack s).inputs = s.inputs := by unfold cutTrack; split <;> rfl
@[simp] theorem cutTrack_sched : (cutTrack s).sched = s.sched := by unfold cutTrack; split <;> rfl
@[simp] theorem cutTrack_rdata : (cutTrack s).rdata = s.rdata := by unfold cutTrack; split <;> rfl
@[simp] theorem cutTrack_srcGen : (cutTrack s).srcGen = s.srcGen := by unfold cutTrack; split <;> rfl
@[simp] theorem cutTrack_bufGen : (cutTrack s).bufGen = s.bufGen := by unfold cutTrack; split <;> rfl
@[simp] theorem cutTrack_params : (cutTrack s).params = s.params := by unfold cutTrack; split <;> rfl

end Sys2Proof.Machine
end

