-- ==== Sys2Proof/Laws/Engine.lean ====
section
/-! SUPPORT. What the shared operations of the engine, the bus and the fetch can do, said once, so that later proofs cite
it and do not unfold them. -/

namespace Sys2Proof.Machine

/-! ## exec, arm by arm -/

@[simp] theorem exec_lit (b : Byte) (s : State) : exec (.lit b) s = .next (litEffect b s) := rfl
@[simp] theorem exec_matchToken (l d : Nat) (s : State) : exec (.matchToken l d) s = .next (matchEffect l d s) := rfl
@[simp] theorem exec_flag (f : Byte) (s : State) : exec (.flag f) s = .next (flagEffect f s) := rfl
@[simp] theorem exec_trailerStored (s : State) : exec .trailerStored s = .next (trailerStoredEffect s) := rfl
@[simp] theorem exec_trailerCompressed (e : BitVec 24) (h : Byte) (i : Word) (s : State) :
    exec (.trailerCompressed e h i) s = .next (trailerCompressedEffect e h i s) := rfl

/-- Every command word is run by the shared two transitions of 45_commands R242. -/
theorem exec_commandOf (op : BitVec 2) (m e : Bool) (s : State) : exec (commandOf op m e) s = command op m e s := by
  unfold commandOf
  split
  · next h => subst h; cases m <;> rfl
  · split
    · next h => subst h; rfl
    · split
      · next h => subst h; rfl
      · next h0 h1 h2 =>
        have h3 : op = 3 := by
          have hlt := op.isLt
          have n0 : op.toNat ≠ 0 := fun h => h0 (BitVec.eq_of_toNat_eq h)
          have n1 : op.toNat ≠ 1 := fun h => h1 (BitVec.eq_of_toNat_eq h)
          have n2 : op.toNat ≠ 2 := fun h => h2 (BitVec.eq_of_toNat_eq h)
          exact BitVec.eq_of_toNat_eq (show op.toNat = 3 by omega)
        subst h3
        rfl

/-- The two transitions of a command. -/
theorem command_idle {s : State} (h : s.phase = .idle) (op : BitVec 2) (m e : Bool) :
    command op m e s = .next (start op m e s) := by simp [command, h]

theorem command_run {s : State} (h : s.phase = .run) (op : BitVec 2) (m e : Bool) :
    command op m e s = ended (runCommand (withCommand op m e s)) := by simp [command, h]

theorem ended_idle {s : State} (h : s.phase = .idle) : ended s = .next s := by simp [ended, h]

/-- Where the completion answers a next state, that state is the end of the run and the engine is idle. -/
theorem ended_next {s t : State} (h : ended s = .next t) : t = s ∧ s.phase = .idle := by
  unfold ended at h
  split at h
  · next hp => exact ⟨by injection h with h; exact h.symm, hp⟩
  · cases h

/-- The latches of a matched state are the command's already. -/
theorem withCommand_self (s : State) : withCommand s.lOp s.lMode s.lExpv s = s := rfl

/-! ## The run of a command -/

@[simp] theorem runOps_zero (s : State) : runOps 0 s = s := rfl

theorem runOps_idle {s : State} (h : s.phase = .idle) (k : Nat) : runOps k s = s := by
  cases k with
  | zero => rfl
  | succ k => simp [runOps, h]

theorem runOps_run {s : State} (h : s.phase = .run) (k : Nat) : runOps (k + 1) s = runOps k (engineOp s) := by
  simp [runOps, h]

/-- A property that every internal operation keeps holds after any run. -/
theorem runOps_induction {P : State → Prop} (hstep : ∀ s, s.phase = .run → P s → P (engineOp s)) (k : Nat)
    (s : State) (h : P s) : P (runOps k s) := by
  induction k generalizing s with
  | zero => exact h
  | succ k ih =>
    cases hp : s.phase with
    | idle => rw [runOps_idle hp]; exact h
    | run => rw [runOps_run hp]; exact ih _ (hstep s hp h)

/-- A run with a measure that every operation lowers while the command runs ends within the measure. -/
theorem runOps_ends {P : State → Prop} (μ : State → Nat) (hkeep : ∀ s, s.phase = .run → P s → P (engineOp s))
    (hμ : ∀ s, s.phase = .run → P s → (engineOp s).phase = .run → μ (engineOp s) < μ s)
    (hpos : ∀ s, s.phase = .run → P s → 0 < μ s) (k : Nat) (s : State) (h : P s) (hk : μ s ≤ k) :
    (runOps k s).phase = .idle := by
  induction k generalizing s with
  | zero =>
    cases hp : s.phase with
    | idle => exact hp
    | run => exact absurd (hpos s hp h) (by omega)
  | succ k ih =>
    cases hp : s.phase with
    | idle => rw [runOps_idle hp]; exact hp
    | run =>
      rw [runOps_run hp]
      cases hq : (engineOp s).phase with
      | idle => rw [runOps_idle hq]; exact hq
      | run => exact ih _ (hkeep s hp h) (by have := hμ s hp h hq; omega)

/-- An internal operation is a fetched instruction of the stream or the frame, or one of the listed operations
between them. -/
theorem engineOp_cases (s : State) :
    (∃ i, fetchInstr s = some i ∧ engineOp s = streamEffect i s) ∨
    (fetchInstr s = none ∧ engineOp s = internalOp s) := by
  unfold engineOp
  cases fetchInstr s with
  | some i => exact .inl ⟨i, rfl, rfl⟩
  | none => exact .inr ⟨rfl, rfl⟩

/-- What `internalOp` can be. -/
theorem internalOp_cases (s : State) :
    (s.stage = .dispatch ∧ s.lOp = 0 ∧ internalOp s = encodeBegin s) ∨
    (s.stage = .dispatch ∧ s.lOp = 1 ∧
      ((∃ e, fetchTrailer s = .error e ∧ internalOp s = raise e s) ∨
        ∃ i, fetchTrailer s = .ok i ∧ internalOp s = s)) ∨
    (s.stage = .dispatch ∧ s.lOp ≠ 0 ∧ s.lOp ≠ 1 ∧ internalOp s = raise .badCommand s) ∨
    (s.stage = .encodeLoop ∧ s.cur.toNat < s.lLen.toNat ∧ internalOp s = tokenStep s) ∨
    (s.stage = .encodeLoop ∧ s.lLen.toNat ≤ s.cur.toNat ∧ internalOp s = encodeFinish s) ∨
    (s.stage = .decodeLoop ∧ s.oc.toNat < s.want ∧ internalOp s = truncate s) ∨
    (s.stage = .decodeLoop ∧ s.want ≤ s.oc.toNat ∧ internalOp s = decodeFinish s) ∨
    (s.stage = .decodeEnd ∧ internalOp s = decodeFinish s) := by
  cases hst : s.stage with
  | dispatch =>
    by_cases h0 : s.lOp = 0
    · left; simp [internalOp, hst, h0]
    · by_cases h1 : s.lOp = 1
      · right; left
        cases ht : fetchTrailer s with
        | error e => simp [internalOp, hst, h1, ht]
        | ok i => simp [internalOp, hst, h1, ht]
      · right; right; left
        refine ⟨rfl, h0, h1, ?_⟩
        unfold internalOp
        rw [hst]
        simp only [if_neg h0, if_neg h1]
  | encodeLoop =>
    by_cases h : s.cur.toNat < s.lLen.toNat
    · right; right; right; left; simp [internalOp, hst, h]
    · right; right; right; right; left; simp [internalOp, hst, h]; omega
  | decodeLoop =>
    by_cases h : s.oc.toNat < s.want
    · right; right; right; right; right; left; simp [internalOp, hst, h]
    · right; right; right; right; right; right; left; simp [internalOp, hst, h]; omega
  | decodeEnd => right; right; right; right; right; right; right; simp [internalOp, hst]

/-- A fetched instruction is a token or a trailer, and its effect is what exec answers. -/
theorem exec_of_fetchToken_shape (i : Instr) (s : State)
    (h : (∃ b, i = .lit b) ∨ (∃ l d, i = .matchToken l d) ∨ (∃ f, i = .flag f) ∨ i = .trailerStored ∨
      ∃ e h c, i = .trailerCompressed e h c) : exec i s = .next (streamEffect i s) := by
  rcases h with ⟨b, rfl⟩ | ⟨l, d, rfl⟩ | ⟨f, rfl⟩ | rfl | ⟨e, h, c, rfl⟩ <;> rfl

/-- The token decoder reads tokens only. -/
theorem decodeToken_shape {f : Bool} {bs : List Byte} {i : Instr} (h : (decodeToken f bs).toOption = some i) :
    (∃ b, i = .lit b) ∨ ∃ l d, i = .matchToken l d := by
  unfold decodeToken at h
  split at h
  · simp [Except.toOption] at h; exact .inl ⟨_, h.symm⟩
  · simp [Except.toOption] at h; exact .inr ⟨_, _, h.symm⟩
  · simp [Except.toOption] at h

/-- The trailer decoder reads trailers only. -/
theorem decodeTrailer_shape {bs : List Byte} {i : Instr} (h : decodeTrailer bs = .ok i) :
    i = .trailerStored ∨ ∃ e h c, i = .trailerCompressed e h c := by
  unfold decodeTrailer at h
  simp only at h
  split at h
  · cases h
  · split at h
    · cases h; exact .inl rfl
    · split at h
      · cases h
      · cases h; exact .inr ⟨_, _, _, rfl⟩

/-- What DECODE fetches is a token or a trailer, never a command word. -/
theorem fetchInstr_shape {s : State} {i : Instr} (h : fetchInstr s = some i) :
    (∃ b, i = .lit b) ∨ (∃ l d, i = .matchToken l d) ∨ (∃ f, i = .flag f) ∨ i = .trailerStored ∨
      ∃ e h c, i = .trailerCompressed e h c := by
  unfold fetchInstr at h
  split at h
  · split at h
    · unfold fetchTrailer at h
      simp only at h
      split at h
      · simp [Except.toOption] at h
      · split at h
        · next j hj =>
          simp [Except.toOption] at h
          subst h
          rcases decodeTrailer_shape hj with h | h
          · exact .inr (.inr (.inr (.inl h)))
          · exact .inr (.inr (.inr (.inr h)))
        · simp [Except.toOption] at h
    · cases h
  · cases h
  · unfold fetchToken at h
    split at h
    · split at h
      · simp only [Option.map_eq_some_iff] at h
        obtain ⟨b, -, rfl⟩ := h
        exact .inr (.inr (.inl ⟨b, rfl⟩))
      · rcases decodeToken_shape h with h | h
        · exact .inl h
        · exact .inr (.inl h)
    · cases h
  · cases h

/-! ## The bus -/

/-- The address map (20_memory R60), one lemma a window. -/
theorem windowOf_reg (p : Params) {o : Nat} (h : o < 0x100) : windowOf p (p.regBase + o) = .reg o := by
  simp [windowOf, h]

theorem windowOf_src (p : Params) {i : Nat} (h : i < 0x2000000) : windowOf p (p.regBase + 0x2000000 + i) = .src i := by
  have e : p.regBase + 0x2000000 + i - p.regBase = 0x2000000 + i := by omega
  unfold windowOf
  rw [if_neg (by omega)]
  simp only [e]
  rw [if_neg (by omega), if_pos (by omega), Nat.add_sub_cancel_left]

theorem windowOf_dst (p : Params) {i : Nat} (h : i < 0x2000000) : windowOf p (p.regBase + 0x4000000 + i) = .dst i := by
  have e : p.regBase + 0x4000000 + i - p.regBase = 0x4000000 + i := by omega
  unfold windowOf
  rw [if_neg (by omega)]
  simp only [e]
  rw [if_neg (by omega), if_neg (by omega), if_pos (by omega), Nat.add_sub_cancel_left]

theorem windowOf_undecoded (p : Params) {a : Nat}
    (h : a < p.regBase ∨ (p.regBase + 0x100 ≤ a ∧ a < p.regBase + 0x2000000) ∨ p.regBase + 0x6000000 ≤ a) :
    windowOf p a = .undecoded := by
  unfold windowOf
  split
  · rfl
  · simp only
    rw [if_neg (by omega), if_neg (by omega), if_neg (by omega)]

/-- The buffer windows' access rule (20_memory R67) as a proposition. -/
theorem bufferShape_iff (i size : Nat) :
    bufferShape i size = true ↔ (size = 1 ∨ size = 2 ∨ size = 4) ∧ i % size = 0 := by
  simp [bufferShape, or_assoc]

/-- The register window's access rule (20_memory R67) as a proposition. -/
theorem regShape_iff (o size : Nat) : regShape o size = true ↔ size = 4 ∧ o % 4 = 0 := by simp [regShape]

/-- A host access starts a command only as a 4-byte write to CTRL of a word with bit 0 = 1 while idle. -/
theorem busAccess_starts {a : Access} {s : State} {w : Word} (h : busAccess a s = .starts w) :
    windowOf s.params a.addr = .reg 0 ∧ a.size = 4 ∧ a.op = .write w ∧ s.busy = false ∧ w.getLsbD 0 = true := by
  unfold busAccess at h
  split at h
  · next o ho =>
    unfold regAccess at h
    split at h
    · next hs =>
      split at h
      · cases h
      · next v hv =>
        split at h
        · next hc =>
          cases h
          obtain ⟨h0, hb, hw⟩ := hc
          subst h0
          simp only [regShape, Bool.and_eq_true, decide_eq_true_eq] at hs
          exact ⟨ho, hs.1, hv, hb, hw⟩
        · cases h
    · cases h
  · unfold srcAccess at h
    split at h
    · split at h
      · cases h
      · split at h <;> cases h
    · cases h
  · unfold dstAccess at h
    split at h
    · split at h
      · cases h
      · split at h <;> cases h
    · cases h
  · cases h

/-- A host access that takes effect changes at most CTRL, SRC_LEN, EXP_LEN, SRC or the data read. -/
theorem busAccess_done {a : Access} {s t : State} (h : busAccess a s = .done t) :
    ∃ c l e m r, t = { s with ctrl := c, srcLen := l, expLen := e, src := m, rdata := r } := by
  unfold busAccess at h
  split at h
  · unfold regAccess at h
    split at h
    · split at h
      · cases h; exact ⟨_, _, _, _, _, rfl⟩
      · split at h
        · cases h
        · cases h
          unfold regWrite
          split
          · exact ⟨_, _, _, _, _, rfl⟩
          · split
            · exact ⟨_, _, _, _, _, rfl⟩
            · split
              · exact ⟨_, _, _, _, _, rfl⟩
              · split
                · exact ⟨_, _, _, _, _, rfl⟩
                · exact ⟨_, _, _, _, _, rfl⟩
    · cases h
  · unfold srcAccess at h
    split at h
    · split at h
      · cases h; exact ⟨_, _, _, _, _, rfl⟩
      · split at h
        · cases h
        · cases h; exact ⟨_, _, _, _, _, rfl⟩
    · cases h
  · unfold dstAccess at h
    split at h
    · split at h
      · cases h
      · split at h <;> (cases h; exact ⟨_, _, _, _, _, rfl⟩)
    · cases h
  · cases h

/-! ## The fetch -/

theorem latchedWord_start (s : State) : (latchedWord s).getLsbD 0 = true := by
  simp [latchedWord, commandWord]

/-- The latched command is the one its fields name. -/
theorem decodeCommand_commandWord (op : BitVec 2) (m e : Bool) :
    decodeCommand (commandWord op m e) = .ok (commandOf op m e) := by
  cases m <;> cases e <;> (revert op; decide)

theorem decodeCommand_latchedWord (s : State) :
    decodeCommand (latchedWord s) = .ok (commandOf s.lOp s.lMode s.lExpv) := decodeCommand_commandWord _ _ _

/-- The engine's turn while a command runs is the completion of the latched command. -/
theorem engineFetch_run {s : State} (h : s.phase = .run) :
    engineFetch s = .instr (commandOf s.lOp s.lMode s.lExpv) s := by
  simp [engineFetch, h, decodeCommand_latchedWord]

theorem engineFetch_idle {s : State} (h : s.phase = .idle) : engineFetch s = .other (.next s) := by
  simp [engineFetch, h]

/-- Between transitions the two agents move as the schedule says. -/
theorem fetch_none {s : State} (h : s.midstep = none) : fetch s = turnFetch s := by simp [fetch, h]

theorem fetch_some {s : State} {p : Progress} (h : s.midstep = some p) : fetch s = opFetch s := by simp [fetch, h]

/-- A completion step that is cut open goes on with its next part. -/
theorem step_midstep {s : State} {p : Progress} (h : s.midstep = some p) (hr : s.phase = .run) :
    step s = .next (engineOp s) := by
  rcases engineOp_cases s with ⟨i, hi, he⟩ | ⟨hi, he⟩
  · have hshape : exec i s = .next (streamEffect i s) := exec_of_fetchToken_shape i s (fetchInstr_shape hi)
    simp [step, fetch, h, opFetch, hr, hi, he, hshape]
  · simp [step, fetch, h, opFetch, hr, hi, he]

/-- What a step runs, by who moves next. -/
theorem step_of_fetch_instr {s t : State} {i : Instr} (h : fetch s = .instr i t) : step s = exec i t := by
  simp [step, h]

theorem step_of_fetch_other {s : State} {r : Result} (h : fetch s = .other r) : step s = r := by
  simp [step, h]

end Sys2Proof.Machine
end

