-- ==== Sys2Proof/Laws/PerInstr.lean ====
section
/-! SUPPORT. Statements made of every instruction as syntax, one lemma per constructor: `EncodeFits`, the word the encoder
gives has no bit beyond the bits of its row (spec/opcode_table.json, spec/30_encoding.md). -/

namespace Sys2Proof.Laws.EncodeFits

/-- The encoded word of a well-formed instruction fits the bits of its row. -/
def Statement (i : Instr) : Prop := i.wf = true → (encode i).2 < 2 ^ (encode i).1

theorem encodeNormal (e : Bool) : Statement (.encodeNormal e) := fun _ => (commandWord 0 false e).isLt

theorem encodeBest (e : Bool) : Statement (.encodeBest e) := fun _ => (commandWord 0 true e).isLt

theorem decode (m e : Bool) : Statement (.decode m e) := fun _ => (commandWord 1 m e).isLt

theorem reservedOp2 (m e : Bool) : Statement (.reservedOp2 m e) := fun _ => (commandWord 2 m e).isLt

theorem reservedOp3 (m e : Bool) : Statement (.reservedOp3 m e) := fun _ => (commandWord 3 m e).isLt

theorem lit (b : Byte) : Statement (.lit b) := fun _ => by
  have := b.isLt
  simp only [encode]
  omega

theorem matchToken (len dist : Nat) : Statement (.matchToken len dist) := fun _ => by
  have h0 := (matchByte0 len dist).isLt
  have h1 := (matchByte1 dist).isLt
  simp only [encode]
  omega

theorem flag (f : Byte) : Statement (.flag f) := fun _ => f.isLt

theorem trailerStored : Statement .trailerStored := fun _ => by decide

theorem trailerCompressed (enc : BitVec 24) (hdr : Byte) (inc : Word) : Statement (.trailerCompressed enc hdr inc) :=
  fun _ => by
    have h0 := enc.isLt
    have h1 := hdr.isLt
    have h2 := inc.isLt
    simp only [encode]
    omega

end Sys2Proof.Laws.EncodeFits
end

