-- ==== Sys2Proof/Tests/Slice0.lean ====
section
/-! SUPPORT. The model's own tests: words written out from spec/30_encoding.md, results from spec/95_test_vectors.md and
the rules' own examples, the well-formedness smoke tests, and a witness for the hypotheses of each statement. -/

namespace Sys2Proof.Tests

open Sys2Proof.Machine

/-! ## Helpers -/

/-- An idle block with `bs` in SRC and SRC_LEN set (70_reset_and_hazards R333). -/
def loaded (bs : List Byte) : State :=
  { State.reset with src := Memory.ofBytes bs, srcLen := BitVec.ofNat 32 bs.length }

/-- The block right after START of a command on `bs`. -/
def started (op : BitVec 2) (mode expValid : Bool) (bs : List Byte) : State := start op mode expValid (loaded bs)

/-- The next state of a result, if it is one. -/
def after (r : Result) : Option State :=
  match r with
  | .next t => some t
  | .fault _ => none
  | .refused _ => none

/-- The reason a result is refused, if it is. -/
def refusal (r : Result) : Option Refusal :=
  match r with
  | .next _ => none
  | .fault _ => none
  | .refused x => some x

/-- STATUS and the defined bytes of DST, the two things a host looks at. -/
def statusAndDst (r : Result) : Option (Nat × List Byte) := (after r).map fun t => (t.status.toNat, t.dst.map Prod.snd)

/-- The host's next input is `a`, and the host moves next. -/
def hostNext (a : Access) (s : State) : State := { s with inputs := [.access a], sched := [.host] }

/-! ## Well-formedness: each check refuses an ill-formed term -/

theorem test_wf_refuses_short_match : (Instr.matchToken 2 3).wf = false := by decide
theorem test_wf_refuses_long_match : (Instr.matchToken 19 3).wf = false := by decide
theorem test_wf_refuses_near_match : (Instr.matchToken 3 2).wf = false := by decide
theorem test_wf_refuses_far_match : (Instr.matchToken 3 4099).wf = false := by decide
theorem test_wf_refuses_zero_increase : (Instr.trailerCompressed 16 10 0).wf = false := by decide
theorem test_wf_accepts_corner_matches :
    (Instr.matchToken 3 3).wf = true ∧ (Instr.matchToken 18 4098).wf = true := by decide

/-! ## Decoding: words written out bit by bit (30_encoding section 1, R109, R110, R115) -/

/-- bits 31:5 zero, EXP_VALID 1, MODE 0, OP 00, START 1 -/
theorem test_decode_encodeNormal : decodeCommand 0b00000000000000000000000000010001 = .ok (.encodeNormal true) := by decide
/-- EXP_VALID 0, MODE 1, OP 00, START 1 -/
theorem test_decode_encodeBest : decodeCommand 0b00000000000000000000000000001001 = .ok (.encodeBest false) := by decide
/-- EXP_VALID 1, MODE 0, OP 01, START 1 -/
theorem test_decode_decode : decodeCommand 0b00000000000000000000000000010011 = .ok (.decode false true) := by decide
/-- EXP_VALID 0, MODE 1, OP 10, START 1 -/
theorem test_decode_reservedOp2 : decodeCommand 0b00000000000000000000000000001101 = .ok (.reservedOp2 true false) := by decide
/-- EXP_VALID 1, MODE 0, OP 11, START 1 -/
theorem test_decode_reservedOp3 : decodeCommand 0b00000000000000000000000000010111 = .ok (.reservedOp3 false true) := by decide
/-- START 0: no command (30_encoding R117) -/
theorem test_decode_noStart : decodeCommand 0b00000000000000000000000000001110 = .error .noStart := by decide
/-- the token word `0 01000011` -/
theorem test_decode_lit : decodeToken false [0b01000011] = .ok (.lit 0x43) := by decide
/-- the token word `1 0111 000100000000`: length 7 + 3, distance 0x100 + 3 -/
theorem test_decode_matchToken : decodeToken true [0b01110001, 0b00000000] = .ok (.matchToken 10 259) := by decide
/-- a match record with 1 byte left (46_frame_reader R271) -/
theorem test_decode_truncated : decodeToken true [0b01110001] = .error .truncated := by decide
theorem test_decode_flag : decodeTableWord 8 0b00100000 = some (.flag 0x20) := by decide
theorem test_decode_trailerStored : decodeTrailer [0x41, 0, 0, 0, 0] = .ok .trailerStored := by decide
/-- frame F4 of 95_test_vectors 2.4: enc = 17, hdr = 11, inc = 3 -/
theorem test_decode_trailerCompressed :
    decodeTrailer [0x11, 0, 0, 0x0b, 0x03, 0, 0, 0] = .ok (.trailerCompressed 17 11 3) := by decide
/-- 95_test_vectors D16 and D7: no room for a header, no room for a trailer -/
theorem test_decode_short_frames : decodeTrailer [1, 2, 3, 4, 5] = .error .shortHeader ∧
    decodeTrailer [0, 0, 0] = .error .noTrailer := by decide
/-- the encoder's match bytes against the corner table of 95_test_vectors 2.3 -/
theorem test_encode_match_corners : payloadBytes (.matchToken 18 4098) = [0xff, 0xff] ∧
    payloadBytes (.matchToken 3 4098) = [0x0f, 0xff] ∧ payloadBytes (.matchToken 18 3) = [0xf0, 0x00] ∧
    payloadBytes (.matchToken 5 11) = [0x20, 0x08] := by decide
/-- 43_flag_packer R188, row `AB` × 10: five tokens assembled (30_encoding R120) -/
theorem test_assemble_group : assemble [.lit 0x42, .lit 0x41, .lit 0x42, .lit 0x41, .matchToken 16 4] =
    some [0x08, 0x42, 0x41, 0x42, 0x41, 0xd0, 0x01] := by decide

/-! ## FIND and LOOKAHEAD (95_test_vectors 2.1 and 2.2) -/

/-- row M11: `ABCDEABCXYABCDE`, c = 10 -/
theorem test_find_longest : find true (fun i => ([0x41,0x42,0x43,0x44,0x45,0x41,0x42,0x43,0x58,0x59,0x41,0x42,0x43,0x44,0x45] :
    List Byte).getD i 0) 15 10 = (5, 10) := by decide +kernel
/-- row M4: ten equal bytes, c = 3, overlap on and off -/
theorem test_find_overlap : find true (fun _ => 0x41) 10 3 = (7, 3) ∧ find false (fun _ => 0x41) 10 3 = (3, 3) := by
  decide +kernel
/-- row L1: R = `AAABAAAA`, c = 4, lb = 3 is dropped on equality -/
theorem test_lookahead_drops : lookahead true (fun i => ([0x41,0x41,0x41,0x42,0x41,0x41,0x41,0x41] : List Byte).getD i 0) 8 4 3 =
    true := by decide +kernel

/-! ## The commands, each by its one completion step -/

/-- 95_test_vectors F13: twelve `A`, a tie that is compressed because n mod 4 = 0 -/
theorem test_encodeNormal_frame : statusAndDst (exec (.encodeNormal false) (started 0 false false (List.replicate 12 0x41))) =
    some (0x22, [0x00,0x60,0x41,0x41,0x41,0x10,0xff,0xff,0x10,0x00,0x00,0x0a,0xfc,0xff,0xff,0xff]) := by decide +kernel
/-- 95_test_vectors F9: `AAAABAAAABAAA` in normal mode is stored -/
theorem test_encodeNormal_stored : statusAndDst (exec (.encodeNormal false)
    (started 0 false false [0x41,0x41,0x41,0x41,0x42,0x41,0x41,0x41,0x41,0x42,0x41,0x41,0x41])) =
    some (0x02, [0x41,0x41,0x41,0x41,0x42,0x41,0x41,0x41,0x41,0x42,0x41,0x41,0x41,0,0,0,0,0,0,0]) := by decide +kernel
/-- 95_test_vectors F10: the same input in best mode is compressed, increase_len = -3 -/
theorem test_encodeBest_frame : statusAndDst (exec (.encodeBest false)
    (started 0 true false [0x41,0x41,0x41,0x41,0x42,0x41,0x41,0x41,0x41,0x42,0x41,0x41,0x41])) =
    some (0x22, [0x02,0x50,0x41,0x42,0x41,0x41,0x41,0x04,0x10,0x00,0x00,0x08,0xfd,0xff,0xff,0xff]) := by decide +kernel
/-- 95_test_vectors D2: a clamped match, overlapping copy -/
theorem test_decode_clamp : statusAndDst (exec (.decode false false)
    (started 1 false false [0x00,0xf0,0x41,0x41,0x41,0x10,0xff,0xff,0x10,0x00,0x00,0x0a,0xfa,0xff,0xff,0xff])) =
    some (0x32, List.replicate 10 0x41) := by decide +kernel
/-- 95_test_vectors D27: a truncated stream, the gap filled with zeros -/
theorem test_decode_truncation : statusAndDst (exec (.decode true false)
    (started 1 true false [0x42,0x41,0x00,0xff,0x0c,0x00,0x00,0x09,0xf9,0xff,0xff,0xff])) =
    some (0x2A, [0x00,0x00,0x00,0x42,0x41]) := by decide +kernel
/-- 95_test_vectors E4 -/
theorem test_reservedOp2_bad_command : statusAndDst (exec (.reservedOp2 false false) (started 2 false false [1])) =
    some (0x506, []) := by decide +kernel
/-- 95_test_vectors E5 -/
theorem test_reservedOp3_bad_command : statusAndDst (exec (.reservedOp3 true false) (started 3 true false [])) =
    some (0x506, []) := by decide +kernel
/-- 45_commands R230: STATUS = 1, gk = 8, raw_tmp = n after START -/
theorem test_start_encodeNormal : (after (exec (.encodeNormal true) (loaded [1, 2, 3]))).map
    (fun t => (t.status.toNat, t.ctrl.toNat, t.gk.toNat, t.rawTmp.toNat, t.lLen.toNat)) = some (1, 0x10, 8, 3, 3) := by decide

/-! ## Tokens and trailers -/

/-- 43_flag_packer R181 example: a fifth fold, 1 after 0 0 0 0, and R183's `E0 00` for (17, 3) -/
theorem test_match_emitted : (after (exec (.matchToken 17 3)
    { started 0 false false [] with work := [(0, 0x00), (1, 0x41)], fp := 0, wp := 2, gk := 4, cur := 3 })).map
    (fun t => (t.work, t.wp.toNat, t.cur.toNat, t.gk.toNat)) =
    some ([(0, 0x01), (1, 0x41), (2, 0xe0), (3, 0x00)], 4, 20, 5) := by decide
/-- 46_frame_reader R270: the copy of 5 bytes from 3 behind repeats them -/
theorem test_match_copied : (after (exec (.matchToken 5 3)
    { started 1 false false [] with
      work := [(0, 1), (1, 2), (2, 3)], oc := 3, dk := 3, midstep := some { Progress.fresh with rawLen := 20 } })).map
    (fun t => (t.work.map Prod.snd, t.oc.toNat, t.dk.toNat, t.ip.toNat)) = some ([1, 2, 3, 1, 2, 3, 1, 2], 8, 4, 2) := by decide
/-- 43_flag_packer R182 -/
theorem test_lit_emitted : (after (exec (.lit 0x43)
    { started 0 false false [] with work := [(0, 0x01)], fp := 0, wp := 1, gk := 1, cur := 1 })).map
    (fun t => (t.work, t.wp.toNat, t.cur.toNat, t.gk.toNat)) = some ([(0, 0x02), (1, 0x43)], 2, 2, 2) := by decide
/-- 46_frame_reader R268: the flag bit of a token whose payload is missing is used up, a missing flag byte is not. -/
theorem test_truncate_dk : (truncate { started 1 false false [] with dk := 3 }).dk = 4 ∧
    (truncate { started 1 false false [] with dk := 8 }).dk = 8 := by decide
/-- 46_frame_reader R269 -/
theorem test_lit_copied : (after (exec (.lit 0x43) { started 1 false false [] with oc := 7, ip := 2, dk := 7 })).map
    (fun t => (t.work, t.oc.toNat, t.ip.toNat, t.dk.toNat)) = some ([(7, 0x43)], 8, 3, 8) := by decide
/-- 43_flag_packer R180 example: the second flag byte at WORK index 9 -/
theorem test_flag_opened : (after (exec (.flag 0) { started 0 false false [] with wp := 9 })).map
    (fun t => (t.work, t.fp.toNat, t.wp.toNat, t.gk.toNat)) = some ([(9, 0)], 9, 10, 0) := by decide
/-- 46_frame_reader R268 -/
theorem test_flag_read : (after (exec (.flag 0x08) { started 1 false false [] with ip := 4 })).map
    (fun t => (t.fl.toNat, t.ip.toNat, t.dk.toNat)) = some (0x08, 5, 0) := by decide
/-- 95_test_vectors F2: the stored frame of one byte -/
theorem test_trailerStored_emitted : statusAndDst (exec .trailerStored (started 0 false false [0x5a])) =
    some (0x02, [0x5a, 0, 0, 0, 0, 0, 0, 0]) := by decide
/-- 95_test_vectors D13: without an expectation the pad is part of the output -/
theorem test_trailerStored_read : statusAndDst (exec .trailerStored (started 1 false false [0x41,0x42,0x43,0,0,0,0,0])) =
    some (0x02, [0x41, 0x42, 0x43, 0x00]) := by decide
/-- 95_test_vectors F4: the frame of `xyz` and twenty `A` from its cut (6, 3) -/
theorem test_trailerCompressed_emitted : statusAndDst (exec (.trailerCompressed 17 11 3)
    { started 0 false false [0x78,0x79,0x7a] with
      work := Memory.ofBytes [0x10,0x41,0x41,0x41,0xe0,0x00], pakTmp := 6, rawTmp := 3 }) =
    some (0x22, [0x78,0x79,0x7a,0x00,0xe0,0x41,0x41,0x41,0x10,0xff,0xff,0xff,0x11,0x00,0x00,0x0b,0x03,0x00,0x00,0x00]) := by
  decide +kernel
/-- 95_test_vectors D1: dec 3, pak_len 6, raw_len 23 -/
theorem test_trailerCompressed_read : (after (exec (.trailerCompressed 17 11 3) { started 1 false false [] with lLen := 20 })).map
    (fun t => (t.decLen.toNat, t.streamLen.toNat, t.rawLen.toNat, t.dk.toNat)) = some (3, 6, 23, 8) := by decide

/-! ## The bus and the step -/

/-- 20_memory R66: a 4-byte read of DST returns the little-endian word -/
theorem test_dst_read_lanes : (after (step (hostNext ⟨0x4000000, 4, .read⟩
    { loaded [] with dst := Memory.ofBytes [0xfd, 0xff, 0xff, 0x01], dstLen := 4 }))).map (fun t => t.rdata.toNat) =
    some 0x01fffffd := by decide
/-- 95_test_vectors E7: the word 0xFFFFFFE1 starts ENCODE_NORMAL and CTRL reads back 0 -/
theorem test_step_starts : (after (step (hostNext ⟨0, 4, .write 0xFFFFFFE1⟩ (loaded [7])))).map
    (fun t => (t.status.toNat, t.ctrl.toNat, t.lLen.toNat, t.lMode)) = some (1, 0, 1, false) := by decide

/-! ## A witness for the hypotheses of each statement -/

/-- A DECODE in its token loop: stream `08 42 41` behind, one flag byte used up. -/
def inLoop (ip : BitVec 25) (dk : BitVec 4) (fl : Byte) : State :=
  { started 1 false false [0x00, 0x07, 0x41, 0x08, 0xff] with
    midstep := some { Progress.fresh with stage := .decodeLoop, streamLen := 4, rawLen := 9 }
    lLen := 12, oc := 4, ip := ip, dk := dk, fl := fl }

/-- The invariant from its parts, each small enough to decide. -/
theorem inv_of_parts {s : State} (hr : RamsOk s) (hg : RegsOk s) (he : s.phase = .run ∧ s.stage = .encodeLoop → EncodeOk s)
    (hd : s.phase = .run ∧ s.stage = .decodeLoop →
      DecodeOk s ∧ s.warnTrunc = false ∧ (s.warnClamp = true → s.oc.toNat = s.want))
    (hz : s.phase = .run ∧ s.stage = .decodeEnd → DecodeOk s ∧ s.warnTrunc = true ∧ s.warnClamp = false) : s.Inv :=
  ⟨hr, hg, he, hd, hz⟩

theorem witness_DecodeOfEncodeIsInstr : (Instr.matchToken 18 4098).wf = true ∧ (Instr.trailerCompressed 17 11 3).wf = true := by
  decide
theorem witness_CommandWordSelectsCommand : (0xFFFFFFF1 : Word) &&& 0xF = 0x1 ∧ (0x9 : Word) &&& 0xF = 0x9 ∧
    (0x1B : Word) &&& 0x7 = 0x3 ∧ (0x5 : Word) &&& 0x7 = 0x5 ∧ (0xF : Word) &&& 0x7 = 0x7 ∧ (0xE : Word) &&& 0x1 = 0x0 := by
  decide
theorem witness_MatchRecordFields : 3 ≤ 18 ∧ 18 ≤ 18 ∧ 3 ≤ 4098 ∧ 4098 ≤ 4098 := by decide
theorem witness_LastFourBytesTellFrames : fromLE [0, 0, 0, 0] = 0 ∧ fromLE [0, 0, 0, 0x80] ≠ 0 := by decide
theorem witness_StepRunsDecodedInstruction_host : HostDoes (hostNext ⟨0, 4, .write 3⟩ (loaded []))
    (regWriteAt (hostNext ⟨0, 4, .write 3⟩ (loaded [])) 0 3) [] ∧ (hostNext ⟨0, 4, .write 3⟩ (loaded [])).busy = false ∧
    decodeCommand 3 = .ok (.decode false false) := by decide
theorem witness_StepRunsDecodedInstruction_engine : EngineMoves (started 1 true false []) ∧
    (started 1 true false []).phase = .run ∧ decodeCommand (latchedWord (started 1 true false [])) = .ok (.decode true false) := by
  decide
theorem witness_StepRunsDecodedInstruction_midstep : (inLoop 1 0 0).midstep ≠ none ∧
    (inLoop 1 0 0).phase = .run ∧ fetchInstr (inLoop 1 0 0) = some (.lit 0x41) := by decide
theorem witness_DecodeFetchReadsStream : (inLoop 3 8 0).stage = .decodeLoop ∧ (inLoop 3 8 0).oc.toNat < (inLoop 3 8 0).want ∧
    (inLoop 3 8 0).dk = 8 ∧ (inLoop 3 8 0).ip.toNat < (inLoop 3 8 0).streamLen.toNat ∧
    (inLoop 3 7 0).dk ≠ 8 ∧ (inLoop 3 7 0).fl.getLsbD 0 = false ∧
    (inLoop 2 0 0x80).fl.getLsbD 7 = true ∧ (inLoop 2 0 0x80).ip.toNat + 2 ≤ (inLoop 2 0 0x80).streamLen.toNat := by decide
theorem witness_PlacedWordIsRunNext : decodeTableWord 24 0x1FFFF = some (.matchToken 18 4098) ∧
    decodeTableWord 64 0xFFFFFFFC0A000010 = some (.trailerCompressed 16 10 0xFFFFFFFC) := by decide
theorem witness_IdleEngineHasNoStep : (loaded []).phase = .idle ∧ EngineMoves { loaded [] with sched := [.engine] } := by
  decide
theorem witness_StartLatchesCommand : (loaded [1]).phase = .idle := by decide
theorem witness_CtrlWriteStoresAndStarts : HostDoes (hostNext ⟨0, 4, .write 0x18⟩ (loaded []))
    (regWriteAt (hostNext ⟨0, 4, .write 0x18⟩ (loaded [])) 0 0x18) [] ∧ (loaded []).busy = false ∧
    (loaded []).phase = .idle ∧ (0x18 : Word).getLsbD 0 = false ∧ (0x19 : Word).getLsbD 0 = true := by decide
theorem witness_WritesWhileBusyIgnored : (started 0 false false [1]).busy = true ∧
    HostDoes (hostNext ⟨0x10, 4, .write 9⟩ (started 0 false false [1]))
      (regWriteAt (hostNext ⟨0x10, 4, .write 9⟩ (started 0 false false [1])) 0x10 9) [] ∧
    HostDoes (hostNext ⟨0x3FFFFFF, 1, .write 9⟩ (started 0 false false [1]))
      (srcAccessAt (started 0 false false [1]) 0x1FFFFFF 1 (.write 9)) [] ∧ BufferShaped 0x1FFFFFF 1 := by decide
theorem witness_ReservedOpsRaiseBadCommand : JustStarted (started 2 true true [1]) := by decide
theorem witness_CtrlReadsItsFields : (hostNext ⟨0, 4, .read⟩ { loaded [1] with ctrl := 0x1A }).Inv ∧
    HostDoes (hostNext ⟨0, 4, .read⟩ { loaded [1] with ctrl := 0x1A })
      (regReadAt (hostNext ⟨0, 4, .read⟩ { loaded [1] with ctrl := 0x1A }) 0) [] := by
  refine ⟨inv_of_parts ?_ ?_ ?_ ?_ ?_, ?_⟩ <;> decide
theorem witness_ReservedAndReadOnlyRegisters : (0x20 % 4 = 0 ∧ 0x20 < 0x100) ∧ (0xFC % 4 = 0 ∧ 0xFC < 0x100) ∧
    HostDoes (hostNext ⟨0xFC, 4, .read⟩ (loaded [])) (regReadAt (hostNext ⟨0xFC, 4, .read⟩ (loaded [])) 0xFC) [] ∧
    HostDoes (hostNext ⟨0x04, 4, .write 5⟩ (loaded [])) (regWriteAt (hostNext ⟨0x04, 4, .write 5⟩ (loaded [])) 0x04 5) [] := by
  decide
theorem witness_LengthRegistersStore : (loaded []).busy = false ∧ HostDoes (hostNext ⟨8, 4, .write 23⟩ (loaded []))
    (regWriteAt (hostNext ⟨8, 4, .write 23⟩ (loaded [])) 8 23) [] ∧ HostDoes (hostNext ⟨0x10, 4, .write 23⟩ (loaded []))
    (regWriteAt (hostNext ⟨0x10, 4, .write 23⟩ (loaded [])) 0x10 23) [] := by decide
/-- The host's next access on a block at REG_BASE 0x08000000. -/
def basedNext (a : Access) (busy : Bool) : State :=
  { hostNext a (if busy then started 0 false false [1] else loaded [1]) with
    params := { Params.default with regBase := 0x08000000, legal := by decide } }
/-- 10_state section 2: three neighbouring registers, each under its own offset. -/
theorem test_registers_read_apart :
    ([0x0C, 0x14, 0x18].map fun o => (after (step (hostNext ⟨o, 4, .read⟩
      { loaded [] with dstLen := 12, cutPak := 20, cutRaw := 24 }))).map fun t => t.rdata.toNat) =
    [some 12, some 20, some 24] := by decide
theorem witness_RegisterReadsReturnTheRegisters :
    HostDoes (basedNext ⟨0x0800001C, 4, .read⟩ true) (regReadAt (basedNext ⟨0x0800001C, 4, .read⟩ true) 0x1C) [] ∧
    HostDoes (basedNext ⟨0x08000004, 4, .read⟩ true) (regReadAt (basedNext ⟨0x08000004, 4, .read⟩ true) 0x04) [] := by decide
theorem witness_SrcWindowWriteStoresLanes :
    HostDoes (basedNext ⟨0x0BFFFFFC, 4, .write 7⟩ false)
      (srcAccessAt (basedNext ⟨0x0BFFFFFC, 4, .write 7⟩ false) 0x1FFFFFC 4 (.write 7)) [] ∧
    HostDoes (basedNext ⟨0x0C000000, 1, .write 7⟩ false)
      (dstAccessAt (basedNext ⟨0x0C000000, 1, .write 7⟩ false) 0 1 (.write 7)) [] ∧
    BufferShaped 0x1FFFFFC 4 ∧ BufferShaped 0 1 ∧ (basedNext ⟨0x0BFFFFFC, 4, .write 7⟩ false).busy = false := by decide
theorem witness_BufferReadsReturnLanes :
    HostDoes (basedNext ⟨0x0A000000, 2, .read⟩ true)
      (srcAccessAt (basedNext ⟨0x0A000000, 2, .read⟩ true) 0 2 .read) [] ∧
    HostDoes (basedNext ⟨0x0DFFFFFE, 2, .read⟩ false)
      (dstAccessAt (basedNext ⟨0x0DFFFFFE, 2, .read⟩ false) 0x1FFFFFE 2 .read) [] ∧
    BufferShaped 0 2 ∧ BufferShaped 0x1FFFFFE 2 ∧ (basedNext ⟨0x0DFFFFFE, 2, .read⟩ false).busy = false := by decide
/-- Each clause at a boundary of its range: the last register bytes, both ends of the buffer windows, the ends of the
gaps. -/
theorem witness_HostAccessFaultsRefused_windows :
    HostDoes (basedNext ⟨0x080000FF, 1, .read⟩ false) ⟨0x08000000 + 0xFF, 1, .read⟩ [] ∧ ¬(1 = 4 ∧ 0xFF % 4 = 0) ∧
    HostDoes (basedNext ⟨0x080000FC, 4, .read⟩ false) ⟨0x08000000 + 0xFC, 4, .read⟩ [] ∧
    HostDoes (basedNext ⟨0x0BFFFFFF, 2, .read⟩ false) (srcAccessAt (basedNext ⟨0, 2, .read⟩ false) 0x1FFFFFF 2 .read) [] ∧
    ¬BufferShaped 0x1FFFFFF 2 ∧
    HostDoes (basedNext ⟨0x0A000000, 4, .write 1⟩ true) (srcAccessAt (basedNext ⟨0, 4, .read⟩ true) 0 4 (.write 1)) [] ∧
    HostDoes (basedNext ⟨0x0DFFFFFF, 1, .read⟩ true) (dstAccessAt (basedNext ⟨0, 1, .read⟩ true) 0x1FFFFFF 1 .read) [] ∧
    BufferShaped 0 4 ∧ BufferShaped 0x1FFFFFF 1 ∧ (basedNext ⟨0, 4, .read⟩ true).busy = true ∧
    (basedNext ⟨0, 4, .read⟩ false).busy = false := by decide
theorem witness_HostAccessFaultsRefused_gaps :
    ([0x07FFFFFF, 0x08000100, 0x09FFFFFF, 0x0E000000, 0x0FFFFFFF].all fun a =>
      decide (HostDoes (basedNext ⟨a, 4, .read⟩ false) ⟨a, 4, .read⟩ []) &&
      decide (refusal (step (basedNext ⟨a, 4, .read⟩ false)) = some .undecodedAddress)) = true := by decide
theorem witness_HostReadsHaveNoSideEffect :
    HostDoes (hostNext ⟨0, 4, .read⟩ (loaded [])) ⟨0, 4, .read⟩ [] ∧
    step (hostNext ⟨0, 4, .read⟩ (loaded [])) = .next { loaded [] with rdata := 0 } := ⟨by decide, rfl⟩
theorem witness_WaitDonePollsStatus : HostMoves { loaded [] with inputs := [.waitDone] } ∧
    (2 : Word).getLsbD 1 = true ∧ (loaded []).status.getLsbD 1 = false := by decide
theorem witness_ResetAbortsAndClears : HostMoves { started 0 false false [1] with inputs := [.reset], sched := [.host] } ∧
    (started 0 false false [1]).phase = .run := by decide
theorem witness_EmptyEncodeAfterReset : HostMoves { loaded [9] with inputs := [.reset] } ∧
    Instr.encodeBest true = commandOf 0 true true := by decide
theorem witness_FindResultIsLegal : 3 ≤ 10 ∧ 0 < (find true (fun _ => 0x41) 10 3).1 := by decide +kernel
theorem witness_FindIsLongestAndNearest : 3 ≤ 10 ∧ 3 ≤ min 3 4098 ∧ 0 < (find true (fun _ => 0x41) 10 3).1 := by decide +kernel
theorem witness_LookaheadRoomTestIrrelevant : 3 < 10 ∧ 3 ≤ (find true (fun _ => 0x41) 10 3).1 := by decide +kernel
theorem witness_EncodeEmits : (started 0 false false []).lOp = 0 ∧ (Instr.matchToken 3 4098).wf = true := by decide
theorem witness_FlagByteIsMsbFirst : ([true, false, true, false, true, false, true, false] : List Bool).length ≤ 8 := by decide
theorem witness_EncodeWritesFrames : (started 0 false false [1]).lOp = 0 ∧
    (started 0 false false [1]).lLen.toNat ≤ Config.rawMax ∧ 8 ≤ (11 : Byte).toNat ∧ (11 : Byte).toNat ≤ 11 := by decide
theorem witness_SelectedTrailerFields : (started 0 false false (List.replicate 12 1)).lLen.toNat ≤ Config.rawMax ∧
    selectTrailer { started 0 false false (List.replicate 12 1) with pakTmp := 6, rawTmp := 0 } =
      .trailerCompressed 16 10 0xFFFFFFFC := by decide
theorem witness_SelectorEmitsShorterFrame : 0 < ([1] : List Byte).length ∧ (11 : Byte).toNat = headerLenOf (1 + 0) := by decide
theorem witness_EncodeRejectsOversizedInput : JustStarted { started 0 false false [] with lLen := 0x01000000 } ∧
    Config.rawMax < (0x01000000 : Word).toNat := by decide
theorem witness_EncodeAlwaysDelivers : JustStarted { started 0 true false [] with lLen := 0x00FFFFFF } ∧
    (0x00FFFFFF : Word).toNat ≤ Config.rawMax := by decide
theorem witness_DecodeReadsStoredFrame : (started 1 false true []).lOp = 1 ∧ 4 ≤ (4 : Word).toNat ∧
    (4 : Word).toNat ≤ Params.default.srcCap := by decide
theorem witness_DecodeReadsCompressedHeader : (started 1 false false []).lOp = 1 ∧ 8 ≤ (20 : Word).toNat ∧
    (20 : Word).toNat ≤ Params.default.srcCap := by decide
theorem witness_DecodeErrorPriority : JustStarted (started 1 false false []) ∧
    decodeCheck (started 1 false false []) false = some 1 ∧ decodeCheck (started 1 false false [0, 0, 0, 0]) false = none := by decide
theorem witness_DecodeReadsTokens : (inLoop 1 0 0).lOp = 1 := by decide
theorem witness_DecodeCopiesMatch : (inLoop 1 0 0).lOp = 1 ∧ (Instr.matchToken 5 4).wf = true ∧
    (inLoop 1 0 0).oc.toNat ≤ (inLoop 1 0 0).want ∧ 4 ≤ (inLoop 1 0 0).oc.toNat ∧ (inLoop 1 0 0).oc.toNat < 5 := by decide
theorem witness_DecodeStopsAtTruncation : (inLoop 4 8 0).phase = .run ∧ (inLoop 4 8 0).stage = .decodeLoop ∧
    (inLoop 4 8 0).warnClamp = false ∧ (inLoop 4 8 0).oc.toNat < (inLoop 4 8 0).want ∧
    ((inLoop 4 8 0).dk = 8 ∧ (inLoop 4 8 0).streamLen.toNat ≤ (inLoop 4 8 0).ip.toNat) ∧
    ((inLoop 4 7 0).dk ≠ 8 ∧ (inLoop 4 7 0).fl.getLsbD 0 = false) ∧
    ((inLoop 3 0 0x80).fl.getLsbD 7 = true ∧ (inLoop 3 0 0x80).streamLen.toNat < (inLoop 3 0 0x80).ip.toNat + 2) := by decide
theorem witness_DecodeCompletionLayout : (inLoop 4 8 0).phase = .run ∧
    (inLoop 4 8 0).decLen.toNat ≤ (inLoop 4 8 0).rawLen.toNat ∧ (inLoop 4 8 0).oc.toNat ≤ (inLoop 4 8 0).want ∧
    ({ inLoop 4 8 0 with oc := 9 } : State).oc.toNat = ({ inLoop 4 8 0 with oc := 9 } : State).want ∧
    (truncate (inLoop 4 8 0)).stage = .decodeEnd := by decide
theorem witness_DecodeAlwaysEnds : (inLoop 1 0 0).Inv ∧ (inLoop 1 0 0).phase = .run ∧ (inLoop 1 0 0).lOp = 1 := by
  refine ⟨inv_of_parts ?_ ?_ ?_ ?_ ?_, ?_⟩ <;> decide
/-- Frame F13 encoded and read back: all hypotheses of the round trip together (95_test_vectors 2.4, 2.6). -/
theorem witness_DecodeInvertsEncode :
    ∃ t, exec (commandOf 0 false false) (started 0 false false (List.replicate 12 0x41)) = .next t ∧ t.status = 0x22 ∧
      increaseLenOf 12 (t.cutPak.toNat + t.cutRaw.toNat) % (2 ^ 32 : Int) ≠ 0 ∧
      t.cutPak.toNat + headerLenOf (t.cutPak.toNat + t.cutRaw.toNat) < 2 ^ 24 ∧ t.dstLen = 16 := by
  refine ⟨_, rfl, ?_, ?_, ?_, ?_⟩ <;> decide +kernel
theorem witness_StepKeepsLegal_reset : State.reset.Inv := by refine inv_of_parts ?_ ?_ ?_ ?_ ?_ <;> decide
theorem witness_StepKeepsLegal_started : (started 0 true false [1, 2]).Inv := by
  refine inv_of_parts ?_ ?_ ?_ ?_ ?_ <;> decide
theorem witness_StepKeepsLegal_encodeLoop : (encodeBegin (started 0 true false [1, 2])).Inv ∧
    (encodeBegin (started 0 true false [1, 2])).stage = .encodeLoop := by
  refine ⟨inv_of_parts ?_ ?_ ?_ ?_ ?_, ?_⟩ <;> decide
theorem witness_StepKeepsLegal_decodeLoop : (inLoop 1 0 0).Inv := by refine inv_of_parts ?_ ?_ ?_ ?_ ?_ <;> decide
theorem witness_StepKeepsLegal_decodeEnd : (truncate (inLoop 4 8 0)).Inv := by
  refine inv_of_parts ?_ ?_ ?_ ?_ ?_ <;> decide
theorem witness_InternalOperationsAreHidden :
    step (encodeBegin (started 0 true false [1])) = .next (tokenStep (encodeBegin (started 0 true false [1]))) ∧
    (encodeBegin (started 0 true false [1])).midstep ≠ none ∧
    (tokenStep (encodeBegin (started 0 true false [1]))).phase = .run := ⟨rfl, by decide, by decide +kernel⟩
theorem witness_BusyEngineHasOneStep : (started 0 true false [1, 2]).Inv ∧ EngineMoves (started 0 true false [1, 2]) ∧
    HostMoves (hostNext ⟨4, 4, .read⟩ (started 0 true false [1, 2])) ∧
    (hostNext ⟨4, 4, .read⟩ (started 0 true false [1, 2])).phase = .run ∧
    (hostNext ⟨4, 4, .read⟩ (started 0 true false [1, 2])).inputs.head? ≠ some .reset := by
  refine ⟨inv_of_parts ?_ ?_ ?_ ?_ ?_, ?_⟩ <;> decide
/-- A match in normal mode, dropped in best mode: row L1 of 95_test_vectors 2.2 (R = `AAABAAAA` at cursor 4). -/
def atMatch (best : Bool) : State :=
  { started 0 best false [0x41,0x41,0x41,0x41,0x42,0x41,0x41,0x41] with
    midstep := some { Progress.fresh with stage := .encodeLoop }
    cur := 4, wp := 5, fp := 0, gk := 4 }
theorem witness_EncodeStepEmitsToken_match : (atMatch false).Inv ∧ (atMatch false).phase = .run ∧
    (atMatch false).stage = .encodeLoop ∧ (atMatch false).cur.toNat < (atMatch false).lLen.toNat := by
  refine ⟨inv_of_parts ?_ ?_ ?_ ?_ ?_, ?_⟩ <;> decide
theorem test_token_match_or_dropped :
    (tokenStep (atMatch false)).cur = 7 ∧ (tokenStep (atMatch true)).cur = 5 := by decide +kernel
theorem witness_EncodeStartsAndEndsLoop : JustStarted (started 0 true false [1, 2]) ∧ (started 0 true false [1, 2]).lOp = 0 ∧
    (encodeBegin (started 0 true false [])).stage = .encodeLoop ∧
    (encodeBegin (started 0 true false [])).cur.toNat = (encodeBegin (started 0 true false [])).lLen.toNat := by decide
theorem witness_SelectorEmitsShorterFrame_guard : 0 < (12 : BitVec 24).toNat ∧
    ({ Params.default with roundtripGuard := true } : Params).roundtripGuard = true := by decide
theorem witness_CompletionAbsorbsOperations : (started 0 true false [1, 2]).Inv ∧ (started 0 true false [1, 2]).phase = .run ∧
    (runOps 1 (started 0 true false [1, 2])).phase = .run ∧
    (runOps 2 (started 0 true false [1, 2])).phase = .run := by
  refine ⟨inv_of_parts ?_ ?_ ?_ ?_ ?_, ?_⟩ <;> decide
theorem witness_ResultDependsOnSnapshotOnly : JustStarted (started 0 true false [1, 2]) ∧
    JustStarted { started 0 true false [1, 2] with bufGen := 7, work := [(0, 1)] } := by decide
theorem witness_NoInstructionChangesSrc : exec (.flag 0) (loaded [1]) = .next (flagEffect 0 (loaded [1])) := rfl
theorem witness_ParametersAreFixed : step (loaded [1]) = .next (loaded [1]) := rfl

end Sys2Proof.Tests
end

/-! # What the transitions leave unchanged, and O55 -/

namespace Sys2Proof.Machine

/-! ## What a running command leaves unchanged -/

/-- The part of the state that no internal operation of a running command writes: the host's registers, SRC, the
latches of START, and what lies outside the block. -/
structure Untouched where
  ctrl : Word
  srcLen : Word
  expLen : Word
  src : Memory
  lOp : BitVec 2
  lMode : Bool
  lExpv : Bool
  lLen : Word
  lExp : Word
  inputs : List Input
  sched : List Turn
  rdata : Word
  srcGen : Nat
  bufGen : Nat
  params : Params

/-- The untouched part of a state. -/
def State.untouched (s : State) : Untouched where
  ctrl := s.ctrl
  srcLen := s.srcLen
  expLen := s.expLen
  src := s.src
  lOp := s.lOp
  lMode := s.lMode
  lExpv := s.lExpv
  lLen := s.lLen
  lExp := s.lExp
  inputs := s.inputs
  sched := s.sched
  rdata := s.rdata
  srcGen := s.srcGen
  bufGen := s.bufGen
  params := s.params

section
variable (s : State)

@[simp] theorem raise_untouched (e : ErrorKind) : (raise e s).untouched = s.untouched := rfl
@[simp] theorem complete_untouched (out : List Byte) (frame trunc clamp : Bool) (pak raw stream : Nat) :
    (complete out frame trunc clamp pak raw stream s).untouched = s.untouched := rfl

/-! The operations of ENCODE. -/

@[simp] theorem openGroup_untouched (f : Byte) : (openGroup f s).untouched = s.untouched := rfl
@[simp] theorem emitLit_untouched (b : Byte) : (emitLit b s).untouched = s.untouched := rfl
@[simp] theorem emitMatch_untouched (len dist : Nat) : (emitMatch len dist s).untouched = s.untouched := rfl
@[simp] theorem findStep_untouched : (findStep s).untouched = s.untouched := rfl
@[simp] theorem emitStored_untouched : (emitStored s).untouched = s.untouched := rfl
@[simp] theorem emitCompressed_untouched (enc : BitVec 24) (hdr : Byte) (inc : Word) :
    (emitCompressed enc hdr inc s).untouched = s.untouched := rfl

@[simp] theorem flagPad_untouched : (flagPad s).untouched = s.untouched := by
  unfold flagPad; split <;> rfl

@[simp] theorem cutTrack_untouched : (cutTrack s).untouched = s.untouched := by
  unfold cutTrack; split <;> rfl

@[simp] theorem encodeBegin_untouched : (encodeBegin s).untouched = s.untouched := by
  unfold encodeBegin; split <;> rfl

@[simp] theorem lookaheadStep_untouched : (lookaheadStep s).untouched = s.untouched := by
  unfold lookaheadStep
  split
  · split <;> rfl
  · rfl

/-! The operations of DECODE. -/

@[simp] theorem flagStep_untouched (f : Byte) : (flagStep f s).untouched = s.untouched := rfl
@[simp] theorem litStep_untouched (b : Byte) : (litStep b s).untouched = s.untouched := rfl
@[simp] theorem truncate_untouched : (truncate s).untouched = s.untouched := rfl
@[simp] theorem decodeFinish_untouched : (decodeFinish s).untouched = s.untouched := rfl

@[simp] theorem copyMatch_untouched (dist k : Nat) : (copyMatch dist k s).untouched = s.untouched := by
  induction k generalizing s with
  | zero => rfl
  | succ k ih => exact ih (copyByte dist s)

@[simp] theorem matchStep_untouched (len dist : Nat) : (matchStep len dist s).untouched = s.untouched := by
  unfold matchStep
  dsimp only
  split
  · rfl
  · split <;> exact copyMatch_untouched ..

@[simp] theorem storedRead_untouched : (storedRead s).untouched = s.untouched := by
  unfold storedRead
  dsimp only
  split
  · rfl
  · split <;> split <;> rfl

@[simp] theorem readHeader_untouched (enc : BitVec 24) (hdr : Byte) (inc : Word) :
    (readHeader enc hdr inc s).untouched = s.untouched := by
  unfold readHeader; split <;> rfl

/-! Tokens and trailers, in both directions (log 13). -/

@[simp] theorem litEffect_untouched (b : Byte) : (litEffect b s).untouched = s.untouched := by
  unfold litEffect; split <;> rfl

@[simp] theorem matchEffect_untouched (len dist : Nat) : (matchEffect len dist s).untouched = s.untouched := by
  unfold matchEffect; split <;> simp

@[simp] theorem flagEffect_untouched (f : Byte) : (flagEffect f s).untouched = s.untouched := by
  unfold flagEffect; split <;> rfl

@[simp] theorem trailerStoredEffect_untouched : (trailerStoredEffect s).untouched = s.untouched := by
  unfold trailerStoredEffect; split <;> simp

@[simp] theorem trailerCompressedEffect_untouched (enc : BitVec 24) (hdr : Byte) (inc : Word) :
    (trailerCompressedEffect enc hdr inc s).untouched = s.untouched := by
  unfold trailerCompressedEffect; split <;> simp

@[simp] theorem streamEffect_untouched (i : Instr) : (streamEffect i s).untouched = s.untouched := by
  cases i <;> simp [streamEffect]

/-! The parts of TOKEN_STEP (45_commands R235) and ENCODE's end (R234). -/

@[simp] theorem groupOpen_untouched : (groupOpen s).untouched = s.untouched := by
  unfold groupOpen; split <;> simp

@[simp] theorem emitToken_untouched : (emitToken s).untouched = s.untouched := by
  unfold emitToken; split <;> simp

@[simp] theorem tokenStep_untouched : (tokenStep s).untouched = s.untouched := by simp [tokenStep]

@[simp] theorem encodeFinish_untouched : (encodeFinish s).untouched = s.untouched := by simp [encodeFinish]

/-! The engine. -/

@[simp] theorem internalOp_untouched : (internalOp s).untouched = s.untouched := by
  rcases internalOp_cases s with
    ⟨-, -, h⟩ | ⟨-, -, ⟨e, -, h⟩ | ⟨i, -, h⟩⟩ | ⟨-, -, -, h⟩ | ⟨-, -, h⟩ | ⟨-, -, h⟩ | ⟨-, -, h⟩ | ⟨-, -, h⟩ | ⟨-, h⟩ <;>
    simp [h]

@[simp] theorem engineOp_untouched : (engineOp s).untouched = s.untouched := by
  rcases engineOp_cases s with ⟨i, -, h⟩ | ⟨-, h⟩ <;> simp [h]

@[simp] theorem runOps_untouched (k : Nat) : (runOps k s).untouched = s.untouched :=
  runOps_induction (P := fun t => t.untouched = s.untouched)
    (fun t _ ht => (engineOp_untouched t).trans ht) k s rfl

end

/-! ## What an instruction can do -/

/-- A command is START, or a completion that touches the latches only through the command's own fields. -/
theorem command_next_cases {op : BitVec 2} {m e : Bool} {s t : State} (h : command op m e s = .next t) :
    t = start op m e s ∨ t.untouched = (withCommand op m e s).untouched := by
  cases hp : s.phase with
  | idle =>
    rw [command_idle hp] at h
    cases h
    exact .inl rfl
  | run =>
    rw [command_run hp] at h
    obtain ⟨rfl, -⟩ := ended_next h
    exact .inr (runOps_untouched ..)

/-- An instruction is a command, or a token or trailer with its effect on the running command. -/
theorem exec_cases (i : Instr) (s : State) :
    (∃ op m e, exec i s = command op m e s) ∨ exec i s = .next (streamEffect i s) := by
  cases i with
  | encodeNormal e => exact .inl ⟨0, false, e, rfl⟩
  | encodeBest e => exact .inl ⟨0, true, e, rfl⟩
  | decode m e => exact .inl ⟨1, m, e, rfl⟩
  | reservedOp2 m e => exact .inl ⟨2, m, e, rfl⟩
  | reservedOp3 m e => exact .inl ⟨3, m, e, rfl⟩
  | lit b => exact .inr rfl
  | matchToken len dist => exact .inr rfl
  | flag f => exact .inr rfl
  | trailerStored => exact .inr rfl
  | trailerCompressed enc hdr inc => exact .inr rfl

/-- Any instruction is START, or leaves all but the latches of OP, MODE and EXP_VALID untouched (a token or a
trailer leaves those as well). -/
theorem exec_next_cases {i : Instr} {s t : State} (h : exec i s = .next t) :
    ∃ op m e, t = start op m e s ∨ t.untouched = (withCommand op m e s).untouched := by
  rcases exec_cases i s with ⟨op, m, e, hc⟩ | hs
  · exact ⟨op, m, e, command_next_cases (hc.symm.trans h)⟩
  · cases hs.symm.trans h
    exact ⟨s.lOp, s.lMode, s.lExpv, .inr (streamEffect_untouched s i)⟩

/-- No instruction changes the parameters. -/
theorem exec_params {i : Instr} {s t : State} (h : exec i s = .next t) : t.params = s.params := by
  obtain ⟨op, m, e, rfl | hu⟩ := exec_next_cases h
  · rfl
  · exact congrArg Untouched.params hu

/-! ## What a transition can do -/

/-- The host side's transition from `s` (20_memory R72): the turn passes, or the oldest input takes effect. A START
goes on with its command. -/
inductive HostStep (s : State) : State → Prop
  | pass (h : s.inputs = []) : HostStep s s
  | reset {rest : List Input} (h : s.inputs = .reset :: rest) : HostStep s (resetBlock { s with inputs := rest })
  | poll {rest : List Input} (h : s.inputs = .waitDone :: rest) : HostStep s (pollDone rest s)
  | access {a : Access} {rest : List Input} {t : State} (h : s.inputs = .access a :: rest)
      (hbus : busAccess a { s with inputs := rest } = .done t) : HostStep s t
  | command {a : Access} {rest : List Input} {w : Word} {t : State} (h : s.inputs = .access a :: rest)
      (hbus : busAccess a { s with inputs := rest } = .starts w)
      (hexec : exec (commandOf (opField w) (modeField w) (expValidField w)) { s with inputs := rest } = .next t) :
      HostStep s t

/-- A transition from `s` (45_commands R242): a part of a completion step that is cut open (log 6), or a turn of one
of the two agents. -/
inductive Transition (s : State) : State → Prop
  | part (hmid : s.midstep ≠ none) (hphase : s.phase = .run) : Transition s (engineOp s)
  | partIdle (hmid : s.midstep ≠ none) (hphase : s.phase = .idle) : Transition s s
  | engine {t : State} (hmoves : EngineMoves s) (hphase : s.phase = .run)
      (hexec : exec (commandOf s.lOp s.lMode s.lExpv) (popTurn s) = .next t) : Transition s t
  | engineIdle (hmoves : EngineMoves s) (hphase : s.phase = .idle) : Transition s (popTurn s)
  | host {t : State} (hmoves : HostMoves s) (hstep : HostStep (popTurn s) t) : Transition s t

/-- What a fetched transition answers. -/
def Fetched.result : Fetched → Result
  | .instr i s => exec i s
  | .other r => r

theorem step_eq_fetch_result (s : State) : step s = (fetch s).result := by
  cases hf : fetch s with
  | instr i t => exact step_of_fetch_instr hf
  | other r => exact step_of_fetch_other hf

/-- The word of an accepted START is the command of its fields. -/
theorem decodeCommand_of_starts {a : Access} {s : State} {w : Word} (h : busAccess a s = .starts w) :
    decodeCommand w = .ok (commandOf (opField w) (modeField w) (expValidField w)) := by
  obtain ⟨-, -, -, -, hbit⟩ := busAccess_starts h
  simp [decodeCommand, hbit]

theorem hostStep_of_hostFetch {s t : State} (h : (hostFetch s).result = .next t) : HostStep s t := by
  unfold hostFetch at h
  split at h
  · next hin => cases h; exact .pass hin
  · next hin => cases h; exact .reset hin
  · next hin => cases h; exact .poll hin
  · next hin =>
    split at h
    · next hbus => cases h; exact .access hin hbus
    · cases h
    · next hbus =>
      rw [decodeCommand_of_starts hbus] at h
      exact .command hin hbus h

/-- Every next state is reached by one of the listed transitions. -/
theorem transition_of_step {s t : State} (h : step s = .next t) : Transition s t := by
  cases hm : s.midstep with
  | some p =>
    have hmid : s.midstep ≠ none := by simp [hm]
    cases hp : s.phase with
    | run =>
      cases (step_midstep hm hp).symm.trans h
      exact .part hmid hp
    | idle =>
      rw [step_eq_fetch_result, fetch_some hm, opFetch, hp] at h
      cases h
      exact .partIdle hmid hp
  | none =>
    rw [step_eq_fetch_result, fetch_none hm, turnFetch] at h
    cases ht : nextTurn s with
    | host =>
      rw [ht] at h
      exact .host ⟨hm, ht⟩ (hostStep_of_hostFetch h)
    | engine =>
      rw [ht] at h
      cases hp : s.phase with
      | run =>
        rw [show engineFetch (popTurn s) = _ from engineFetch_run hp] at h
        exact .engine ⟨hm, ht⟩ hp h
      | idle =>
        rw [show engineFetch (popTurn s) = _ from engineFetch_idle hp] at h
        cases h
        exact .engineIdle ⟨hm, ht⟩ hp

/-! ## The parameters -/

/-- No host transition changes the parameters: a reset puts them back (70_reset_and_hazards R332). -/
theorem HostStep.params {s t : State} (h : HostStep s t) : t.params = s.params := by
  cases h with
  | pass => rfl
  | reset => rfl
  | poll => rfl
  | access _ hbus =>
    obtain ⟨c, l, e, m, r, rfl⟩ := busAccess_done hbus
    rfl
  | command _ _ hexec => exact (exec_params hexec).trans rfl

/-- No transition changes the parameters. -/
theorem Transition.params {s t : State} (h : Transition s t) : t.params = s.params := by
  cases h with
  | part => exact congrArg Untouched.params (engineOp_untouched s)
  | partIdle => rfl
  | engine _ _ hexec => exact (exec_params hexec).trans (popTurn_params s)
  | engineIdle => rfl
  | host _ hstep => exact hstep.params

/-- Settles O55: each transition is one of `Transition`, and none of those writes the parameters. -/
theorem parametersAreFixed : Obligations.ParametersAreFixed := by
  intro s t h
  exact (transition_of_step h).params

end Sys2Proof.Machine

/-! # The host's registers: O9, O11, O12, O14, O15, O16, O47, O54 -/

namespace Sys2Proof.Machine

/-! ## Who moves next -/

theorem fetch_hostMoves {s : State} (h : HostMoves s) : fetch s = hostFetch (popTurn s) := by
  obtain ⟨hmid, hturn⟩ := h
  rw [fetch_none hmid, turnFetch, hturn]

theorem fetch_engineMoves {s : State} (h : EngineMoves s) : fetch s = engineFetch (popTurn s) := by
  obtain ⟨hmid, hturn⟩ := h
  rw [fetch_none hmid, turnFetch, hturn]

/-! ## A host access at the host's turn -/

section
variable {s t : State} {a : Access} {r : Refusal} {w : Word} {rest : List Input}

theorem hostFetch_done (hin : s.inputs = .access a :: rest)
    (hbus : busAccess a { s with inputs := rest } = .done t) : hostFetch s = .other (.next t) := by
  simp only [hostFetch, hin, hbus]

theorem hostFetch_rejected (hin : s.inputs = .access a :: rest)
    (hbus : busAccess a { s with inputs := rest } = .rejected r) : hostFetch s = .other (.refused r) := by
  simp only [hostFetch, hin, hbus]

theorem hostFetch_starts (hin : s.inputs = .access a :: rest)
    (hbus : busAccess a { s with inputs := rest } = .starts w) :
    hostFetch s = .instr (commandOf (opField w) (modeField w) (expValidField w)) { s with inputs := rest } := by
  simp only [hostFetch, hin, hbus, decodeCommand_of_starts hbus]

theorem step_access_done (h : HostDoes s a rest) (hbus : busAccess a (afterInput s rest) = .done t) :
    step s = .next t :=
  step_of_fetch_other ((fetch_hostMoves h.1).trans (hostFetch_done h.2 hbus))

theorem step_access_rejected (h : HostDoes s a rest) (hbus : busAccess a (afterInput s rest) = .rejected r) :
    step s = .refused r :=
  step_of_fetch_other ((fetch_hostMoves h.1).trans (hostFetch_rejected h.2 hbus))

theorem step_access_starts (h : HostDoes s a rest) (hbus : busAccess a (afterInput s rest) = .starts w) :
    step s = exec (commandOf (opField w) (modeField w) (expValidField w)) (afterInput s rest) :=
  step_of_fetch_instr ((fetch_hostMoves h.1).trans (hostFetch_starts h.2 hbus))

end

/-! ## The register window -/

section
variable {s : State} {o : Nat} {w : Word} {rest : List Input}

/-- A 4-byte access below offset 0x100 is one of the register window (20_memory R60). -/
theorem busAccess_reg (ho : o < 0x100) (op : BusOp) :
    busAccess { addr := s.params.regBase + o, size := 4, op := op } s = regAccess o 4 op s := by
  rw [busAccess, windowOf_reg s.params ho]

theorem regAccess_read (ha : o % 4 = 0) : regAccess o 4 .read s = .done { s with rdata := regRead s o } := by
  simp [regAccess, regShape, ha]

theorem regAccess_write (ha : o % 4 = 0) (hno : ¬(o = 0 ∧ s.busy = false ∧ w.getLsbD 0 = true)) :
    regAccess o 4 (.write w) s = .done (regWrite s o w) := by
  rw [regAccess, if_pos ((regShape_iff o 4).2 ⟨rfl, ha⟩)]
  exact if_neg hno

theorem regAccess_starts (hbusy : s.busy = false) (hbit : w.getLsbD 0 = true) :
    regAccess 0 4 (.write w) s = .starts w := by
  rw [regAccess, if_pos ((regShape_iff 0 4).2 ⟨rfl, rfl⟩)]
  exact if_pos ⟨rfl, hbusy, hbit⟩

theorem step_regRead (ho : o < 0x100) (ha : o % 4 = 0) (h : HostDoes s (regReadAt s o) rest) :
    step s = .next { afterInput s rest with rdata := regRead s o } :=
  step_access_done h ((busAccess_reg (s := afterInput s rest) ho .read).trans (regAccess_read ha))

/-- A register write that is no START. -/
theorem step_regWrite (ho : o < 0x100) (ha : o % 4 = 0) (h : HostDoes s (regWriteAt s o w) rest)
    (hno : ¬(o = 0 ∧ s.busy = false ∧ w.getLsbD 0 = true)) :
    step s = .next (regWrite (afterInput s rest) o w) :=
  step_access_done h
    ((busAccess_reg (s := afterInput s rest) ho (.write w)).trans (regAccess_write (s := afterInput s rest) ha hno))

/-- An accepted START (45_commands R230). -/
theorem step_regWrite_starts (h : HostDoes s (regWriteAt s 0 w) rest) (hbusy : s.busy = false)
    (hphase : s.phase = .idle) (hbit : w.getLsbD 0 = true) :
    step s = .next (start (opField w) (modeField w) (expValidField w) (afterInput s rest)) :=
  (step_access_starts h ((busAccess_reg (s := afterInput s rest) (by decide) (.write w)).trans
      (regAccess_starts (s := afterInput s rest) hbusy hbit))).trans
    ((exec_commandOf ..).trans (command_idle (s := afterInput s rest) hphase ..))

/-! What a write that is no START stores (10_state R21, R22, R32, R34, R38). -/

theorem regWrite_busy (h : s.busy = true) : regWrite s o w = s := by
  simp [regWrite, h]

theorem regWrite_ctrl (h : s.busy = false) :
    regWrite s 0x00 w = { s with ctrl := ctrlWord (opField w) (modeField w) (expValidField w) } := by
  simp [regWrite, h]

theorem regWrite_srcLen (h : s.busy = false) : regWrite s 0x08 w = { s with srcLen := w } := by
  simp [regWrite, h]

theorem regWrite_expLen (h : s.busy = false) : regWrite s 0x10 w = { s with expLen := w } := by
  simp [regWrite, h]

/-- Only CTRL, SRC_LEN and EXP_LEN are writable. -/
theorem regWrite_readOnly (hctrl : o ≠ 0x00) (hsrc : o ≠ 0x08) (hexp : o ≠ 0x10) : regWrite s o w = s := by
  simp [regWrite, hctrl, hsrc, hexp]

/-- Above PAK_LEN every offset reads 0 (10_state R38). -/
theorem regRead_reserved (h : 0x20 ≤ o) : regRead s o = 0 := by
  unfold regRead
  repeat rw [if_neg (by omega)]

end

/-! ## The SRC window -/

theorem busAccess_srcWindow {s : State} {a : Access} {i : Nat} (h : windowOf s.params a.addr = .src i) :
    busAccess a s = srcAccess i a.size a.op s := by
  rw [busAccess, h]

/-- 60_exceptions R314 item 3. -/
theorem srcAccess_write_busy {s : State} {i size : Nat} {w : Word} (hbusy : s.busy = true)
    (hshape : BufferShaped i size) : srcAccess i size (.write w) s = .rejected .srcWriteWhileBusy := by
  simp [srcAccess, (bufferShape_iff i size).2 hshape, hbusy]

/-! ## The fields of CTRL -/

@[simp] theorem opField_ctrlWord (op : BitVec 2) (m e : Bool) : opField (ctrlWord op m e) = op := by
  cases m <;> cases e <;> (revert op; decide)

@[simp] theorem modeField_ctrlWord (op : BitVec 2) (m e : Bool) : modeField (ctrlWord op m e) = m := by
  cases m <;> cases e <;> (revert op; decide)

@[simp] theorem expValidField_ctrlWord (op : BitVec 2) (m e : Bool) : expValidField (ctrlWord op m e) = e := by
  cases m <;> cases e <;> (revert op; decide)

/-- The fields of CTRL do not overlap: the sum that stores them is R23's union. -/
theorem ctrlWord_toNat (op : BitVec 2) (m e : Bool) :
    (ctrlWord op m e).toNat = e.toNat <<< 4 ||| m.toNat <<< 3 ||| op.toNat <<< 1 := by
  cases m <;> cases e <;> (revert op; decide)

/-- A word whose START and reserved bits are 0 (10_state R23) is the word of its fields. -/
theorem eq_ctrlWord_of_reserved_zero {w : Word} (h : w &&& 0xFFFFFFE1 = 0) :
    w = ctrlWord (opField w) (modeField w) (expValidField w) := by
  have hmask : w = w &&& 0x1E :=
    calc w = w &&& (0xFFFFFFE1 ||| 0x1E) := (BitVec.and_allOnes (x := w)).symm
      _ = (w &&& 0xFFFFFFE1) ||| (w &&& 0x1E) := BitVec.and_or_distrib_left
      _ = w &&& 0x1E := by rw [h]; exact BitVec.zero_or
  have hlt : w.toNat < 0x1F := by
    rw [hmask, BitVec.toNat_and]
    exact Nat.lt_succ_of_le Nat.and_le_right
  have hsmall : ∀ n < 0x1F, BitVec.ofNat 32 n &&& 0xFFFFFFE1 = 0 →
      BitVec.ofNat 32 n = ctrlWord (opField (.ofNat 32 n)) (modeField (.ofNat 32 n)) (expValidField (.ofNat 32 n)) := by
    decide
  have := hsmall w.toNat hlt
  rw [BitVec.ofNat_toNat, BitVec.setWidth_eq] at this
  exact this h

/-! ## The values of STATUS -/

@[simp] theorem start_busy (op : BitVec 2) (m e : Bool) (s : State) : (start op m e s).busy = true := by
  simp [State.busy, start, statusBusy]

/-- STATUS in a legal state: 1 while BUSY, else one of the idle values (10_state R27 to R30). -/
theorem status_mem_of_inv {s : State} (h : s.Inv) : s.status.toNat ∈ 1 :: idleStatuses := by
  obtain ⟨-, ⟨-, hrun, hidle⟩, -⟩ := h
  cases hp : s.phase with
  | run => exact List.mem_cons.2 (.inl (congrArg BitVec.toNat (hrun hp).1))
  | idle => exact List.mem_cons_of_mem _ (hidle hp).1

/-- 10_state R28 and R30 of one value of STATUS. -/
abbrev StatusConsistent (w : Word) : Prop :=
  (w.getLsbD 2 = true ↔ w.extractLsb' 8 4 ≠ 0) ∧
  (w.getLsbD 2 = true → w.getLsbD 3 = false ∧ w.getLsbD 4 = false ∧ w.getLsbD 5 = false) ∧
  (w.extractLsb' 8 4).toNat < 8

theorem statusConsistent_of_mem : ∀ n ∈ 1 :: idleStatuses, StatusConsistent (BitVec.ofNat 32 n) := by
  decide

/-! ## The state after reset -/

theorem reset_ramsOk : RamsOk State.reset := by
  obtain ⟨hsrc, -, hwork⟩ := reset_rams_wf
  exact ⟨hsrc, by simp [State.reset], rfl, Nat.zero_le _, hwork, by simp [State.reset]⟩

theorem reset_regsOk : RegsOk State.reset :=
  ⟨rfl, fun h => (nomatch h), fun _ => ⟨by decide, rfl, fun _ => ⟨rfl, rfl, rfl, rfl⟩⟩⟩

/-- An idle engine is at no place of a command. -/
theorem engineOk_of_idle {s : State} (h : s.phase = .idle) : EngineOk s := by
  simp [EngineOk, h]

/-! ## The obligations -/

/-- Settles O11: the write is an accepted START exactly when bit 0 is set, else it stores the fields. -/
theorem ctrlWriteStoresAndStarts : Obligations.CtrlWriteStoresAndStarts := by
  intro s w rest h hbusy hphase
  cases hbit : w.getLsbD 0 with
  | true =>
    refine ⟨_, step_regWrite_starts h hbusy hphase hbit, ?_, ?_, ?_, nofun,
      fun _ => ⟨start_busy .., rfl, ?_, ?_, ?_, rfl⟩⟩
    · exact opField_ctrlWord ..
    · exact modeField_ctrlWord ..
    · exact expValidField_ctrlWord ..
    · exact (opField_ctrlWord ..).symm
    · exact (modeField_ctrlWord ..).symm
    · exact (expValidField_ctrlWord ..).symm
  | false =>
    have hstep := step_regWrite (by decide) rfl h (by rw [hbit]; simp)
    rw [regWrite_ctrl (s := afterInput s rest) hbusy] at hstep
    refine ⟨_, hstep, ?_, ?_, ?_, fun _ => rfl, nofun⟩
    · exact opField_ctrlWord ..
    · exact modeField_ctrlWord ..
    · exact expValidField_ctrlWord ..

/-- Settles O14: the read returns CTRL itself, which in a legal state is the word of its fields. -/
theorem ctrlReadsItsFields : Obligations.CtrlReadsItsFields := by
  intro s rest hinv h
  obtain ⟨-, ⟨hreserved, -, -⟩, -⟩ := hinv
  refine ⟨_, step_regRead (by decide) rfl h, ?_, rfl⟩
  calc s.ctrl.toNat = (ctrlWord (opField s.ctrl) (modeField s.ctrl) (expValidField s.ctrl)).toNat :=
        congrArg BitVec.toNat (eq_ctrlWord_of_reserved_zero hreserved)
    _ = _ := ctrlWord_toNat ..

/-- Settles O54: every value STATUS has in a legal state is consistent. -/
theorem statusReportsErrors : Obligations.StatusReportsErrors := by
  intro s hinv
  have h := statusConsistent_of_mem _ (status_mem_of_inv hinv)
  rwa [BitVec.ofNat_toNat, BitVec.setWidth_eq] at h

/-- Settles O9: the engine's fetch in an idle state passes the turn. -/
theorem idleEngineHasNoStep : Obligations.IdleEngineHasNoStep := by
  intro s hphase h
  exact step_of_fetch_other ((fetch_engineMoves h).trans (engineFetch_idle (s := popTurn s) hphase))

/-- Settles O12: a register write while BUSY is no START and stores nothing, and the SRC window refuses its write. -/
theorem writesWhileBusyIgnored : Obligations.WritesWhileBusyIgnored := by
  intro s rest hbusy
  refine ⟨fun o w ho h => ?_, fun i size w hi hshape h => ?_⟩
  · have hlt : o < 0x100 := by omega
    have halign : o % 4 = 0 := by omega
    rw [step_regWrite hlt halign h (by simp [hbusy]), regWrite_busy (s := afterInput s rest) hbusy]
  · refine step_access_rejected h ?_
    have hwindow : windowOf (afterInput s rest).params (srcAccessAt s i size (.write w)).addr = .src i :=
      windowOf_src s.params hi
    rw [busAccess_srcWindow hwindow]
    exact srcAccess_write_busy (s := afterInput s rest) hbusy hshape

/-- Settles O15: no register stands at those offsets, or none that is writable. -/
theorem reservedAndReadOnlyRegisters : Obligations.ReservedAndReadOnlyRegisters := by
  intro s o rest halign hlt
  refine ⟨fun ho h => ?_, fun w ho h => ?_⟩
  · rw [step_regRead hlt halign h, regRead_reserved ho]
  · have hctrl : o ≠ 0x00 := by omega
    have hsrc : o ≠ 0x08 := by omega
    have hexp : o ≠ 0x10 := by omega
    rw [step_regWrite hlt halign h (by simp [hctrl]), regWrite_readOnly hctrl hsrc hexp]

/-- Settles O16: neither offset is CTRL's, so the write is no START and stores its word. -/
theorem lengthRegistersStore : Obligations.LengthRegistersStore := by
  intro s w rest hbusy
  refine ⟨fun h => ?_, fun h => ?_⟩
  · rw [step_regWrite (by decide) rfl h (by simp), regWrite_srcLen (s := afterInput s rest) hbusy]
  · rw [step_regWrite (by decide) rfl h (by simp), regWrite_expLen (s := afterInput s rest) hbusy]

/-- Settles O47: the RAMs are empty, the registers 0 and the engine idle. -/
theorem resetStateIsLegal : Obligations.ResetStateIsLegal :=
  ⟨reset_ramsOk, reset_regsOk, engineOk_of_idle rfl⟩

end Sys2Proof.Machine

/-! # What the host sees of a running command: O51 and O56 -/

namespace Sys2Proof.Machine

/-! ## The reported part of the state -/

/-- What only START and the end of a command write (45_commands R230, R240, 60_exceptions R304): STATUS, the result
registers, DST, and whether a command runs. -/
structure Reported where
  status : Word
  dstLen : Word
  cutPak : Word
  cutRaw : Word
  pakLen : Word
  dst : Memory
  phase : Phase

/-- The reported part of a state. -/
def State.reported (s : State) : Reported where
  status := s.status
  dstLen := s.dstLen
  cutPak := s.cutPak
  cutRaw := s.cutRaw
  pakLen := s.pakLen
  dst := s.dst
  phase := s.phase

/-- A command has ended, with a result or with an error: the engine is idle, BUSY is 0 and DONE is 1. -/
structure Completed (t : State) : Prop where
  phase : t.phase = .idle
  midstep : t.midstep = none
  busy : t.busy = false
  done : t.done = true

theorem statusError_busy_done (e : ErrorKind) :
    (statusError e).getLsbD 0 = false ∧ (statusError e).getLsbD 1 = true := by
  cases e <;> decide

theorem statusDone_busy_done : ∀ frame trunc clamp : Bool,
    (statusDone frame trunc clamp).getLsbD 0 = false ∧ (statusDone frame trunc clamp).getLsbD 1 = true := by
  decide

theorem raise_completed (e : ErrorKind) (s : State) : Completed (raise e s) := by
  obtain ⟨hbusy, hdone⟩ := statusError_busy_done e
  exact ⟨rfl, rfl, hbusy, hdone⟩

theorem complete_completed (out : List Byte) (frame trunc clamp : Bool) (pak raw stream : Nat) (s : State) :
    Completed (complete out frame trunc clamp pak raw stream s) := by
  obtain ⟨hbusy, hdone⟩ := statusDone_busy_done frame trunc clamp
  exact ⟨rfl, rfl, hbusy, hdone⟩

/-- From `s` a command goes on to `t` without reporting anything, or `t` is its end. -/
def HiddenOrCompleted (s t : State) : Prop := t.reported = s.reported ∨ Completed t

theorem HiddenOrCompleted.of_eq {s u t : State} (hsu : u.reported = s.reported) (h : HiddenOrCompleted u t) :
    HiddenOrCompleted s t :=
  h.imp_left fun htu => htu.trans hsu

section
variable (s : State)

/-! ## The parts of a command that report nothing -/

@[simp] theorem emitLit_reported (b : Byte) : (emitLit b s).reported = s.reported := rfl
@[simp] theorem emitMatch_reported (len dist : Nat) : (emitMatch len dist s).reported = s.reported := rfl
@[simp] theorem litStep_reported (b : Byte) : (litStep b s).reported = s.reported := rfl
@[simp] theorem openStream_reported (dec stream raw : Nat) : (openStream dec stream raw s).reported = s.reported := rfl
@[simp] theorem truncate_reported : (truncate s).reported = s.reported := rfl
@[simp] theorem findStep_reported : (findStep s).reported = s.reported := rfl

@[simp] theorem flagPad_reported : (flagPad s).reported = s.reported := by
  simp [State.reported]

@[simp] theorem cutTrack_reported : (cutTrack s).reported = s.reported := by
  simp [State.reported]

@[simp] theorem litEffect_reported (b : Byte) : (litEffect b s).reported = s.reported := by
  unfold litEffect; split <;> rfl

@[simp] theorem flagEffect_reported (f : Byte) : (flagEffect f s).reported = s.reported := by
  unfold flagEffect; split <;> rfl

@[simp] theorem groupOpen_reported : (groupOpen s).reported = s.reported := by
  unfold groupOpen; split <;> simp

@[simp] theorem lookaheadStep_reported : (lookaheadStep s).reported = s.reported := by
  unfold lookaheadStep
  split
  · split <;> rfl
  · rfl

@[simp] theorem copyMatch_reported (dist k : Nat) : (copyMatch dist k s).reported = s.reported := by
  induction k generalizing s with
  | zero => rfl
  | succ k ih => exact ih (copyByte dist s)

/-! ## The parts that may end a command -/

theorem storedRead_completed : Completed (storedRead s) := by
  unfold storedRead
  dsimp only
  split
  · exact raise_completed ..
  · split <;> split
    · exact raise_completed ..
    · exact complete_completed ..
    · exact raise_completed ..
    · exact complete_completed ..

theorem trailerStoredEffect_completed : Completed (trailerStoredEffect s) := by
  unfold trailerStoredEffect
  split
  · exact complete_completed ..
  · exact storedRead_completed s

theorem trailerCompressedEffect_hiddenOrCompleted (enc : BitVec 24) (hdr : Byte) (inc : Word) :
    HiddenOrCompleted s (trailerCompressedEffect enc hdr inc s) := by
  unfold trailerCompressedEffect
  split
  · exact .inr (complete_completed ..)
  · unfold readHeader
    split
    · exact .inr (raise_completed ..)
    · exact .inl rfl

theorem matchEffect_hiddenOrCompleted (len dist : Nat) : HiddenOrCompleted s (matchEffect len dist s) := by
  unfold matchEffect
  split
  · exact .inl rfl
  · unfold matchStep
    dsimp only
    split
    · exact .inr (raise_completed ..)
    · split <;> exact .inl (copyMatch_reported ..)

theorem streamEffect_hiddenOrCompleted (i : Instr) : HiddenOrCompleted s (streamEffect i s) := by
  cases i with
  | lit b => exact .inl (litEffect_reported s b)
  | matchToken len dist => exact matchEffect_hiddenOrCompleted s len dist
  | flag f => exact .inl (flagEffect_reported s f)
  | trailerStored => exact .inr (trailerStoredEffect_completed s)
  | trailerCompressed enc hdr inc => exact trailerCompressedEffect_hiddenOrCompleted s enc hdr inc
  | encodeNormal | encodeBest | decode | reservedOp2 | reservedOp3 => exact .inl rfl

theorem emitToken_hiddenOrCompleted : HiddenOrCompleted s (emitToken s) := by
  unfold emitToken
  split
  · exact matchEffect_hiddenOrCompleted ..
  · exact .inl (litEffect_reported ..)

/-- Tracking the cut undoes no completion. -/
theorem HiddenOrCompleted.cutTrack {s t : State} (h : HiddenOrCompleted s t) : HiddenOrCompleted s (cutTrack t) := by
  refine h.imp (cutTrack_reported t).trans fun hc => ?_
  exact ⟨by simpa using hc.phase, by simpa using hc.midstep, by simpa [State.busy] using hc.busy,
    by simpa [State.done] using hc.done⟩

theorem tokenStep_hiddenOrCompleted : HiddenOrCompleted s (tokenStep s) :=
  ((emitToken_hiddenOrCompleted _).of_eq (by simp)).cutTrack

theorem encodeFinish_hiddenOrCompleted : HiddenOrCompleted s (encodeFinish s) :=
  (streamEffect_hiddenOrCompleted ..).of_eq (flagPad_reported s)

theorem encodeBegin_hiddenOrCompleted : HiddenOrCompleted s (encodeBegin s) := by
  unfold encodeBegin
  split
  · exact .inr (raise_completed ..)
  · exact .inl rfl

theorem decodeFinish_completed : Completed (decodeFinish s) := complete_completed ..

theorem internalOp_hiddenOrCompleted : HiddenOrCompleted s (internalOp s) := by
  rcases internalOp_cases s with
    ⟨-, -, h⟩ | ⟨-, -, ⟨e, -, h⟩ | ⟨i, -, h⟩⟩ | ⟨-, -, -, h⟩ | ⟨-, -, h⟩ | ⟨-, -, h⟩ | ⟨-, -, h⟩ | ⟨-, -, h⟩ | ⟨-, h⟩ <;>
    rw [h]
  · exact encodeBegin_hiddenOrCompleted s
  · exact .inr (raise_completed ..)
  · exact .inl rfl
  · exact .inr (raise_completed ..)
  · exact tokenStep_hiddenOrCompleted s
  · exact encodeFinish_hiddenOrCompleted s
  · exact .inl rfl
  · exact .inr (decodeFinish_completed s)
  · exact .inr (decodeFinish_completed s)

/-- An operation of a command ends it or reports nothing. -/
theorem engineOp_hiddenOrCompleted : HiddenOrCompleted s (engineOp s) := by
  rcases engineOp_cases s with ⟨i, -, h⟩ | ⟨-, h⟩ <;> rw [h]
  · exact streamEffect_hiddenOrCompleted s i
  · exact internalOp_hiddenOrCompleted s

end

theorem engineOp_reported_of_run {s : State} (h : (engineOp s).phase = .run) : (engineOp s).reported = s.reported := by
  rcases engineOp_hiddenOrCompleted s with hr | hc
  · exact hr
  · cases h.symm.trans hc.phase

/-- Settles O51: the part is an internal operation; it writes none of the untouched part and, since the command still
runs after it, none of the reported part. -/
theorem internalOperationsAreHidden : Obligations.InternalOperationsAreHidden := by
  intro s t hmid hstep hrun
  cases transition_of_step hstep with
  | part _ hphase =>
    have hu := engineOp_untouched s
    have hr := engineOp_reported_of_run hrun
    simp only [State.untouched, Untouched.mk.injEq] at hu
    simp only [State.reported, Reported.mk.injEq] at hr
    obtain ⟨hctrl, hsrcLen, hexpLen, hsrc, hop, hmode, hexpv, hlen, hexp, hin, -, hrdata, hsrcGen, hbufGen, hparams⟩ := hu
    obtain ⟨hstatus, hdstLen, hcutPak, hcutRaw, hpakLen, hdst, -⟩ := hr
    exact ⟨hphase, ⟨hctrl, hstatus, hsrcLen, hdstLen, hexpLen, hcutPak, hcutRaw, hpakLen⟩, srcByte_congr hsrc hsrcGen,
      dstByte_congr hdst hbufGen, ⟨hop, hmode, hexpv, hlen, hexp⟩, hin, hrdata, hparams⟩
  | partIdle _ hphase => cases hrun.symm.trans hphase
  | engine hmoves => exact absurd hmoves.1 hmid
  | engineIdle hmoves => exact absurd hmoves.1 hmid
  | host hmoves => exact absurd hmoves.1 hmid

/-! ## A command that ends leaves no completion step cut open -/

/-- A command that runs goes on running or is completed. -/
theorem runOps_completed {s : State} (hrun : s.phase = .run) (k : Nat) (h : (runOps k s).phase = .idle) :
    Completed (runOps k s) := by
  refine runOps_induction (P := fun t => t.phase = .idle → Completed t) (fun t ht _ hidle => ?_) k s ?_ h
  · rcases engineOp_hiddenOrCompleted t with hr | hc
    · have : (engineOp t).phase = t.phase := congrArg Reported.phase hr
      cases hidle.symm.trans (this.trans ht)
    · exact hc
  · intro hidle
    cases hrun.symm.trans hidle

theorem command_next_completed {op : BitVec 2} {m e : Bool} {s t : State} (h : command op m e s = .next t) :
    t = start op m e s ∨ Completed t := by
  cases hp : s.phase with
  | idle =>
    rw [command_idle hp] at h
    cases h
    exact .inl rfl
  | run =>
    rw [command_run hp] at h
    obtain ⟨rfl, hidle⟩ := ended_next h
    exact .inr (runOps_completed (s := withCommand op m e s) hp _ hidle)

/-- A command's transition is a whole one (45_commands R242). -/
theorem command_next_midstep {op : BitVec 2} {m e : Bool} {s t : State} (h : command op m e s = .next t) :
    t.midstep = none := by
  rcases command_next_completed h with rfl | hc
  · rfl
  · exact hc.midstep

theorem HostStep.midstep {s t : State} (h : HostStep s t) (hmid : s.midstep = none) : t.midstep = none := by
  cases h with
  | pass => exact hmid
  | reset => rfl
  | poll => exact hmid
  | access _ hbus =>
    obtain ⟨c, l, e, m, r, rfl⟩ := busAccess_done hbus
    exact hmid
  | command _ _ hexec => exact command_next_midstep ((exec_commandOf ..).symm.trans hexec)

/-- No transition of the two agents cuts a completion step open (log 6). -/
theorem Transition.midstep {s t : State} (h : Transition s t) (hmid : s.midstep = none) : t.midstep = none := by
  cases h with
  | part hcut => exact absurd hmid hcut
  | partIdle hcut => exact absurd hmid hcut
  | engine _ _ hexec => exact command_next_midstep ((exec_commandOf ..).symm.trans hexec)
  | engineIdle => exact hmid
  | host _ hstep => exact hstep.midstep hmid

/-! ## The host while a command runs -/

/-- While BUSY a host access that takes effect changes the data read only (10_state R22, 20_memory R75). -/
theorem busAccess_done_busy {a : Access} {s t : State} (hbusy : s.busy = true) (h : busAccess a s = .done t) :
    ∃ r, t = { s with rdata := r } := by
  unfold busAccess at h
  split at h
  · unfold regAccess at h
    split at h
    · split at h
      · cases h; exact ⟨_, rfl⟩
      · split at h
        · cases h
        · cases h; exact ⟨_, regWrite_busy hbusy⟩
    · cases h
  · unfold srcAccess at h
    split at h
    · split at h
      · cases h; exact ⟨_, rfl⟩
      · cases h
    · cases h
  · unfold dstAccess at h
    split at h
    · cases h
    · cases h
  · cases h

/-- While BUSY the host's transition, a reset apart, is a read, a poll, or nothing. -/
theorem HostStep.of_busy {s t : State} (h : HostStep s t) (hbusy : s.busy = true)
    (hreset : s.inputs.head? ≠ some .reset) : ∃ inputs rdata, t = { s with inputs := inputs, rdata := rdata } := by
  cases h with
  | pass => exact ⟨s.inputs, s.rdata, rfl⟩
  | reset hin => exact absurd (by rw [hin]; rfl) hreset
  | poll => exact ⟨_, _, rfl⟩
  | access _ hbus =>
    obtain ⟨r, rfl⟩ := busAccess_done_busy (by exact hbusy) hbus
    exact ⟨_, _, rfl⟩
  | command _ hbus =>
    obtain ⟨-, -, -, hidle, -⟩ := busAccess_starts hbus
    cases hbusy.symm.trans hidle

/-- In a legal state a command runs only while BUSY (10_state R27). -/
theorem busy_of_inv {s : State} (hinv : s.Inv) (hrun : s.phase = .run) : s.busy = true := by
  obtain ⟨-, ⟨-, hreg, -⟩, -⟩ := hinv
  rw [State.busy, (hreg hrun).1]
  rfl

end Sys2Proof.Machine

/-! # Every running command ends: the first clause of O56 -/

namespace Sys2Proof.Machine

/-! ## FIND stays inside the input -/

theorem matchRun_le {overlap : Bool} {R : Nat → Byte} {n c d : Nat} (fuel l : Nat) (h : c + l ≤ n) :
    c + matchRun overlap R n c d fuel l ≤ n := by
  induction fuel generalizing l with
  | zero => exact h
  | succ fuel ih =>
    unfold matchRun
    split
    · exact h
    · split
      · exact h
      · split
        · exact h
        · exact ih (l + 1) (by omega)

/-- The best match so far, if there is one, ends inside the input. -/
theorem findFrom_le {overlap : Bool} {R : Nat → Byte} {n c : Nat} (hc : c ≤ n) (count d best bd : Nat)
    (h : c + best ≤ n ∨ bd = 0) :
    c + (findFrom overlap R n c count d best bd).1 ≤ n ∨ (findFrom overlap R n c count d best bd).2 = 0 := by
  induction count generalizing d best bd with
  | zero => exact h
  | succ count ih =>
    have hlen : c + matchLen overlap R n c d ≤ n := matchRun_le _ 0 hc
    unfold findFrom
    split
    · split
      · exact .inl hlen
      · exact ih _ _ _ (.inl hlen)
    · exact ih _ _ _ h

theorem find_le {overlap : Bool} {R : Nat → Byte} {n c : Nat} (hc : c ≤ n) : c + (find overlap R n c).1 ≤ n := by
  unfold find
  dsimp only
  split
  · exact hc
  · next hne => exact (findFrom_le hc _ _ _ _ (.inr rfl)).resolve_right hne

/-! ## What an operation is, stage by stage -/

theorem fetchTrailer_shape {s : State} {i : Instr} (h : fetchTrailer s = .ok i) :
    i = .trailerStored ∨ ∃ e h c, i = .trailerCompressed e h c := by
  unfold fetchTrailer at h
  dsimp only at h
  split at h
  · cases h
  · split at h
    · next hi => cases h; exact decodeTrailer_shape hi
    · cases h

/-- A match record copies at least one byte (30_encoding R103). -/
theorem decodeToken_len_pos {f : Bool} {bs : List Byte} {len dist : Nat}
    (h : (decodeToken f bs).toOption = some (.matchToken len dist)) : 0 < len := by
  unfold decodeToken at h
  split at h <;> simp [Except.toOption] at h
  rw [← h.1, matchLength]
  omega

/-- TOKEN_LOOP reads only while output is missing: a flag byte when the group is used up, else a token. -/
theorem fetchToken_cases {s : State} {i : Instr} (h : fetchToken s = some i) :
    s.oc.toNat < s.want ∧
      ((s.dk = 8 ∧ ∃ f, i = .flag f) ∨ (∃ b, i = .lit b) ∨ ∃ len dist, 0 < len ∧ i = .matchToken len dist) := by
  unfold fetchToken at h
  split at h
  · next hoc =>
    refine ⟨hoc, ?_⟩
    split at h
    · next hdk =>
      obtain ⟨f, -, rfl⟩ := Option.map_eq_some_iff.1 h
      exact .inl ⟨hdk, f, rfl⟩
    · rcases decodeToken_shape h with ⟨b, rfl⟩ | ⟨len, dist, rfl⟩
      · exact .inr (.inl ⟨b, rfl⟩)
      · exact .inr (.inr ⟨len, dist, decodeToken_len_pos h, rfl⟩)
  · cases h

section
variable {s : State}

theorem engineOp_dispatch (hst : s.stage = .dispatch) :
    (s.lOp = 0 ∧ engineOp s = encodeBegin s) ∨ (∃ e, engineOp s = raise e s) ∨
      (s.lOp = 1 ∧ ∃ i, fetchTrailer s = .ok i ∧ engineOp s = streamEffect i s) := by
  by_cases h1 : s.lOp = 1
  · cases ht : fetchTrailer s with
    | error e => exact .inr (.inl ⟨e, by simp [engineOp, fetchInstr, internalOp, hst, h1, ht, Except.toOption]⟩)
    | ok i => exact .inr (.inr ⟨h1, i, rfl, by simp [engineOp, fetchInstr, hst, h1, ht, Except.toOption]⟩)
  · by_cases h0 : s.lOp = 0
    · exact .inl ⟨h0, by simp [engineOp, fetchInstr, internalOp, hst, h0]⟩
    · exact .inr (.inl ⟨.badCommand, by simp only [engineOp, fetchInstr, internalOp, hst, if_neg h0, if_neg h1]⟩)

theorem engineOp_encodeLoop (hst : s.stage = .encodeLoop) :
    engineOp s = if s.cur.toNat < s.lLen.toNat then tokenStep s else encodeFinish s := by
  simp [engineOp, fetchInstr, internalOp, hst]

theorem engineOp_decodeLoop (hst : s.stage = .decodeLoop) :
    (∃ i, fetchToken s = some i ∧ engineOp s = streamEffect i s) ∨ engineOp s = truncate s ∨
      engineOp s = decodeFinish s := by
  cases ht : fetchToken s with
  | some i => exact .inl ⟨i, rfl, by simp [engineOp, fetchInstr, hst, ht]⟩
  | none =>
    by_cases hoc : s.oc.toNat < s.want
    · exact .inr (.inl (by simp [engineOp, fetchInstr, internalOp, hst, ht, hoc]))
    · exact .inr (.inr (by simp [engineOp, fetchInstr, internalOp, hst, ht, hoc]))

theorem engineOp_decodeEnd (hst : s.stage = .decodeEnd) : engineOp s = decodeFinish s := by
  simp [engineOp, fetchInstr, internalOp, hst]

/-! ## The operation bound, stage by stage (log 14) -/

theorem opsLeft_dispatch (hrun : s.phase = .run) (hst : s.stage = .dispatch) : opsLeft s = 2 ^ 25 + 8 := by
  simp [opsLeft, hrun, hst]

theorem opsLeft_encodeLoop (hrun : s.phase = .run) (hst : s.stage = .encodeLoop) :
    opsLeft s = s.lLen.toNat - s.cur.toNat + 1 := by
  simp [opsLeft, hrun, hst]

theorem opsLeft_decodeLoop (hrun : s.phase = .run) (hst : s.stage = .decodeLoop) :
    opsLeft s = 2 * (s.want - s.oc.toNat) + (if s.dk = 8 then 1 else 0) + 2 := by
  simp [opsLeft, hrun, hst]

theorem opsLeft_decodeEnd (hrun : s.phase = .run) (hst : s.stage = .decodeEnd) : opsLeft s = 1 := by
  simp [opsLeft, hrun, hst]

theorem opsLeft_pos (hrun : s.phase = .run) : 0 < opsLeft s := by
  cases hst : s.stage with
  | dispatch => rw [opsLeft_dispatch hrun hst]; decide
  | encodeLoop => rw [opsLeft_encodeLoop hrun hst]; omega
  | decodeLoop => rw [opsLeft_decodeLoop hrun hst]; omega
  | decodeEnd => rw [opsLeft_decodeEnd hrun hst]; decide

end

/-- A command stands in its own loop only, and in ENCODE's only with an input that passed the check
(45_commands R233). -/
structure LoopFits (s : State) : Prop where
  encode : s.stage = .encodeLoop → s.lOp = 0 ∧ s.lLen.toNat < 2 ^ 24
  decode : s.stage = .decodeLoop → s.lOp ≠ 0

/-- The place and the lengths of a completion step are those of midstep. -/
theorem stage_congr {s t : State} (h : t.midstep = s.midstep) : t.stage = s.stage := by
  simp only [State.stage, State.progress, h]

theorem want_congr {s t : State} (h : t.midstep = s.midstep) : t.want = s.want := by
  simp only [State.want, State.rawLen, State.decLen, State.progress, h]

theorem loopFits_of_midstep_none {s : State} (h : s.midstep = none) : LoopFits s := by
  have hst : s.stage = .dispatch := stage_none h
  constructor <;> (intro hloop; cases hst.symm.trans hloop)

/-- The operation from `s` to `t` ends the command, or the command goes on with a lower operation bound. -/
def Advances (s t : State) : Prop := Completed t ∨ (t.phase = .run ∧ LoopFits t ∧ opsLeft t < opsLeft s)

/-! ## ENCODE advances -/

section
variable (s : State)

theorem encodeError_none {p : Params} {n : Nat} (h : encodeError p n = none) : n < 2 ^ 24 := by
  unfold encodeError at h
  split at h
  · cases h
  · next hmax => exact Nat.lt_succ_of_le (Nat.not_lt.1 hmax)

theorem encodeBegin_advances (hrun : s.phase = .run) (hst : s.stage = .dispatch) (hop : s.lOp = 0) :
    Advances s (encodeBegin s) := by
  unfold encodeBegin
  split
  · exact .inl (raise_completed ..)
  · next hok =>
    have hlen : s.lLen.toNat < 2 ^ 24 := encodeError_none hok
    refine .inr ⟨hrun, ⟨fun _ => ⟨hop, hlen⟩, nofun⟩, ?_⟩
    rw [opsLeft_dispatch hrun hst, opsLeft_encodeLoop (by exact hrun) rfl]
    dsimp only
    omega

@[simp] theorem groupOpen_cur : (groupOpen s).cur = s.cur := by
  unfold groupOpen flagEffect
  split
  · split <;> rfl
  · rfl

@[simp] theorem groupOpen_midstep : (groupOpen s).midstep = s.midstep := by
  unfold groupOpen flagEffect
  split
  · split <;> rfl
  · rfl

@[simp] theorem findStep_cur : (findStep s).cur = s.cur := rfl
@[simp] theorem findStep_midstep : (findStep s).midstep = s.midstep := rfl

/-- FIND's match ends inside the input. -/
theorem findStep_lb_le (h : s.cur.toNat ≤ s.lLen.toNat) :
    s.cur.toNat + (findStep s).lb.toNat ≤ s.lLen.toNat := by
  have hfind := find_le (overlap := s.params.matchOverlap) (R := s.bottomUp) h
  have hlb : (findStep s).lb.toNat ≤ (find s.params.matchOverlap s.bottomUp s.lLen.toNat s.cur.toNat).1 := by
    simp only [findStep, BitVec.toNat_ofNat]
    exact Nat.mod_le ..
  omega

@[simp] theorem lookaheadStep_cur : (lookaheadStep s).cur = s.cur := by
  unfold lookaheadStep
  split
  · split <;> rfl
  · rfl

@[simp] theorem lookaheadStep_midstep : (lookaheadStep s).midstep = s.midstep := by
  unfold lookaheadStep
  split
  · split <;> rfl
  · rfl

/-- LOOKAHEAD keeps the match or drops it. -/
theorem lookaheadStep_lb_le : (lookaheadStep s).lb.toNat ≤ s.lb.toNat := by
  unfold lookaheadStep
  split
  · split
    · dsimp only
      split
      · exact Nat.zero_le _
      · exact Nat.le_refl _
    · exact Nat.le_refl _
  · exact Nat.le_refl _

theorem emitToken_of_encode (hop : s.lOp = 0) :
    emitToken s = if Config.minLen ≤ s.lb.toNat then emitMatch s.lb.toNat s.db.toNat s
      else emitLit (s.bottomUp s.cur.toNat) s := by
  simp [emitToken, matchEffect, litEffect, State.encoding, hop]

theorem emitToken_midstep (hop : s.lOp = 0) : (emitToken s).midstep = s.midstep := by
  rw [emitToken_of_encode s hop]
  split <;> rfl

/-- A token that fits the 24-bit cursor moves it on. -/
theorem cur_lt_emitToken (hop : s.lOp = 0) (hlit : s.cur.toNat + 1 < 2 ^ 24)
    (hmatch : s.cur.toNat + s.lb.toNat < 2 ^ 24) :
    s.cur.toNat < (emitToken s).cur.toNat := by
  rw [emitToken_of_encode s hop]
  split
  · next hlb =>
    have hmin : Config.minLen = 3 := rfl
    have : (emitMatch s.lb.toNat s.db.toNat s).cur.toNat = (s.cur.toNat + s.lb.toNat) % 2 ^ 24 := BitVec.toNat_ofNat ..
    omega
  · have : (emitLit (s.bottomUp s.cur.toNat) s).cur.toNat = (s.cur.toNat + 1) % 2 ^ 24 := BitVec.toNat_ofNat ..
    omega

/-- The state in which TOKEN_STEP emits its token (45_commands R235). -/
def readyToEmit : State := lookaheadStep (findStep (groupOpen s))

theorem readyToEmit_lb_le (h : s.cur.toNat ≤ s.lLen.toNat) :
    s.cur.toNat + (readyToEmit s).lb.toNat ≤ s.lLen.toNat := by
  have hlen : (groupOpen s).lLen = s.lLen := congrArg Untouched.lLen (groupOpen_untouched s)
  have hfind := findStep_lb_le (groupOpen s) (by simpa [hlen] using h)
  rw [groupOpen_cur, hlen] at hfind
  have hlook : (readyToEmit s).lb.toNat ≤ (findStep (groupOpen s)).lb.toNat := lookaheadStep_lb_le _
  omega

theorem readyToEmit_cur : (readyToEmit s).cur = s.cur := by simp [readyToEmit]

theorem readyToEmit_lOp : (readyToEmit s).lOp = s.lOp :=
  congrArg Untouched.lOp (show (readyToEmit s).untouched = s.untouched by simp [readyToEmit])

theorem tokenStep_midstep (hop : s.lOp = 0) : (tokenStep s).midstep = s.midstep := by
  rw [tokenStep, cutTrack_midstep]
  exact (emitToken_midstep (readyToEmit s) ((readyToEmit_lOp s).trans hop)).trans (by simp [readyToEmit])

/-- TOKEN_STEP moves the cursor on. -/
theorem cur_lt_tokenStep (hop : s.lOp = 0) (hmax : s.lLen.toNat < 2 ^ 24) (hcur : s.cur.toNat < s.lLen.toNat) :
    s.cur.toNat < (tokenStep s).cur.toNat := by
  have hc := readyToEmit_cur s
  have hlb := readyToEmit_lb_le s hcur.le
  have h := cur_lt_emitToken (readyToEmit s) ((readyToEmit_lOp s).trans hop) (by rw [hc]; omega) (by rw [hc]; omega)
  rw [hc] at h
  rw [tokenStep, cutTrack_cur]
  exact h

theorem tokenStep_advances (hrun : s.phase = .run) (hst : s.stage = .encodeLoop) (hfits : LoopFits s)
    (hcur : s.cur.toNat < s.lLen.toNat) : Advances s (tokenStep s) := by
  obtain ⟨hop, hmax⟩ := hfits.encode hst
  rcases tokenStep_hiddenOrCompleted s with hr | hc
  · have hu := tokenStep_untouched s
    have htrun : (tokenStep s).phase = .run := (congrArg Reported.phase hr).trans hrun
    have htop : (tokenStep s).lOp = s.lOp := congrArg Untouched.lOp hu
    have hlen : (tokenStep s).lLen = s.lLen := congrArg Untouched.lLen hu
    have htst : (tokenStep s).stage = .encodeLoop := (stage_congr (tokenStep_midstep s hop)).trans hst
    refine .inr ⟨htrun, ⟨fun _ => by rw [htop, hlen]; exact ⟨hop, hmax⟩, fun h => ?_⟩, ?_⟩
    · cases htst.symm.trans h
    · have hless := cur_lt_tokenStep s hop hmax hcur
      rw [opsLeft_encodeLoop hrun hst, opsLeft_encodeLoop htrun htst, hlen]
      omega
  · exact .inl hc

theorem encodeFinish_completed (hop : s.lOp = 0) : Completed (encodeFinish s) := by
  have henc : (flagPad s).encoding = true := by simp [State.encoding, hop]
  unfold encodeFinish selectTrailer
  dsimp only
  split
  · exact trailerStoredEffect_completed _
  · rw [streamEffect, trailerCompressedEffect, if_pos henc]
    exact complete_completed ..

/-! ## DECODE advances -/

theorem encoding_eq_false {s : State} (hop : s.lOp ≠ 0) : s.encoding = false := decide_eq_false hop

theorem want_lt : s.want < 2 ^ 24 := by
  have := s.rawLen.isLt
  unfold State.want
  omega

theorem trailerCompressedEffect_advances (hrun : s.phase = .run) (hst : s.stage = .dispatch) (hop : s.lOp ≠ 0)
    (enc : BitVec 24) (hdr : Byte) (inc : Word) : Advances s (trailerCompressedEffect enc hdr inc s) := by
  rw [trailerCompressedEffect, encoding_eq_false hop, if_neg (by decide), readHeader]
  split
  · exact .inl (raise_completed ..)
  · refine .inr ⟨hrun, ⟨nofun, fun _ => hop⟩, ?_⟩
    rw [opsLeft_dispatch hrun hst, opsLeft_decodeLoop (by exact hrun) (openStream_stage ..)]
    have := want_lt (openStream (s.lLen.toNat - enc.toNat) (enc.toNat - hdr.toNat)
      ((s.lLen.toNat - enc.toNat + enc.toNat + inc.toNat) % 2 ^ 32) s)
    split <;> omega

/-- A token that adds output within the wanted length lowers the bound, whatever its flag bit leaves in dk. -/
theorem advances_of_output {s t : State} (hrun : s.phase = .run) (hst : s.stage = .decodeLoop) (hfits : LoopFits s)
    (hphase : t.phase = s.phase) (hstage : t.stage = s.stage) (hwant : t.want = s.want) (hop : t.lOp = s.lOp)
    (hoc : s.oc.toNat < s.want) (hmore : s.oc.toNat < t.oc.toNat) : Advances s t := by
  have htrun : t.phase = .run := hphase.trans hrun
  have htst : t.stage = .decodeLoop := hstage.trans hst
  refine .inr ⟨htrun, ⟨fun h => ?_, fun _ => by rw [hop]; exact hfits.decode hst⟩, ?_⟩
  · cases htst.symm.trans h
  · rw [opsLeft_decodeLoop hrun hst, opsLeft_decodeLoop htrun htst, hwant]
    have : (if t.dk = 8 then 1 else 0) ≤ 1 := by split <;> decide
    omega

@[simp] theorem copyMatch_midstep (dist k : Nat) : (copyMatch dist k s).midstep = s.midstep := by
  induction k generalizing s with
  | zero => rfl
  | succ k ih => exact ih (copyByte dist s)

theorem copyMatch_oc (dist k : Nat) (h : s.oc.toNat + k < 2 ^ 24) :
    (copyMatch dist k s).oc.toNat = s.oc.toNat + k := by
  induction k generalizing s with
  | zero => rfl
  | succ k ih =>
    have hbyte : (copyByte dist s).oc.toNat = s.oc.toNat + 1 := by
      rw [copyByte_oc, BitVec.toNat_ofNat]
      omega
    rw [copyMatch, ih (copyByte dist s) (by omega), hbyte]
    omega

/-- MATCH_STEP raises BAD_DISTANCE, or copies some of the wanted bytes. -/
theorem matchStep_cases (hoc : s.oc.toNat < s.want) {len : Nat} (hlen : 0 < len) (dist : Nat) :
    (∃ u, matchStep len dist s = raise .badDistance u) ∨
      ∃ k u, matchStep len dist s = copyMatch dist k u ∧ 0 < k ∧ s.oc.toNat + k ≤ s.want ∧
        u.stage = s.stage ∧ u.want = s.want ∧ u.phase = s.phase ∧ u.oc = s.oc := by
  have hocSame : (consumeToken 2 s).oc = s.oc := rfl
  have hwantSame : (consumeToken 2 s).want = s.want := rfl
  unfold matchStep
  dsimp only
  rw [hocSame, hwantSame]
  split
  · exact .inl ⟨_, rfl⟩
  · split
    · exact .inr ⟨_, _, rfl, by omega, by omega, rfl, rfl, rfl, rfl⟩
    · exact .inr ⟨_, _, rfl, hlen, by omega, rfl, rfl, rfl, rfl⟩

theorem matchStep_advances (hrun : s.phase = .run) (hst : s.stage = .decodeLoop) (hfits : LoopFits s)
    (hoc : s.oc.toNat < s.want) {len : Nat} (hlen : 0 < len) (dist : Nat) : Advances s (matchStep len dist s) := by
  have hop : (matchStep len dist s).lOp = s.lOp := congrArg Untouched.lOp (matchStep_untouched s len dist)
  rcases matchStep_cases s hoc hlen dist with ⟨u, h⟩ | ⟨k, u, h, hk, hle, hstage, hwant, hphase, hocSame⟩
  · rw [h]
    exact .inl (raise_completed ..)
  · have hmax := want_lt s
    have hcount : (copyMatch dist k u).oc.toNat = s.oc.toNat + k := by
      rw [copyMatch_oc u dist k (by rw [hocSame]; omega), hocSame]
    rw [h] at hop ⊢
    exact advances_of_output hrun hst hfits ((congrArg Reported.phase (copyMatch_reported u dist k)).trans hphase)
      ((stage_congr (copyMatch_midstep u dist k)).trans hstage) ((want_congr (copyMatch_midstep u dist k)).trans hwant)
      hop hoc (by omega)

theorem litStep_advances (hrun : s.phase = .run) (hst : s.stage = .decodeLoop) (hfits : LoopFits s)
    (hoc : s.oc.toNat < s.want) (b : Byte) : Advances s (litStep b s) := by
  have hmax := want_lt s
  have hcount : (litStep b s).oc.toNat = (s.oc.toNat + 1) % 2 ^ 24 := BitVec.toNat_ofNat ..
  exact advances_of_output hrun hst hfits rfl rfl rfl rfl hoc (by omega)

theorem flagStep_advances (hrun : s.phase = .run) (hst : s.stage = .decodeLoop) (hfits : LoopFits s)
    (hdk : s.dk = 8) (f : Byte) : Advances s (flagStep f s) := by
  refine .inr ⟨hrun, ⟨hfits.encode, hfits.decode⟩, ?_⟩
  have hwant : (flagStep f s).want = s.want := rfl
  rw [opsLeft_decodeLoop hrun hst, opsLeft_decodeLoop (by exact hrun) (by exact hst), flagStep_dk, flagStep_oc, hwant,
    if_pos hdk, if_neg (by decide)]
  omega

theorem truncate_advances (hrun : s.phase = .run) (hst : s.stage = .decodeLoop) : Advances s (truncate s) := by
  refine .inr ⟨hrun, ⟨nofun, nofun⟩, ?_⟩
  rw [opsLeft_decodeLoop hrun hst, opsLeft_decodeEnd (by exact hrun) rfl]
  omega

/-! ## Every command ends -/

/-- One operation of a running command ends it or lowers its bound. -/
theorem engineOp_advances (hrun : s.phase = .run) (hfits : LoopFits s) : Advances s (engineOp s) := by
  cases hst : s.stage with
  | dispatch =>
    rcases engineOp_dispatch hst with ⟨hop, h⟩ | ⟨e, h⟩ | ⟨hop, i, hi, h⟩ <;> rw [h]
    · exact encodeBegin_advances s hrun hst hop
    · exact .inl (raise_completed e s)
    · rcases fetchTrailer_shape hi with rfl | ⟨enc, hdr, inc, rfl⟩
      · exact .inl (trailerStoredEffect_completed s)
      · exact trailerCompressedEffect_advances s hrun hst (by rw [hop]; decide) enc hdr inc
  | encodeLoop =>
    rw [engineOp_encodeLoop hst]
    split
    · next hcur => exact tokenStep_advances s hrun hst hfits hcur
    · exact .inl (encodeFinish_completed s (hfits.encode hst).1)
  | decodeLoop =>
    have henc : s.encoding = false := encoding_eq_false (hfits.decode hst)
    rcases engineOp_decodeLoop hst with ⟨i, hi, h⟩ | h | h <;> rw [h]
    · obtain ⟨hoc, ⟨hdk, f, rfl⟩ | ⟨b, rfl⟩ | ⟨len, dist, hlen, rfl⟩⟩ := fetchToken_cases hi
      · rw [streamEffect, flagEffect, henc]
        exact flagStep_advances s hrun hst hfits hdk f
      · rw [streamEffect, litEffect, henc]
        exact litStep_advances s hrun hst hfits hoc b
      · rw [streamEffect, matchEffect, henc]
        exact matchStep_advances s hrun hst hfits hoc hlen dist
    · exact truncate_advances s hrun hst
    · exact .inl (decodeFinish_completed s)
  | decodeEnd =>
    rw [engineOp_decodeEnd hst]
    exact .inl (decodeFinish_completed s)

/-- 70_reset_and_hazards R340: the operation bound is one, so the rest of a running command ends it. -/
theorem runCommand_completed (hrun : s.phase = .run) (hfits : LoopFits s) : Completed (runCommand s) := by
  refine runOps_completed hrun _ (runOps_ends (P := LoopFits) opsLeft (fun t ht hok => ?_) (fun t ht hok hgo => ?_)
    (fun t ht _ => opsLeft_pos ht) (opsLeft s) s hfits (Nat.le_refl _))
  · rcases engineOp_advances t ht hok with hc | ⟨-, hfit, -⟩
    · exact loopFits_of_midstep_none hc.midstep
    · exact hfit
  · rcases engineOp_advances t ht hok with hc | ⟨-, -, hlt⟩
    · cases hgo.symm.trans hc.phase
    · exact hlt

/-- The latched command of a running engine is completed by its completion step (45_commands R242). -/
theorem exec_latched_completed (hrun : s.phase = .run) (hfits : LoopFits s) :
    ∃ t, exec (commandOf s.lOp s.lMode s.lExpv) s = .next t ∧ Completed t := by
  have hc := runCommand_completed s hrun hfits
  refine ⟨runCommand s, ?_, hc⟩
  rw [exec_commandOf, command_run hrun, withCommand_self, ended_idle hc.phase]

end

/-- Settles O56: the engine's turn is the latched command's completion step, which ends; a host transition while BUSY
moves only the inputs and the data read; and a command's transition is a whole one. -/
theorem busyEngineHasOneStep : Obligations.BusyEngineHasOneStep := by
  refine ⟨fun s _ hrun hmoves => ?_, fun s t hinv hrun hmoves hreset hstep => ?_, fun s t hmid hstep => ?_⟩
  · have hexec : step s = exec (commandOf s.lOp s.lMode s.lExpv) (popTurn s) :=
      step_of_fetch_instr ((fetch_engineMoves hmoves).trans (engineFetch_run (s := popTurn s) hrun))
    have hfits : LoopFits (popTurn s) := loopFits_of_midstep_none hmoves.1
    obtain ⟨t, ht, hc⟩ := exec_latched_completed (popTurn s) hrun hfits
    exact ⟨t, hexec.trans ht, hexec, hc.phase, hc.busy, hc.done⟩
  · have hhost : HostStep (popTurn s) t := hostStep_of_hostFetch (by
      rw [← fetch_hostMoves hmoves, ← step_eq_fetch_result]; exact hstep)
    obtain ⟨inputs, rdata, rfl⟩ := hhost.of_busy (busy_of_inv hinv hrun) hreset
    exact ⟨hrun, ⟨rfl, rfl, rfl, rfl, rfl, rfl, rfl, rfl⟩, fun _ => rfl, fun _ => rfl⟩
  · exact (transition_of_step hstep).midstep hmid

end Sys2Proof.Machine


/-! # Every step keeps a legal state legal: O48 -/

namespace Sys2Proof.Machine

/-! ## The RAMs -/

/-- A RAM in canonical form inside its capacity (10_state R39 to R41, 20_memory R83). -/
def Memory.Within (m : Memory) (cap : Nat) : Prop := Memory.wf m ∧ ∀ c ∈ m, c.1 < cap

theorem Memory.Within.nil (cap : Nat) : Memory.Within [] cap := ⟨Memory.wf_nil, nofun⟩

/-- One byte written below the capacity. -/
theorem Memory.Within.set {m : Memory} {cap i : Nat} (h : m.Within cap) (hi : i < cap) (b : Byte) :
    (Memory.set m i b).Within cap :=
  ⟨Memory.wf_set h.1 i b, Memory.lt_set h.2 hi b⟩

/-- A window write stores nothing at or above the capacity (20_memory R62). -/
theorem Memory.Within.setBytes_belowCap {m : Memory} {cap : Nat} (h : m.Within cap) (a : Nat) (bs : List Byte) :
    (Memory.setBytes m a (belowCap cap a bs)).Within cap := by
  refine ⟨Memory.wf_setBytes h.1 a _, ?_⟩
  rcases Nat.le_total a cap with ha | ha
  · refine Memory.lt_setBytes h.2 a _ ?_
    rw [belowCap, List.length_take]
    omega
  · rw [belowCap, Nat.sub_eq_zero_of_le ha, List.take_zero]
    exact h.2

/-! ## The end of a command -/

/-- What a legal state keeps through every operation of a command: SRC and WORK legal, and CTRL's START and reserved
bits 0 (10_state R23). -/
structure BaseOk (s : State) : Prop where
  src : s.src.Within s.params.srcCap
  work : s.work.Within s.params.workCap
  ctrl : s.ctrl &&& 0xFFFFFFE1 = 0

theorem State.Inv.base {s : State} (h : s.Inv) : BaseOk s := by
  obtain ⟨⟨hsrc, hsrcCap, -, -, hwork, hworkCap⟩, ⟨hctrl, -, -⟩, -⟩ := h
  exact ⟨⟨hsrc, hsrcCap⟩, ⟨hwork, hworkCap⟩, hctrl⟩

/-- Of the base a command writes WORK only. -/
theorem BaseOk.of_untouched {s t : State} (h : BaseOk s) (hu : t.untouched = s.untouched)
    (hwork : t.work.Within s.params.workCap) : BaseOk t := by
  have hsrc : t.src = s.src := congrArg Untouched.src hu
  have hctrl : t.ctrl = s.ctrl := congrArg Untouched.ctrl hu
  have hparams : t.params = s.params := congrArg Untouched.params hu
  exact ⟨by rw [hsrc, hparams]; exact h.src, by rw [hparams]; exact hwork, by rw [hctrl]; exact h.ctrl⟩

section
variable {s t : State}

/-- An idle state is legal when its registers and DST are. -/
theorem inv_of_idle (hbase : BaseOk s) (hphase : s.phase = .idle) (hmid : s.midstep = none)
    (hdst : s.dst.map Prod.fst = List.range s.dstLen.toNat) (hcap : s.dstLen.toNat ≤ s.params.dstCap)
    (hstatus : s.status.toNat ∈ idleStatuses)
    (herror : s.error = true → s.dstLen = 0 ∧ s.cutPak = 0 ∧ s.cutRaw = 0 ∧ s.pakLen = 0) : s.Inv := by
  obtain ⟨⟨hsrc, hsrcCap⟩, ⟨hwork, hworkCap⟩, hctrl⟩ := hbase
  refine ⟨⟨hsrc, hsrcCap, hdst, hcap, hwork, hworkCap⟩, ⟨hctrl, fun hrun => ?_, fun _ => ⟨hstatus, hmid, herror⟩⟩,
    engineOk_of_idle hphase⟩
  cases hphase.symm.trans hrun

/-- A running state is legal when its registers read as START left them (45_commands R230) and the engine's are. -/
theorem inv_of_run (hbase : BaseOk s) (hphase : s.phase = .run) (hdst : s.dst = [])
    (hregs : s.status = 1 ∧ s.dstLen = 0 ∧ s.cutPak = 0 ∧ s.cutRaw = 0 ∧ s.pakLen = 0) (hengine : EngineOk s) :
    s.Inv := by
  obtain ⟨⟨hsrc, hsrcCap⟩, ⟨hwork, hworkCap⟩, hctrl⟩ := hbase
  have hlen : s.dstLen.toNat = 0 := congrArg BitVec.toNat hregs.2.1
  refine ⟨⟨hsrc, hsrcCap, ?_, ?_, hwork, hworkCap⟩, ⟨hctrl, fun _ => hregs, fun hidle => ?_⟩, hengine⟩
  · rw [hdst, hlen]; rfl
  · rw [hlen]; exact Nat.zero_le _
  · cases hphase.symm.trans hidle

/-- DST holds no defined byte while a command runs (20_memory R82). -/
theorem State.Inv.dst_of_run (h : s.Inv) (hrun : s.phase = .run) : s.dst = [] := by
  obtain ⟨⟨-, -, hdst, -⟩, ⟨-, hregs, -⟩, -⟩ := h
  obtain ⟨-, hlen, -⟩ := hregs hrun
  rw [hlen] at hdst
  exact List.map_eq_nil_iff.1 hdst

/-- A command that goes on from a legal state: it has reported nothing, so only WORK and the engine's registers are to
be checked. -/
theorem inv_of_goesOn (hinv : s.Inv) (hrun : s.phase = .run) (hu : t.untouched = s.untouched)
    (hr : t.reported = s.reported) (hwork : t.work.Within s.params.workCap) (hengine : EngineOk t) : t.Inv := by
  have hdst := hinv.dst_of_run hrun
  obtain ⟨-, ⟨-, hregs, -⟩, -⟩ := id hinv
  simp only [State.reported, Reported.mk.injEq] at hr
  obtain ⟨hstatus, hdstLen, hcutPak, hcutRaw, hpakLen, hdstSame, hphase⟩ := hr
  refine inv_of_run (hinv.base.of_untouched hu hwork) (hphase.trans hrun) (hdstSame.trans hdst) ?_ hengine
  rw [hstatus, hdstLen, hcutPak, hcutRaw, hpakLen]
  exact hregs hrun

theorem statusError_mem_idleStatuses (e : ErrorKind) : (statusError e).toNat ∈ idleStatuses := by
  cases e <;> decide

/-- An error leaves a legal state (60_exceptions R304). -/
theorem raise_inv (h : BaseOk s) (e : ErrorKind) : (raise e s).Inv :=
  inv_of_idle ⟨h.src, h.work, h.ctrl⟩ rfl rfl rfl (Nat.zero_le _) (statusError_mem_idleStatuses e)
    fun _ => ⟨rfl, rfl, rfl, rfl⟩

theorem statusDone_error : ∀ frame trunc clamp : Bool, (statusDone frame trunc clamp).getLsbD 2 = false := by
  decide

/-- A success leaves a legal state when its output fits DST and its warnings are a legal STATUS (45_commands R240). -/
theorem complete_inv (h : BaseOk s) {out : List Byte} {frame trunc clamp : Bool} (pak raw stream : Nat)
    (hout : out.length ≤ s.params.dstCap) (hstatus : (statusDone frame trunc clamp).toNat ∈ idleStatuses) :
    (complete out frame trunc clamp pak raw stream s).Inv := by
  obtain ⟨-, ⟨-, hcap⟩, -⟩ := s.params.legal
  have hlen : (complete out frame trunc clamp pak raw stream s).dstLen.toNat = out.length := by
    rw [complete_dstLen, BitVec.toNat_ofNat]
    exact Nat.mod_eq_of_lt (by omega)
  refine inv_of_idle ⟨h.src, h.work, h.ctrl⟩ rfl rfl ?_ ?_ hstatus fun herror => ?_
  · rw [hlen, complete_dst, Memory.map_fst_ofBytes]
  · rw [hlen]; exact hout
  · have : (statusDone frame trunc clamp).getLsbD 2 = true := herror
    cases (statusDone_error frame trunc clamp).symm.trans this

theorem dstCap_ge : 0x01000004 ≤ s.params.dstCap := by
  obtain ⟨-, ⟨hcap, -⟩, -⟩ := s.params.legal
  exact hcap

theorem workCap_ge : 18874377 ≤ s.params.workCap := by
  obtain ⟨-, -, hcap, -⟩ := s.params.legal
  exact hcap

end

/-! ## ENCODE keeps a legal state -/

theorem engineOk_encodeLoop {s : State} (hst : s.stage = .encodeLoop) (h : EncodeOk s) : EngineOk s := by
  refine ⟨fun _ => h, fun ⟨_, hloop⟩ => ?_, fun ⟨_, hend⟩ => ?_⟩
  · cases hst.symm.trans hloop
  · cases hst.symm.trans hend

/-- The stream so far leaves room in WORK and in the write index for one more token (43_flag_packer R186). -/
theorem EncodeOk.wp_le {s : State} (h : EncodeOk s) : s.wp.toNat ≤ 18874367 := by
  obtain ⟨-, hlen, hcur, -, hwp, -⟩ := h
  have : Config.rawMax = 16777215 := rfl
  omega

section
variable {s : State}

/-- CUT_INIT stands before the first token (44_frame_builder R200). -/
theorem encodeBegin_inv (hinv : s.Inv) (hrun : s.phase = .run) (hop : s.lOp = 0) : (encodeBegin s).Inv := by
  unfold encodeBegin
  split
  · exact raise_inv hinv.base _
  · next hok =>
    have hlen := encodeError_none hok
    refine inv_of_goesOn hinv hrun rfl rfl hinv.base.work (engineOk_encodeLoop rfl ?_)
    have hraw : (BitVec.ofNat 24 s.lLen.toNat).toNat = s.lLen.toNat := by
      rw [BitVec.toNat_ofNat]; exact Nat.mod_eq_of_lt hlen
    exact ⟨hop, Nat.le_of_lt_succ hlen, Nat.zero_le _, Nat.le_refl _, Nat.le_add_left ..,
      fun h => absurd h (Nat.lt_irrefl 8),
      Nat.le_refl _, fun _ => hraw, fun h => absurd rfl h⟩

/-- A token is emitted into an open group (43_flag_packer R180). -/
structure GroupIsOpen (s : State) : Prop where
  encode : EncodeOk s
  gk : s.gk.toNat < 8
  work : s.work.Within s.params.workCap

/-- CUT_TRACK stands at a boundary after a token (44_frame_builder R201). -/
structure AfterToken (s : State) : Prop where
  encode : EncodeOk s
  wp_pos : 0 < s.wp.toNat
  work : s.work.Within s.params.workCap

theorem groupOpen_isOpen (h : EncodeOk s) (hwork : s.work.Within s.params.workCap) : GroupIsOpen (groupOpen s) := by
  have hwpMax := h.wp_le
  have hcap := workCap_ge (s := s)
  obtain ⟨hop, hlen, hcurLe, hgk, hwp, hfp, hpak, hpak0, hpakPos⟩ := h
  by_cases hgk8 : s.gk = 8
  · have e : groupOpen s = openGroup 0 s := by simp [groupOpen, flagEffect, State.encoding, hgk8, hop]
    have hwpNext : (openGroup 0 s).wp.toNat = s.wp.toNat + 1 := by
      rw [openGroup_wp, BitVec.toNat_ofNat]; omega
    have hgkNat : s.gk.toNat = 8 := congrArg BitVec.toNat hgk8
    rw [e]
    refine ⟨⟨hop, hlen, hcurLe, Nat.zero_le _, ?_, fun _ => ?_, ?_, hpak0, hpakPos⟩,
      show (0 : BitVec 4).toNat < 8 by decide, hwork.set (by omega) 0⟩
    · rw [hwpNext, openGroup_gk, openGroup_cur]
      have : (0 : BitVec 4).toNat = 0 := rfl
      omega
    · rw [hwpNext, openGroup_fp]; omega
    · rw [hwpNext, openGroup_pakTmp]; omega
  · have hne : s.gk.toNat ≠ 8 := fun h => hgk8 (BitVec.eq_of_toNat_eq h)
    have e : groupOpen s = s := if_neg hgk8
    rw [e]
    exact ⟨⟨hop, hlen, hcurLe, hgk, hwp, hfp, hpak, hpak0, hpakPos⟩, by omega, hwork⟩

theorem lookaheadStep_isOpen (h : GroupIsOpen s) : GroupIsOpen (lookaheadStep s) := by
  unfold lookaheadStep
  split
  · split
    · exact ⟨h.encode, h.gk, h.work⟩
    · exact h
  · exact h

/-- TOKEN_STEP finds its token with the group open: FIND and LOOKAHEAD write none of the packer's registers. -/
theorem readyToEmit_isOpen (h : EncodeOk s) (hwork : s.work.Within s.params.workCap) :
    GroupIsOpen (readyToEmit s) := by
  obtain ⟨henc, hgk, hworkOpen⟩ := groupOpen_isOpen h hwork
  exact lookaheadStep_isOpen ⟨henc, hgk, hworkOpen⟩

/-- A token of `len` bytes of input in `n` bytes of payload, folded into the open group, keeps R186's bound when its
payload and its flag bit are no longer than 9/8 of its input. -/
theorem afterToken_of_emit {t : State} (h : GroupIsOpen s) {n len : Nat} (hu : t.untouched = s.untouched)
    (hcut : t.fp = s.fp ∧ t.pakTmp = s.pakTmp ∧ t.rawTmp = s.rawTmp)
    (htgk : t.gk = BitVec.ofNat 4 (s.gk.toNat + 1)) (htwp : t.wp = BitVec.ofNat 25 (s.wp.toNat + n))
    (htcur : t.cur = BitVec.ofNat 24 (s.cur.toNat + len)) (hn : n ≤ 2) (hcost : 8 * n + 1 ≤ 9 * len)
    (hlen : s.cur.toNat + len ≤ s.lLen.toNat) (hwork : t.work.Within s.params.workCap) : AfterToken t := by
  obtain ⟨henc, hgk, -⟩ := h
  have hwpMax := henc.wp_le
  obtain ⟨hop, hmax, -, -, hwp, hfp, hpak, hpak0, hpakPos⟩ := henc
  obtain ⟨hfpSame, hpakSame, hrawSame⟩ := hcut
  have hraw : Config.rawMax = 16777215 := rfl
  have htopSame : t.lOp = s.lOp := congrArg Untouched.lOp hu
  have htlen : t.lLen = s.lLen := congrArg Untouched.lLen hu
  have hparams : t.params = s.params := congrArg Untouched.params hu
  have hgkNat : t.gk.toNat = s.gk.toNat + 1 := by rw [htgk, BitVec.toNat_ofNat]; omega
  have hwpNat : t.wp.toNat = s.wp.toNat + n := by rw [htwp, BitVec.toNat_ofNat]; omega
  have hcurNat : t.cur.toNat = s.cur.toNat + len := by rw [htcur, BitVec.toNat_ofNat]; omega
  have hfpLt := hfp hgk
  refine ⟨?_, by omega, hparams ▸ hwork⟩
  rw [EncodeOk, htopSame, htlen, hgkNat, hwpNat, hcurNat, hfpSame, hpakSame, hrawSame]
  exact ⟨hop, hmax, hlen, hgk, by omega, fun _ => by omega, by omega, hpak0, hpakPos⟩

theorem flagFold_work_within (h : GroupIsOpen s) (b : Bool) : (flagFold b s).work.Within s.params.workCap := by
  obtain ⟨henc, hgk, hwork⟩ := h
  have hwpMax := henc.wp_le
  have hcap := workCap_ge (s := s)
  obtain ⟨-, -, -, -, -, hfp, -⟩ := henc
  have hfpLt := hfp hgk
  rw [flagFold_work]
  exact hwork.set (by omega) _

theorem emitLit_afterToken (h : GroupIsOpen s) (hcur : s.cur.toNat < s.lLen.toNat) (b : Byte) :
    AfterToken (emitLit b s) := by
  have hwpMax := h.encode.wp_le
  have hcap := workCap_ge (s := s)
  exact afterToken_of_emit h (n := 1) (len := 1) rfl ⟨rfl, rfl, rfl⟩ rfl rfl rfl (by decide) (by decide) hcur
    ((flagFold_work_within h false).set (show s.wp.toNat < _ by omega) b)

theorem emitMatch_afterToken (h : GroupIsOpen s) {len : Nat} (hmin : 3 ≤ len)
    (hlen : s.cur.toNat + len ≤ s.lLen.toNat) (dist : Nat) : AfterToken (emitMatch len dist s) := by
  have hwpMax := h.encode.wp_le
  have hcap := workCap_ge (s := s)
  exact afterToken_of_emit h (n := 2) rfl ⟨rfl, rfl, rfl⟩ rfl rfl rfl (by decide) (by omega) hlen
    (((flagFold_work_within h true).set (show s.wp.toNat < _ by omega) _).set (show s.wp.toNat + 1 < _ by omega) _)

theorem emitToken_afterToken (h : GroupIsOpen s) (hcur : s.cur.toNat < s.lLen.toNat)
    (hlb : s.cur.toNat + s.lb.toNat ≤ s.lLen.toNat) : AfterToken (emitToken s) := by
  have hop : s.lOp = 0 := h.encode.1
  rw [emitToken_of_encode s hop]
  split
  · next hmin => exact emitMatch_afterToken h hmin hlb _
  · exact emitLit_afterToken h hcur _

/-- A boundary is taken only where it is better than the cut so far, so it is better than the whole input
(44_frame_builder R201). -/
theorem cutTrack_encodeOk (h : AfterToken s) : EncodeOk (cutTrack s) := by
  obtain ⟨⟨hop, hmax, hcur, hgk, hwp, hfp, hpak, hpak0, hpakPos⟩, hpos, -⟩ := h
  unfold cutTrack
  split
  · next hbetter =>
    have hraw : Config.rawMax = 16777215 := rfl
    have hshort : s.wp.toNat + (s.lLen.toNat - s.cur.toNat) < s.lLen.toNat := by
      by_cases h0 : s.pakTmp = 0
      · have hzero : s.pakTmp.toNat = 0 := congrArg BitVec.toNat h0
        have hwhole := hpak0 h0
        omega
      · have hcut := hpakPos h0
        omega
    have hpakNat : (BitVec.ofNat 24 s.wp.toNat).toNat = s.wp.toNat := by rw [BitVec.toNat_ofNat]; omega
    have hrawNat : (BitVec.ofNat 24 (s.lLen.toNat - s.cur.toNat)).toNat = s.lLen.toNat - s.cur.toNat := by
      rw [BitVec.toNat_ofNat]; omega
    refine ⟨hop, hmax, hcur, hgk, hwp, hfp, hpakNat.le, fun h0 => ?_, fun _ => ?_⟩
    · have : (BitVec.ofNat 24 s.wp.toNat).toNat = 0 := congrArg BitVec.toNat h0
      omega
    · dsimp only
      omega
  · exact ⟨hop, hmax, hcur, hgk, hwp, hfp, hpak, hpak0, hpakPos⟩

theorem tokenStep_reported (hop : s.lOp = 0) : (tokenStep s).reported = s.reported := by
  have hready : (readyToEmit s).reported = s.reported := by simp [readyToEmit]
  refine (cutTrack_reported _).trans (Eq.trans ?_ hready)
  show (emitToken (readyToEmit s)).reported = (readyToEmit s).reported
  rw [emitToken_of_encode _ ((readyToEmit_lOp s).trans hop)]
  split <;> rfl

theorem tokenStep_inv (hinv : s.Inv) (hrun : s.phase = .run) (hst : s.stage = .encodeLoop) (h : EncodeOk s)
    (hcur : s.cur.toNat < s.lLen.toNat) : (tokenStep s).Inv := by
  have hop : s.lOp = 0 := h.1
  have hready := readyToEmit_isOpen h hinv.base.work
  have hu : (readyToEmit s).untouched = s.untouched := by simp [readyToEmit]
  have hlen : (readyToEmit s).lLen = s.lLen := congrArg Untouched.lLen hu
  have hparams : (emitToken (readyToEmit s)).params = s.params :=
    congrArg Untouched.params ((emitToken_untouched _).trans hu)
  have htoken : AfterToken (emitToken (readyToEmit s)) := emitToken_afterToken hready
    (by rw [readyToEmit_cur, hlen]; exact hcur) (by rw [readyToEmit_cur, hlen]; exact readyToEmit_lb_le s hcur.le)
  have hwork : (tokenStep s).work.Within s.params.workCap := by
    rw [tokenStep, cutTrack_work, ← hparams]
    exact htoken.work
  exact inv_of_goesOn hinv hrun (tokenStep_untouched s) (tokenStep_reported hop) hwork
    (engineOk_encodeLoop ((stage_congr (tokenStep_midstep s hop)).trans hst) (cutTrack_encodeOk htoken))

theorem storedFrame_length (raw : List Byte) : (storedFrame raw).length = align4 raw.length + 4 := by
  have := le_align4 raw.length
  simp only [storedFrame, payloadBytes, List.length_append, List.length_replicate, leBytes_length]
  omega

theorem compressedFrame_length (verbatim kept : List Byte) (enc : BitVec 24) (hdr : Byte) (inc : Word) :
    (compressedFrame verbatim kept enc hdr inc).length = verbatim.length + kept.length + (hdr.toNat - 8) + 8 := by
  simp only [compressedFrame, payloadBytes, List.length_append, List.length_replicate, leBytes_length, rev_length,
    List.length_singleton]

/-- 44_frame_builder R206: the pad brings the frame to a multiple of 4. -/
theorem headerLenOf_toNat (q : Nat) : (BitVec.ofNat 8 (headerLenOf q)).toNat = 8 + (align4 q - q) := by
  have := align4_lt q
  rw [BitVec.toNat_ofNat, headerLenOf]
  omega

/-- The selected frame fits DST: the stored one by the bound on the input, the other because it is not longer
(44_frame_builder R202). -/
theorem selectedFrame_inv (h : BaseOk s) (hop : s.lOp = 0) (hmax : s.lLen.toNat ≤ Config.rawMax) :
    (streamEffect (selectTrailer s) s).Inv := by
  have henc : s.encoding = true := by simp [State.encoding, hop]
  have hcap := dstCap_ge (s := s)
  have hraw : Config.rawMax = 16777215 := rfl
  have hstoredLen : align4 s.lLen.toNat + 4 ≤ s.params.dstCap := by
    have := align4_lt s.lLen.toNat
    have := align4_mod s.lLen.toNat
    omega
  unfold selectTrailer
  dsimp only
  split
  · rw [streamEffect, trailerStoredEffect, if_pos henc]
    refine complete_inv h _ _ _ ?_ (by decide)
    rw [storedFrame_length, srcBytes_length]
    exact hstoredLen
  · next hselect =>
    rw [streamEffect, trailerCompressedEffect, if_pos henc]
    refine complete_inv h _ _ _ ?_ (by decide)
    have hshorter : align4 s.cutSize + 8 ≤ s.lLen.toNat + 4 := by
      simp only [selectsStored, Bool.or_eq_true, decide_eq_true_eq, not_or, Nat.not_lt] at hselect
      exact hselect.1.2
    have hle := le_align4 s.cutSize
    have hlen := le_align4 s.lLen.toNat
    rw [compressedFrame_length, srcBytes_length, workBytes_length, headerLenOf_toNat]
    simp only [State.cutSize] at hshorter hle ⊢
    omega

theorem flagPad_base (h : BaseOk s) (henc : EncodeOk s) : BaseOk (flagPad s) := by
  refine h.of_untouched (flagPad_untouched s) ?_
  have hwpMax := henc.wp_le
  have hcap := workCap_ge (s := s)
  obtain ⟨-, -, -, -, -, hfp, -⟩ := henc
  unfold flagPad
  split
  · next hgk =>
    have hfpLt := hfp (by omega)
    exact h.work.set (by omega) _
  · exact h.work

theorem encodeFinish_inv (h : BaseOk s) (henc : EncodeOk s) : (encodeFinish s).Inv := by
  obtain ⟨hop, hmax, -⟩ := id henc
  exact selectedFrame_inv (flagPad_base h henc) ((flagPad_lOp s).trans hop) (by rw [flagPad_lLen]; exact hmax)

/-! ## DECODE keeps a legal state -/

theorem storedRead_inv (h : BaseOk s) : (storedRead s).Inv := by
  have hcap := dstCap_ge (s := s)
  have hmax : align4 Config.rawMax = 16777216 := rfl
  have hraw : Config.rawMax = 16777215 := rfl
  unfold storedRead
  dsimp only
  split
  · exact raise_inv h _
  · split <;> split
    · exact raise_inv h _
    · refine complete_inv h _ _ _ ?_ (by decide)
      rw [srcBytes_length]
      omega
    · exact raise_inv h _
    · refine complete_inv h _ _ _ ?_ (by decide)
      rw [srcBytes_length]
      omega

/-- What the header checks of 46_frame_reader R264 and R265 let through. -/
theorem headerError_none {T enc hdr inc dstCap : Nat} (h : headerError T enc hdr inc dstCap = none) :
    8 ≤ hdr ∧ hdr < enc ∧ enc ≤ T ∧ (T - enc + enc + inc) % 2 ^ 32 < 2 ^ 24 ∧
      T - enc ≤ (T - enc + enc + inc) % 2 ^ 32 := by
  have hraw : Config.rawMax = 16777215 := rfl
  have hmin : Config.hdrMin = 8 := rfl
  unfold headerError at h
  split at h
  · cases h
  · split at h
    · cases h
    · split at h
      · cases h
      · split at h
        · cases h
        · split at h
          · cases h
          · omega

theorem fetchTrailer_srcCap {i : Instr} (h : fetchTrailer s = .ok i) : s.lLen.toNat ≤ s.params.srcCap := by
  unfold fetchTrailer at h
  dsimp only at h
  split at h
  · cases h
  · next hcap => exact Nat.not_lt.1 hcap

theorem engineOk_decodeLoop (hst : s.stage = .decodeLoop) (h : DecodeOk s) (htrunc : s.warnTrunc = false)
    (hclamp : s.warnClamp = true → s.oc.toNat = s.want) : EngineOk s := by
  refine ⟨fun ⟨_, hloop⟩ => ?_, fun _ => ⟨h, htrunc, hclamp⟩, fun ⟨_, hend⟩ => ?_⟩
  · cases hst.symm.trans hloop
  · cases hst.symm.trans hend

theorem engineOk_decodeEnd (hst : s.stage = .decodeEnd) (h : DecodeOk s) (htrunc : s.warnTrunc = true)
    (hclamp : s.warnClamp = false) : EngineOk s := by
  refine ⟨fun ⟨_, hloop⟩ => ?_, fun ⟨_, hloop⟩ => ?_, fun _ => ⟨h, htrunc, hclamp⟩⟩
  · cases hst.symm.trans hloop
  · cases hst.symm.trans hloop

theorem readHeader_inv (hinv : s.Inv) (hrun : s.phase = .run) (hop : s.lOp = 1)
    (hcap : s.lLen.toNat ≤ s.params.srcCap) (enc : BitVec 24) (hdr : Byte) (inc : Word) :
    (readHeader enc hdr inc s).Inv := by
  unfold readHeader
  split
  · exact raise_inv hinv.base _
  · next hok =>
    obtain ⟨hhdr, hhdrEnc, hencT, hrawMax, hdecRaw⟩ := headerError_none hok
    have hencMax := enc.isLt
    have hdec : (BitVec.ofNat 24 (s.lLen.toNat - enc.toNat)).toNat = s.lLen.toNat - enc.toNat := by
      rw [BitVec.toNat_ofNat]; omega
    have hstream : (BitVec.ofNat 24 (enc.toNat - hdr.toNat)).toNat = enc.toNat - hdr.toNat := by
      rw [BitVec.toNat_ofNat]; omega
    have hraw : (BitVec.ofNat 24 ((s.lLen.toNat - enc.toNat + enc.toNat + inc.toNat) % 2 ^ 32)).toNat =
        (s.lLen.toNat - enc.toNat + enc.toNat + inc.toNat) % 2 ^ 32 := by
      rw [BitVec.toNat_ofNat]; exact Nat.mod_eq_of_lt hrawMax
    refine inv_of_goesOn hinv hrun rfl rfl hinv.base.work (engineOk_decodeLoop rfl ?_ rfl nofun)
    refine ⟨hop, hcap, ?_, ?_, Nat.zero_le _, Nat.zero_le _, Nat.le_refl 8⟩
    · rw [openStream_decLen, openStream_streamLen, openStream_lLen, hdec, hstream]
      omega
    · rw [openStream_decLen, openStream_rawLen, hdec, hraw]
      exact hdecRaw

/-! ### TOKEN_LOOP -/

/-- DECODE's lengths stay, and its indices are in range again. -/
theorem decodeOk_of_lengths {t : State} (h : DecodeOk s) (hu : t.untouched = s.untouched)
    (hlengths : t.decLen = s.decLen ∧ t.streamLen = s.streamLen ∧ t.rawLen = s.rawLen) (hoc : t.oc.toNat ≤ s.want)
    (hip : t.ip.toNat ≤ s.streamLen.toNat) (hdk : t.dk.toNat ≤ 8) : DecodeOk t := by
  obtain ⟨hop, hcap, hframe, hdec, -⟩ := h
  obtain ⟨hdecSame, hstreamSame, hrawSame⟩ := hlengths
  have htop : t.lOp = s.lOp := congrArg Untouched.lOp hu
  have htlen : t.lLen = s.lLen := congrArg Untouched.lLen hu
  have hparams : t.params = s.params := congrArg Untouched.params hu
  have hwant : t.want = s.want := by rw [State.want, State.want, hdecSame, hrawSame]
  rw [DecodeOk, htop, htlen, hparams, hdecSame, hstreamSame, hrawSame, hwant]
  exact ⟨hop, hcap, hframe, hdec, hoc, hip, hdk⟩

theorem streamByte_eq_some {i : Nat} {b : Byte} (h : s.streamByte i = some b) : i < s.streamLen.toNat := by
  unfold State.streamByte at h
  split at h
  · assumption
  · cases h

theorem streamByte_toList_length (i : Nat) :
    (s.streamByte i).toList.length = if i < s.streamLen.toNat then 1 else 0 := by
  unfold State.streamByte
  split <;> rfl

/-- A token is read from payload bytes at hand (30_encoding R100, R101). -/
theorem decodeToken_payload {f : Bool} {bs : List Byte} {i : Instr} (h : (decodeToken f bs).toOption = some i) :
    0 < (payloadBytes i).length ∧ (payloadBytes i).length ≤ bs.length := by
  unfold decodeToken at h
  split at h <;> cases h <;> simp [payloadBytes]

/-- TOKEN_LOOP reads inside the stream (46_frame_reader R267 to R270). -/
theorem fetchToken_consumes {i : Instr} (h : fetchToken s = some i) :
    s.ip.toNat + (payloadBytes i).length ≤ s.streamLen.toNat := by
  unfold fetchToken at h
  split at h
  · split at h
    · obtain ⟨f, hf, rfl⟩ := Option.map_eq_some_iff.1 h
      exact streamByte_eq_some hf
    · obtain ⟨hpos, hle⟩ := decodeToken_payload h
      rw [List.length_append, streamByte_toList_length, streamByte_toList_length] at hle
      split at hle <;> split at hle <;> omega
  · cases h

/-- With the group used up TOKEN_LOOP reads a flag byte and no token (46_frame_reader R268). -/
theorem fetchToken_dk {i : Instr} (h : fetchToken s = some i) (hflag : ∀ f, i ≠ .flag f) : s.dk ≠ 8 := by
  intro hdk
  unfold fetchToken at h
  rw [if_pos hdk] at h
  split at h
  · obtain ⟨f, -, rfl⟩ := Option.map_eq_some_iff.1 h
    exact hflag f rfl
  · cases h

/-- TOKEN_LOOP of a legal state reads a flag byte or a token of `n` bytes. -/
structure ReadsNext (s : State) (n : Nat) : Prop where
  inv : s.Inv
  run : s.phase = .run
  stage : s.stage = .decodeLoop
  oc : s.oc.toNat < s.want
  ip : s.ip.toNat + n ≤ s.streamLen.toNat

theorem ReadsNext.of_fetchToken {i : Instr} (hinv : s.Inv) (hrun : s.phase = .run) (hst : s.stage = .decodeLoop)
    (h : fetchToken s = some i) : ReadsNext s (payloadBytes i).length :=
  ⟨hinv, hrun, hst, (fetchToken_cases h).1, fetchToken_consumes h⟩

/-- What a legal state says of TOKEN_LOOP. -/
theorem State.Inv.decodeLoop (h : s.Inv) (hrun : s.phase = .run) (hst : s.stage = .decodeLoop) :
    DecodeOk s ∧ s.warnTrunc = false ∧ (s.warnClamp = true → s.oc.toNat = s.want) := by
  obtain ⟨-, -, -, hloop, -⟩ := h
  exact hloop ⟨hrun, hst⟩

/-- A clamp completes the output, so nothing is read after it (46_frame_reader R270). -/
theorem warnClamp_of_oc_lt (hinv : s.Inv) (hrun : s.phase = .run) (hst : s.stage = .decodeLoop)
    (hoc : s.oc.toNat < s.want) : s.warnClamp = false := by
  obtain ⟨-, -, hclamp⟩ := hinv.decodeLoop hrun hst
  cases hw : s.warnClamp with
  | false => rfl
  | true =>
    have := hclamp hw
    omega

/-- A turn of TOKEN_LOOP that stays in the loop: of midstep at most CLAMP is written, and CLAMP completes the output
(46_frame_reader R270). -/
theorem inv_of_token {t : State} {n : Nat} (h : ReadsNext s n) (hu : t.untouched = s.untouched)
    (hr : t.reported = s.reported) (hwork : t.work.Within s.params.workCap)
    (clamp : Bool) (hmid : t.midstep = some { s.progress with warnClamp := clamp })
    (hclamp : clamp = true → t.oc.toNat = s.want) (hoc : t.oc.toNat ≤ s.want)
    (hip : t.ip.toNat ≤ s.streamLen.toNat) (hdk : t.dk.toNat ≤ 8) : t.Inv := by
  obtain ⟨hinv, hrun, hst, -, -⟩ := h
  obtain ⟨hdecode, htrunc, -⟩ := hinv.decodeLoop hrun hst
  have hp : t.progress = { s.progress with warnClamp := clamp } := progress_some hmid
  have hdec : t.decLen = s.decLen := (congrArg Progress.decLen hp).trans rfl
  have hstream : t.streamLen = s.streamLen := (congrArg Progress.streamLen hp).trans rfl
  have hraw : t.rawLen = s.rawLen := (congrArg Progress.rawLen hp).trans rfl
  have hstage : t.stage = s.stage := (congrArg Progress.stage hp).trans rfl
  have hwarnTrunc : t.warnTrunc = s.warnTrunc := (congrArg Progress.warnTrunc hp).trans rfl
  have hwarnClamp : t.warnClamp = clamp := congrArg Progress.warnClamp hp
  have hwant : t.want = s.want := by rw [State.want, State.want, hdec, hraw]
  refine inv_of_goesOn hinv hrun hu hr hwork (engineOk_decodeLoop (hstage.trans hst)
    (decodeOk_of_lengths hdecode hu ⟨hdec, hstream, hraw⟩ hoc hip hdk) (hwarnTrunc.trans htrunc) ?_)
  rw [hwarnClamp, hwant]
  exact hclamp

/-- A group that is not used up has room for one more flag bit (46_frame_reader R268). -/
theorem dk_next_le (hdk : s.dk.toNat ≤ 8) (hne : s.dk ≠ 8) : (BitVec.ofNat 4 (s.dk.toNat + 1)).toNat ≤ 8 := by
  have : s.dk.toNat ≠ 8 := fun h => hne (BitVec.eq_of_toNat_eq h)
  rw [BitVec.toNat_ofNat]
  omega

theorem ReadsNext.dk_le {n : Nat} (h : ReadsNext s n) (hne : s.dk ≠ 8) :
    (BitVec.ofNat 4 (s.dk.toNat + 1)).toNat ≤ 8 := by
  obtain ⟨⟨-, -, -, -, -, -, hdk⟩, -⟩ := h.inv.decodeLoop h.run h.stage
  exact dk_next_le hdk hne

theorem ReadsNext.ip_le {n : Nat} (h : ReadsNext s n) :
    (BitVec.ofNat 25 (s.ip.toNat + n)).toNat ≤ s.streamLen.toNat := by
  rw [BitVec.toNat_ofNat]
  exact (Nat.mod_le ..).trans h.ip

/-- CLAMP is not warned while the loop reads, so midstep as it is has the form `inv_of_token` asks for. -/
theorem ReadsNext.midstep {n : Nat} (h : ReadsNext s n) : s.midstep = some { s.progress with warnClamp := false } := by
  rw [← warnClamp_of_oc_lt h.inv h.run h.stage h.oc]
  exact midstep_of_stage (by rw [h.stage]; decide)

theorem flagStep_inv (h : ReadsNext s 1) (f : Byte) : (flagStep f s).Inv :=
  inv_of_token h rfl rfl h.inv.base.work false h.midstep nofun h.oc.le h.ip_le (Nat.zero_le 8)

theorem litStep_inv (h : ReadsNext s 1) (hne : s.dk ≠ 8) (b : Byte) : (litStep b s).Inv := by
  have hoc := h.oc
  have hmax := want_lt s
  have hcap := workCap_ge (s := s)
  have hocNat : (litStep b s).oc.toNat = s.oc.toNat + 1 := by
    rw [show (litStep b s).oc = BitVec.ofNat 24 (s.oc.toNat + 1) from rfl, BitVec.toNat_ofNat]; omega
  exact inv_of_token h rfl rfl (h.inv.base.work.set (show s.oc.toNat < _ by omega) b) false h.midstep nofun (by omega)
    h.ip_le (h.dk_le hne)

@[simp] theorem copyMatch_ip (s : State) (dist k : Nat) : (copyMatch dist k s).ip = s.ip := by
  induction k generalizing s with
  | zero => rfl
  | succ k ih => exact ih (copyByte dist s)

@[simp] theorem copyMatch_dk (s : State) (dist k : Nat) : (copyMatch dist k s).dk = s.dk := by
  induction k generalizing s with
  | zero => rfl
  | succ k ih => exact ih (copyByte dist s)

/-- A match copy writes WORK from index oc on only (46_frame_reader R270). -/
theorem copyMatch_work_within {cap : Nat} (hcap : 2 ^ 24 ≤ cap) (dist k : Nat) (s : State) (h : s.work.Within cap)
    (hfit : s.oc.toNat + k < 2 ^ 24) : (copyMatch dist k s).work.Within cap := by
  induction k generalizing s with
  | zero => exact h
  | succ k ih =>
    have hoc : (copyByte dist s).oc.toNat = s.oc.toNat + 1 := by rw [copyByte_oc, BitVec.toNat_ofNat]; omega
    exact ih (copyByte dist s) (h.set (by omega) _) (by omega)

/-- The copy of a match of which `k` bytes are wanted; with CLAMP they complete the output (46_frame_reader R270). -/
theorem copyMatch_inv (h : ReadsNext s 2) (hne : s.dk ≠ 8) {u : State} (hu : u.untouched = s.untouched)
    (hr : u.reported = s.reported) (hsame : u.work = s.work ∧ u.oc = s.oc)
    (htoken : u.ip = BitVec.ofNat 25 (s.ip.toNat + 2) ∧ u.dk = BitVec.ofNat 4 (s.dk.toNat + 1)) (clamp : Bool)
    (hmid : u.midstep = some { s.progress with warnClamp := clamp }) (dist : Nat) {k : Nat}
    (hk : s.oc.toNat + k ≤ s.want) (hclamp : clamp = true → s.oc.toNat + k = s.want) :
    (copyMatch dist k u).Inv := by
  obtain ⟨hwork, hoc⟩ := hsame
  obtain ⟨hip, hdk⟩ := htoken
  have hmax := want_lt s
  have hcap := workCap_ge (s := s)
  have hocNat : (copyMatch dist k u).oc.toNat = s.oc.toNat + k := by
    rw [copyMatch_oc u dist k (by rw [hoc]; omega), hoc]
  refine inv_of_token h ((copyMatch_untouched ..).trans hu) ((copyMatch_reported ..).trans hr) ?_ clamp
    ((copyMatch_midstep ..).trans hmid) (fun hc => hocNat.trans (hclamp hc)) (by omega) ?_ ?_
  · exact copyMatch_work_within (by omega) dist k u (hwork ▸ h.inv.base.work) (by rw [hoc]; omega)
  · rw [copyMatch_ip, hip]; exact h.ip_le
  · rw [copyMatch_dk, hdk]; exact h.dk_le hne

theorem matchStep_inv (h : ReadsNext s 2) (hne : s.dk ≠ 8) (len dist : Nat) : (matchStep len dist s).Inv := by
  have hoc := h.oc
  have hocSame : (consumeToken 2 s).oc = s.oc := rfl
  have hwantSame : (consumeToken 2 s).want = s.want := rfl
  unfold matchStep
  dsimp only
  rw [hocSame, hwantSame]
  split
  · exact raise_inv (h.inv.base.of_untouched (t := consumeToken 2 s) rfl h.inv.base.work) _
  · split
    · exact copyMatch_inv h hne (u := clampWarn (consumeToken 2 s)) rfl rfl ⟨rfl, rfl⟩ ⟨rfl, rfl⟩ true rfl dist
        (by omega) fun _ => by omega
    · exact copyMatch_inv h hne (u := consumeToken 2 s) rfl rfl ⟨rfl, rfl⟩ ⟨rfl, rfl⟩ false h.midstep dist
        (by omega) nofun

theorem truncate_inv (hinv : s.Inv) (hrun : s.phase = .run) (hst : s.stage = .decodeLoop)
    (hoc : s.oc.toNat < s.want) : (truncate s).Inv := by
  obtain ⟨hdecode, -⟩ := hinv.decodeLoop hrun hst
  obtain ⟨-, -, -, -, -, hip, hdk⟩ := id hdecode
  have hclear := warnClamp_of_oc_lt hinv hrun hst hoc
  refine inv_of_goesOn hinv hrun rfl rfl hinv.base.work (engineOk_decodeEnd rfl
    (decodeOk_of_lengths hdecode rfl ⟨rfl, rfl, rfl⟩ hoc.le hip ?_) rfl hclear)
  rw [truncate_dk]
  split
  · exact hdk
  · next hne => exact dk_next_le hdk hne

/-- The output of a DECODE is of the raw length, which fits DST (46_frame_reader R265, R273). -/
theorem decodeFinish_inv (h : BaseOk s) (hdecode : DecodeOk s)
    (hstatus : (statusDone true s.warnTrunc s.warnClamp).toNat ∈ idleStatuses) : (decodeFinish s).Inv := by
  obtain ⟨-, -, -, hdec, hoc, -⟩ := hdecode
  have hcap := dstCap_ge (s := s)
  have hraw := s.rawLen.isLt
  refine complete_inv h _ _ _ ?_ hstatus
  have hwant : s.want = s.rawLen.toNat - s.decLen.toNat := rfl
  rw [decodeOutput, List.length_append, List.length_append, srcBytes_length, List.length_replicate, rev_length,
    workBytes_length]
  omega

/-! ## The engine keeps a legal state -/

theorem decodeToken_inv {i : Instr} (hinv : s.Inv) (hrun : s.phase = .run) (hst : s.stage = .decodeLoop)
    (h : fetchToken s = some i) : (streamEffect i s).Inv := by
  obtain ⟨⟨hop, -⟩, -⟩ := hinv.decodeLoop hrun hst
  have henc : s.encoding = false := encoding_eq_false (by rw [hop]; decide)
  have hreads := ReadsNext.of_fetchToken hinv hrun hst h
  obtain ⟨-, ⟨-, f, rfl⟩ | ⟨b, rfl⟩ | ⟨len, dist, -, rfl⟩⟩ := fetchToken_cases h
  · rw [streamEffect, flagEffect, henc]
    exact flagStep_inv hreads f
  · rw [streamEffect, litEffect, henc]
    exact litStep_inv hreads (fetchToken_dk h nofun) b
  · rw [streamEffect, matchEffect, henc]
    exact matchStep_inv hreads (fetchToken_dk h nofun) len dist

theorem decodeTrailer_inv {i : Instr} (hinv : s.Inv) (hrun : s.phase = .run) (hop : s.lOp = 1)
    (h : fetchTrailer s = .ok i) : (streamEffect i s).Inv := by
  have henc : s.encoding = false := encoding_eq_false (by rw [hop]; decide)
  rcases fetchTrailer_shape h with rfl | ⟨enc, hdr, inc, rfl⟩
  · rw [streamEffect, trailerStoredEffect, henc]
    exact storedRead_inv hinv.base
  · rw [streamEffect, trailerCompressedEffect, henc]
    exact readHeader_inv hinv hrun hop (fetchTrailer_srcCap h) enc hdr inc

theorem engineOp_decodeLoop_none (hst : s.stage = .decodeLoop) (h : fetchToken s = none) :
    engineOp s = if s.oc.toNat < s.want then truncate s else decodeFinish s := by
  simp [engineOp, fetchInstr, internalOp, hst, h]

/-- Every internal operation of a running command keeps the state legal. -/
theorem engineOp_inv (hinv : s.Inv) (hrun : s.phase = .run) : (engineOp s).Inv := by
  obtain ⟨-, -, hencode, -, hend⟩ := id hinv
  cases hst : s.stage with
  | dispatch =>
    rcases engineOp_dispatch hst with ⟨hop, h⟩ | ⟨e, h⟩ | ⟨hop, i, hi, h⟩ <;> rw [h]
    · exact encodeBegin_inv hinv hrun hop
    · exact raise_inv hinv.base e
    · exact decodeTrailer_inv hinv hrun hop hi
  | encodeLoop =>
    have henc := hencode ⟨hrun, hst⟩
    rw [engineOp_encodeLoop hst]
    split
    · next hcur => exact tokenStep_inv hinv hrun hst henc hcur
    · exact encodeFinish_inv hinv.base henc
  | decodeLoop =>
    obtain ⟨hdecode, htrunc, -⟩ := hinv.decodeLoop hrun hst
    cases ht : fetchToken s with
    | some i =>
      have h : engineOp s = streamEffect i s := by simp [engineOp, fetchInstr, hst, ht]
      rw [h]
      exact decodeToken_inv hinv hrun hst ht
    | none =>
      rw [engineOp_decodeLoop_none hst ht]
      split
      · next hoc => exact truncate_inv hinv hrun hst hoc
      · refine decodeFinish_inv hinv.base hdecode ?_
        rw [htrunc]
        cases s.warnClamp <;> decide
  | decodeEnd =>
    obtain ⟨hdecode, htrunc, hclamp⟩ := hend ⟨hrun, hst⟩
    rw [engineOp_decodeEnd hst]
    refine decodeFinish_inv hinv.base hdecode ?_
    rw [htrunc, hclamp]
    decide

/-! ## START, the reset and the host keep a legal state -/

theorem ctrlWord_reserved_zero (op : BitVec 2) (m e : Bool) : ctrlWord op m e &&& 0xFFFFFFE1 = 0 := by
  cases m <;> cases e <;> (revert op; decide)

theorem start_inv (h : BaseOk s) (op : BitVec 2) (m e : Bool) : (start op m e s).Inv :=
  inv_of_run ⟨h.src, .nil _, ctrlWord_reserved_zero op m e⟩ rfl rfl ⟨rfl, rfl, rfl, rfl, rfl⟩
    ⟨nofun, nofun, nofun⟩

theorem resetBlock_inv : (resetBlock s).Inv :=
  inv_of_idle ⟨.nil _, .nil _, reset_regsOk.1⟩ rfl rfl rfl (Nat.zero_le _) (show 0 ∈ idleStatuses by decide)
    fun _ => ⟨rfl, rfl, rfl, rfl⟩

theorem phase_idle_of_not_busy (hinv : s.Inv) (hbusy : s.busy = false) : s.phase = .idle := by
  cases hp : s.phase with
  | idle => rfl
  | run => cases hbusy.symm.trans (busy_of_inv hinv hp)

/-- CTRL as a host write stores it is legal (10_state R23). -/
theorem regWrite_inv (hinv : s.Inv) (o : Nat) (w : Word) : (regWrite s o w).Inv := by
  obtain ⟨hrams, ⟨-, hrun, hidle⟩, hengine⟩ := id hinv
  unfold regWrite
  split
  · exact hinv
  · split
    · exact ⟨hrams, ⟨ctrlWord_reserved_zero .., hrun, hidle⟩, hengine⟩
    · split
      · exact hinv
      · split
        · exact hinv
        · exact hinv

/-- SRC as a host write stores it is legal (20_memory R62, R83). -/
theorem srcWrite_inv (hinv : s.Inv) (i : Nat) (bs : List Byte) :
    State.Inv { s with src := Memory.setBytes s.src i (belowCap s.params.srcCap i bs) } := by
  obtain ⟨⟨-, -, hdst, hcap, hwork⟩, hregs, hengine⟩ := id hinv
  obtain ⟨hwf, hlt⟩ := hinv.base.src.setBytes_belowCap i bs
  exact ⟨⟨hwf, hlt, hdst, hcap, hwork⟩, hregs, hengine⟩

theorem busAccess_inv {a : Access} (hinv : s.Inv) (h : busAccess a s = .done t) : t.Inv := by
  unfold busAccess at h
  split at h
  · unfold regAccess at h
    split at h
    · split at h
      · cases h; exact hinv
      · split at h
        · cases h
        · cases h; exact regWrite_inv hinv _ _
    · cases h
  · unfold srcAccess at h
    split at h
    · split at h
      · cases h; exact hinv
      · split at h
        · cases h
        · cases h; exact srcWrite_inv hinv _ _
    · cases h
  · unfold dstAccess at h
    split at h
    · split at h
      · cases h
      · split at h <;> (cases h; exact hinv)
    · cases h
  · cases h

/-- A host transition from a legal state leads to a legal state. -/
theorem HostStep.inv (h : HostStep s t) (hinv : s.Inv) : t.Inv := by
  cases h with
  | pass => exact hinv
  | reset => exact resetBlock_inv
  | poll => exact hinv
  | @access a rest _ _ hbus =>
    have hinput : State.Inv { s with inputs := rest } := hinv
    exact busAccess_inv hinput hbus
  | @command a rest w _ _ hbus hexec =>
    have hinput : State.Inv { s with inputs := rest } := hinv
    obtain ⟨-, -, -, hbusy, -⟩ := busAccess_starts hbus
    rw [exec_commandOf, command_idle (phase_idle_of_not_busy hinput hbusy)] at hexec
    cases hexec
    exact start_inv hinput.base _ _ _

/-- The completion step of a legal state leads to a legal state: it runs internal operations only. -/
theorem completion_inv (hinv : s.Inv) (hrun : s.phase = .run)
    (h : exec (commandOf s.lOp s.lMode s.lExpv) s = .next t) : t.Inv := by
  rw [exec_commandOf, command_run hrun, withCommand_self] at h
  obtain ⟨rfl, -⟩ := ended_next h
  exact runOps_induction (P := State.Inv) (fun u hu hok => engineOp_inv hok hu) _ s hinv

/-- A transition from a legal state leads to a legal state. -/
theorem Transition.inv (h : Transition s t) (hinv : s.Inv) : t.Inv := by
  have hpop : (popTurn s).Inv := hinv
  cases h with
  | part _ hrun => exact engineOp_inv hinv hrun
  | partIdle => exact hinv
  | engine _ hrun hexec => exact completion_inv hpop hrun hexec
  | engineIdle => exact hpop
  | host _ hstep => exact hstep.inv hpop

end

/-- Settles O48: every step is one of the listed transitions, and each of them keeps a legal state. The engine's do
because every internal operation does. -/
theorem stepKeepsLegal : Obligations.StepKeepsLegal := by
  intro s t hinv hstep
  exact (transition_of_step hstep).inv hinv

end Sys2Proof.Machine

/-! # The host's windows: O17, O18, O19, O20, O59; and O50, what instructions leave of them -/

namespace Sys2Proof.Machine

/-! ## Byte lanes (20_memory R66) -/

/-- A byte lane of a word, as a digit to base 256. -/
theorem extractLsb'_lane (w : Word) (k : Nat) : w.extractLsb' (8 * k) 8 = BitVec.ofNat 8 (w.toNat / 256 ^ k) := by
  refine BitVec.eq_of_toNat_eq ?_
  rw [BitVec.extractLsb'_toNat, BitVec.toNat_ofNat, Nat.shiftRight_eq_div_pow, pow_mul,
    show 2 ^ 8 = 256 from rfl]

theorem leBytes_getElem? (n v k : Nat) :
    (leBytes n v)[k]? = if k < n then some (BitVec.ofNat 8 (v / 256 ^ k)) else none := by
  induction n generalizing v k with
  | zero => rfl
  | succ n ih =>
    cases k with
    | zero => simp [leBytes]
    | succ k => simp [leBytes, ih, Nat.div_div_eq_div_mul, pow_succ']

/-- Lane `k` of a write is bits 8k+7 to 8k of its data. -/
theorem writeLanes_getElem? (size : Nat) (w : Word) (k : Nat) :
    (writeLanes size w)[k]? = if k < size then some (w.extractLsb' (8 * k) 8) else none := by
  rw [writeLanes, leBytes_getElem?, extractLsb'_lane]

theorem fromLE_lt (bs : List Byte) : fromLE bs < 256 ^ bs.length := by
  induction bs with
  | nil => exact Nat.one_pos
  | cons b bs ih =>
    have hb := b.isLt
    rw [fromLE, List.length_cons, pow_succ']
    omega

/-- Digit `k` of a little-endian number is byte `k`. -/
theorem fromLE_digit (bs : List Byte) (k : Nat) : BitVec.ofNat 8 (fromLE bs / 256 ^ k) = bs[k]?.getD 0 := by
  induction bs generalizing k with
  | nil => simp [fromLE]
  | cons b bs ih =>
    cases k with
    | zero =>
      refine BitVec.eq_of_toNat_eq ?_
      have hb := b.isLt
      rw [BitVec.toNat_ofNat, fromLE, List.getElem?_cons_zero, Option.getD_some, pow_zero]
      omega
    | succ k =>
      have hdigit : fromLE (b :: bs) / 256 = fromLE bs := by
        have hb := b.isLt
        rw [fromLE]
        omega
      rw [pow_succ', ← Nat.div_div_eq_div_mul, hdigit, ih, List.getElem?_cons_succ]

/-- Lane `k` of a read is the byte at index `a + k`, and 0 above the lanes it names (log 20). -/
theorem readLanes_lane (byteAt : Nat → Byte) (a : Nat) {size : Nat} (hsize : size ≤ 4) (k : Nat) :
    (readLanes byteAt a size).extractLsb' (8 * k) 8 = if k < size then byteAt (a + k) else 0 := by
  have hlt : fromLE ((List.range size).map fun j => byteAt (a + j)) < 2 ^ 32 := by
    refine (fromLE_lt _).trans_le ?_
    rw [List.length_map, List.length_range]
    exact (Nat.pow_le_pow_right (by decide) hsize : 256 ^ size ≤ 256 ^ 4)
  rw [extractLsb'_lane, readLanes, BitVec.toNat_ofNat, Nat.mod_eq_of_lt hlt, fromLE_digit, List.getElem?_map]
  split
  · next hk => rw [List.getElem?_range hk]; rfl
  · next hk => rw [List.getElem?_eq_none (by simpa using hk)]; rfl

/-! ## The buffer windows -/

section
variable {s t : State} {a : Access} {i size : Nat} {op : BusOp} {w : Word} {r : Refusal} {rest : List Input}

/-- The widths of the buffer windows (20_memory R67) are at most a word's. -/
theorem size_le_of_bufferShaped (h : BufferShaped i size) : size ≤ 4 := by
  obtain ⟨hsize, -⟩ := h
  omega

theorem busAccess_srcAt (hi : i < 0x2000000) (op : BusOp) (rest : List Input) :
    busAccess (srcAccessAt s i size op) (afterInput s rest) = srcAccess i size op (afterInput s rest) :=
  busAccess_srcWindow (windowOf_src s.params hi)

theorem busAccess_dstAt (hi : i < 0x2000000) (op : BusOp) (rest : List Input) :
    busAccess (dstAccessAt s i size op) (afterInput s rest) = dstAccess i size op (afterInput s rest) := by
  have hwindow : windowOf (afterInput s rest).params (dstAccessAt s i size op).addr = .dst i :=
    windowOf_dst s.params hi
  rw [busAccess, hwindow]

theorem srcAccess_misshaped (h : ¬BufferShaped i size) : srcAccess i size op s = .rejected .bufferAccessShape := by
  unfold srcAccess
  rw [if_neg (mt (bufferShape_iff i size).1 h)]

theorem dstAccess_misshaped (h : ¬BufferShaped i size) : dstAccess i size op s = .rejected .bufferAccessShape := by
  unfold dstAccess
  rw [if_neg (mt (bufferShape_iff i size).1 h)]

theorem srcAccess_read (h : BufferShaped i size) :
    srcAccess i size .read s = .done { s with rdata := readLanes (srcWindowByte s) i size } := by
  rw [srcAccess, if_pos ((bufferShape_iff i size).2 h)]

theorem srcAccess_write (h : BufferShaped i size) (hbusy : s.busy = false) :
    srcAccess i size (.write w) s =
      .done { s with src := Memory.setBytes s.src i (belowCap s.params.srcCap i (writeLanes size w)) } := by
  simp [srcAccess, (bufferShape_iff i size).2 h, hbusy]

/-- 60_exceptions R314 item 4. -/
theorem dstAccess_busy (h : BufferShaped i size) (hbusy : s.busy = true) :
    dstAccess i size op s = .rejected .dstAccessWhileBusy := by
  simp [dstAccess, (bufferShape_iff i size).2 h, hbusy]

theorem dstAccess_read (h : BufferShaped i size) (hbusy : s.busy = false) :
    dstAccess i size .read s = .done { s with rdata := readLanes (dstWindowByte s) i size } := by
  simp [dstAccess, (bufferShape_iff i size).2 h, hbusy]

/-- 10_state R40: only the engine writes DST (log 9). -/
theorem dstAccess_write (h : BufferShaped i size) (hbusy : s.busy = false) :
    dstAccess i size (.write w) s = .done s := by
  simp [dstAccess, (bufferShape_iff i size).2 h, hbusy]

/-- The cells after a window write: the written lanes below the capacity, any other cell as before. -/
theorem get_setBytes_belowCap (m : Memory) (cap : Nat) (w : Word) (j : Nat) :
    Memory.get (Memory.setBytes m i (belowCap cap i (writeLanes size w))) j =
      if i ≤ j ∧ j < i + size ∧ j < cap then some (w.extractLsb' (8 * (j - i)) 8) else Memory.get m j := by
  have hlen : (belowCap cap i (writeLanes size w)).length = min (cap - i) size := by
    rw [belowCap, List.length_take, writeLanes, leBytes_length]
  rw [Memory.get_setBytes, hlen]
  by_cases hj : i ≤ j ∧ j < i + size ∧ j < cap
  · rw [if_pos (by omega), if_pos hj, belowCap, List.getElem?_take_of_lt (by omega), writeLanes_getElem?,
      if_pos (by omega)]
  · rw [if_neg (by omega), if_neg hj]

/-- 20_memory R62, R66: SRC after a window write, byte by byte. -/
theorem srcByte_setBytes_belowCap (s : State) (j : Nat) :
    State.srcByte { s with src := Memory.setBytes s.src i (belowCap s.params.srcCap i (writeLanes size w)) } j =
      if i ≤ j ∧ j < i + size ∧ j < s.params.srcCap then w.extractLsb' (8 * (j - i)) 8 else s.srcByte j := by
  rw [State.srcByte, get_setBytes_belowCap]
  split <;> rfl

/-! ## Which host accesses are refused -/

theorem command_ne_refused (op : BitVec 2) (m e : Bool) (s : State) (r : Refusal) : command op m e s ≠ .refused r := by
  unfold command ended
  split
  · nofun
  · split <;> nofun

/-- A host access is refused by the bus alone: an accepted START is not. -/
theorem rejected_of_step_refused (h : HostDoes s a rest) (hstep : step s = .refused r) :
    busAccess a (afterInput s rest) = .rejected r := by
  cases hbus : busAccess a (afterInput s rest) with
  | done t => cases (step_access_done h hbus).symm.trans hstep
  | rejected q =>
    cases (step_access_rejected h hbus).symm.trans hstep
    rfl
  | starts w =>
    rw [step_access_starts h hbus, exec_commandOf] at hstep
    exact absurd hstep (command_ne_refused _ _ _ _ _)

theorem busAccess_regAt {o : Nat} (ho : o < 0x100) (size : Nat) (op : BusOp) (rest : List Input) :
    busAccess { addr := s.params.regBase + o, size := size, op := op } (afterInput s rest) =
      regAccess o size op (afterInput s rest) := by
  have hwindow : windowOf (afterInput s rest).params (s.params.regBase + o) = .reg o := windowOf_reg s.params ho
  rw [busAccess, hwindow]

theorem regAccess_misshaped {o : Nat} (h : ¬(size = 4 ∧ o % 4 = 0)) :
    regAccess o size op s = .rejected .regAccessShape := by
  unfold regAccess
  rw [if_neg (mt (regShape_iff o size).1 h)]

theorem regAccess_ne_rejected {o : Nat} (h : size = 4 ∧ o % 4 = 0) (r : Refusal) :
    regAccess o size op s ≠ .rejected r := by
  unfold regAccess
  rw [if_pos ((regShape_iff o size).2 h)]
  cases op with
  | read => nofun
  | write w => dsimp only; split <;> nofun

theorem srcAccess_ne_rejected (h : BufferShaped i size) (hok : s.busy = false ∨ op = .read) (r : Refusal) :
    srcAccess i size op s ≠ .rejected r := by
  cases op with
  | read => rw [srcAccess_read h]; nofun
  | write w => rw [srcAccess_write h (hok.resolve_right nofun)]; nofun

theorem dstAccess_ne_rejected (h : BufferShaped i size) (hbusy : s.busy = false) (r : Refusal) :
    dstAccess i size op s ≠ .rejected r := by
  cases op with
  | read => rw [dstAccess_read h hbusy]; nofun
  | write w => rw [dstAccess_write h hbusy]; nofun

/-! ## Host reads -/

/-- A host read that takes effect changes the data read only (20_memory R69, R70). -/
theorem busAccess_read_done (hread : a.op = .read) (h : busAccess a s = .done t) : ∃ d, t = { s with rdata := d } := by
  unfold busAccess at h
  rw [hread] at h
  cases hwindow : windowOf s.params a.addr with
  | reg o =>
    rw [hwindow] at h
    dsimp only [regAccess] at h
    split at h <;> cases h
    exact ⟨_, rfl⟩
  | src i =>
    rw [hwindow] at h
    dsimp only [srcAccess] at h
    split at h <;> cases h
    exact ⟨_, rfl⟩
  | dst i =>
    rw [hwindow] at h
    dsimp only [dstAccess] at h
    split at h
    · split at h <;> cases h
      exact ⟨_, rfl⟩
    · cases h
  | undecoded =>
    rw [hwindow] at h
    cases h

end

/-! ## The obligations -/

/-- Settles O17: the bus stores the lanes that `belowCap` lets through, and drops a write to DST. -/
theorem srcWindowWriteStoresLanes : Obligations.SrcWindowWriteStoresLanes := by
  intro s i size w rest hi hshape hbusy
  have hbusyIn : (afterInput s rest).busy = false := hbusy
  refine ⟨fun h => ?_, fun h => ?_⟩
  · exact ⟨_, step_access_done h ((busAccess_srcAt hi _ rest).trans (srcAccess_write hshape hbusyIn)),
      srcByte_setBytes_belowCap (afterInput s rest), rfl⟩
  · exact step_access_done h ((busAccess_dstAt hi _ rest).trans (dstAccess_write hshape hbusyIn))

/-- Settles O18: lane by lane the data is what the window's byte function gives. -/
theorem bufferReadsReturnLanes : Obligations.BufferReadsReturnLanes := by
  intro s i size rest hi hshape
  have hsize := size_le_of_bufferShaped hshape
  refine ⟨fun h => ?_, fun h hbusy => ?_⟩
  · refine ⟨_, step_access_done h ((busAccess_srcAt hi _ rest).trans (srcAccess_read hshape)), rfl, fun k _ => ?_⟩
    rw [readLanes_lane _ i hsize k, srcWindowByte, ite_and]
    rfl
  · have hbusyIn : (afterInput s rest).busy = false := hbusy
    refine ⟨_, step_access_done h ((busAccess_dstAt hi _ rest).trans (dstAccess_read hshape hbusyIn)), rfl,
      fun k _ => ?_⟩
    rw [readLanes_lane _ i hsize k, dstWindowByte, ite_and]
    rfl

/-- Settles O19: window by window, what the bus rejects and what it does not; outside the windows it rejects all. -/
theorem hostAccessFaultsRefused : Obligations.HostAccessFaultsRefused := by
  intro s size op rest
  refine ⟨fun o ho h => ?_, fun i hi h => ?_, fun i hi h => ?_, fun addr h hout => ?_⟩
  · have hbus := busAccess_regAt (s := s) ho size op rest
    refine ⟨fun hshape => step_access_rejected h (hbus.trans (regAccess_misshaped hshape)), fun hshape r hr => ?_⟩
    exact regAccess_ne_rejected hshape r (hbus.symm.trans (rejected_of_step_refused h hr))
  · have hrejected {r} : step s = .refused r → _ := rejected_of_step_refused h
    have hbus := busAccess_srcAt (s := s) (size := size) hi op rest
    refine ⟨fun hshape => step_access_rejected h (hbus.trans (srcAccess_misshaped hshape)),
      fun hshape hbusy hwrite => ?_, fun hshape hok r hr => ?_⟩
    · cases op with
      | read => exact absurd rfl hwrite
      | write w => exact step_access_rejected h (hbus.trans (srcAccess_write_busy hbusy hshape))
    · exact srcAccess_ne_rejected (s := afterInput s rest) hshape hok r (hbus.symm.trans (hrejected hr))
  · have hrejected {r} : step s = .refused r → _ := rejected_of_step_refused h
    have hbus := busAccess_dstAt (s := s) (size := size) hi op rest
    refine ⟨fun hshape => step_access_rejected h (hbus.trans (dstAccess_misshaped hshape)),
      fun hshape hbusy => step_access_rejected h (hbus.trans (dstAccess_busy hshape hbusy)),
      fun hshape hbusy r hr => ?_⟩
    exact dstAccess_ne_rejected (s := afterInput s rest) hshape hbusy r (hbus.symm.trans (hrejected hr))
  · refine step_access_rejected h ?_
    rw [busAccess, show windowOf (afterInput s rest).params addr = .undecoded from windowOf_undecoded s.params hout]

/-- Settles O20: a read is no START, so its step is the bus's, which writes the data read only. -/
theorem hostReadsHaveNoSideEffect : Obligations.HostReadsHaveNoSideEffect := by
  intro s t a rest h hread hstep
  cases hbus : busAccess a (afterInput s rest) with
  | done u =>
    cases (step_access_done h hbus).symm.trans hstep
    obtain ⟨d, rfl⟩ := busAccess_read_done hread hbus
    rfl
  | rejected r => cases (step_access_rejected h hbus).symm.trans hstep
  | starts w =>
    obtain ⟨-, -, hwrite, -⟩ := busAccess_starts hbus
    cases hread.symm.trans hwrite

/-- Settles O59: each offset is a register's, in the window and aligned. -/
theorem registerReadsReturnTheRegisters : Obligations.RegisterReadsReturnTheRegisters := by
  intro s rest
  exact ⟨step_regRead (by decide) rfl, step_regRead (by decide) rfl, step_regRead (by decide) rfl,
    step_regRead (by decide) rfl, step_regRead (by decide) rfl, step_regRead (by decide) rfl,
    step_regRead (by decide) rfl, step_regRead (by decide) rfl⟩

/-- Settles O50: an instruction is START, which latches and clears, or leaves all of this untouched. -/
theorem noInstructionChangesSrc : Obligations.NoInstructionChangesSrc := by
  intro i s t h
  obtain ⟨op, m, e, rfl | hu⟩ := exec_next_cases h
  · exact ⟨fun _ => rfl, rfl, rfl, rfl, rfl, rfl, rfl⟩
  · simp only [State.untouched, Untouched.mk.injEq] at hu
    obtain ⟨-, hsrcLen, hexpLen, hsrc, -, -, -, -, -, hinputs, hsched, hrdata, hsrcGen, -, hparams⟩ := hu
    exact ⟨srcByte_congr hsrc hsrcGen, hsrcLen, hexpLen, hparams, hinputs, hsched, hrdata⟩

end Sys2Proof.Machine

/-! # The three encoded languages: O1, O2, O3, O4, O5 and O21 -/

namespace Sys2Proof

/-! ## Little-endian numbers (00_scope R8) -/

theorem fromLE_leBytes {k v : Nat} (hv : v < 256 ^ k) : fromLE (leBytes k v) = v := by
  induction k generalizing v with
  | zero => exact (Nat.lt_one_iff.mp hv).symm
  | succ k ih =>
    have hhigh : v / 256 < 256 ^ k := Nat.div_lt_of_lt_mul (by rwa [← pow_succ'])
    rw [leBytes, fromLE, ih hhigh, BitVec.toNat_ofNat]
    omega

/-- A number above its `m` low bytes has those bytes first. -/
theorem leBytes_add {m n low high : Nat} (hlow : low < 256 ^ m) :
    leBytes (m + n) (low + 256 ^ m * high) = leBytes m low ++ leBytes n high := by
  induction m generalizing low with
  | zero => simp [leBytes, Nat.lt_one_iff.mp hlow]
  | succ m ih =>
    have hrest : low / 256 < 256 ^ m := Nat.div_lt_of_lt_mul (by rwa [← pow_succ'])
    have hsplit : low + 256 ^ (m + 1) * high = low + 256 * (256 ^ m * high) := by rw [pow_succ', mul_assoc]
    have hbyte : BitVec.ofNat 8 (low + 256 * (256 ^ m * high)) = BitVec.ofNat 8 low :=
      BitVec.eq_of_toNat_eq (by simp only [BitVec.toNat_ofNat]; omega)
    rw [Nat.succ_add, hsplit, leBytes, leBytes, hbyte, Nat.add_mul_div_left _ _ (by decide), ih hrest]
    rfl

/-! ## Match records (30_encoding R101 to R103) -/

section
variable {len dist : Nat}

theorem matchByte0_toNat (hlen : len ≤ 18) (hdist : dist ≤ 4098) :
    (matchByte0 len dist).toNat = (len - 3) * 16 + (dist - 3) / 256 := by
  rw [matchByte0, BitVec.toNat_ofNat]
  omega

theorem matchByte1_toNat (dist : Nat) : (matchByte1 dist).toNat = (dist - 3) % 256 :=
  BitVec.toNat_ofNat ..

theorem matchLength_matchByte0 (hmin : 3 ≤ len) (hmax : len ≤ 18) (hdist : dist ≤ 4098) :
    matchLength (matchByte0 len dist) = len := by
  rw [matchLength, matchByte0_toNat hmax hdist]
  omega

theorem matchDistance_matchBytes (hlen : len ≤ 18) (hmin : 3 ≤ dist) (hmax : dist ≤ 4098) :
    matchDistance (matchByte0 len dist) (matchByte1 dist) = dist := by
  rw [matchDistance, matchByte0_toNat hlen hmax, matchByte1_toNat]
  omega

end

section
variable (b0 b1 : Byte)

theorem matchLength_bounds : 3 ≤ matchLength b0 ∧ matchLength b0 ≤ 18 := by
  have h0 := b0.isLt
  unfold matchLength
  omega

theorem matchDistance_bounds : 3 ≤ matchDistance b0 b1 ∧ matchDistance b0 b1 ≤ 4098 := by
  have h1 := b1.isLt
  unfold matchDistance
  omega

theorem matchByte0_of_fields : matchByte0 (matchLength b0) (matchDistance b0 b1) = b0 := by
  refine BitVec.eq_of_toNat_eq ?_
  rw [matchByte0_toNat (matchLength_bounds b0).2 (matchDistance_bounds b0 b1).2, matchLength, matchDistance]
  have h1 := b1.isLt
  omega

theorem matchByte1_of_fields : matchByte1 (matchDistance b0 b1) = b1 := by
  refine BitVec.eq_of_toNat_eq ?_
  rw [matchByte1_toNat, matchDistance]
  have h1 := b1.isLt
  omega

end

/-! ## The trailer at the end of a frame (30_encoding R109, R110, R114) -/

/-- The bytes between `front` and `rest`, as the decoder cuts them out. -/
theorem take_drop_eq_middle {bs front mid rest : List Byte} {a n : Nat} (hbs : front ++ mid ++ rest = bs)
    (ha : front.length = a) (hn : mid.length = n) : (bs.drop a).take n = mid := by
  subst hbs ha hn
  rw [List.append_assoc, List.drop_left, List.take_left]

/-- The last 4 bytes alone tell a stored from a compressed trailer, whose fields stand right before them. -/
theorem decodeTrailer_frame (front encBytes incBytes : List Byte) (hdr : Byte) (henc : encBytes.length = 3)
    (hinc : incBytes.length = 4) :
    decodeTrailer (front ++ (encBytes ++ [hdr] ++ incBytes)) =
      if fromLE incBytes = 0 then .ok .trailerStored
      else .ok (.trailerCompressed (BitVec.ofNat 24 (fromLE encBytes)) hdr (BitVec.ofNat 32 (fromLE incBytes))) := by
  generalize hbs : front ++ (encBytes ++ [hdr] ++ incBytes) = bs
  have hlen : bs.length = front.length + 8 := by simp [← hbs, henc, hinc]
  have hencBytes : (bs.drop (bs.length - 8)).take 3 = encBytes :=
    take_drop_eq_middle (front := front) (rest := [hdr] ++ incBytes) (by simp [← hbs]) (by simp [hlen]) henc
  have hhdrByte : (bs.drop (bs.length - 5)).take 1 = [hdr] :=
    take_drop_eq_middle (front := front ++ encBytes) (rest := incBytes) (by simp [← hbs]) (by simp [hlen, henc]) rfl
  have hincBytes : (bs.drop (bs.length - 4)).take 4 = incBytes :=
    take_drop_eq_middle (front := front ++ encBytes ++ [hdr]) (rest := []) (by simp [← hbs])
      (by simp [hlen, henc]) hinc
  have hhdr : BitVec.ofNat 8 (fromLE [hdr]) = hdr := by simp [fromLE]
  simp only [decodeTrailer, hencBytes, hhdrByte, hincBytes, hhdr]
  rw [if_neg (by omega : ¬bs.length < 4), if_neg (by omega : ¬bs.length < 8)]

/-- A compressed trailer is read back from the bytes it stands as (30_encoding R110). -/
theorem decodeTrailer_payloadBytes (enc : BitVec 24) (hdr : Byte) {inc : Word} (hinc : inc ≠ 0) :
    decodeTrailer (payloadBytes (.trailerCompressed enc hdr inc)) = .ok (.trailerCompressed enc hdr inc) := by
  have hne : inc.toNat ≠ 0 := fun h => hinc (BitVec.eq_of_toNat_eq h)
  refine (decodeTrailer_frame [] _ _ hdr (Machine.leBytes_length 3 _) (Machine.leBytes_length 4 _)).trans ?_
  rw [fromLE_leBytes inc.isLt, fromLE_leBytes enc.isLt, if_neg hne, BitVec.ofNat_toNat, BitVec.ofNat_toNat,
    BitVec.setWidth_eq, BitVec.setWidth_eq]

/-! ## Command words (30_encoding R115 to R117) -/

section
variable {w mask c : Word}

/-- A bit that the mask keeps is the match value's. -/
theorem getLsbD_of_mask (hw : w &&& mask = c) {k : Nat} (hk : mask.getLsbD k = true) : w.getLsbD k = c.getLsbD k := by
  rw [← hw, BitVec.getLsbD_and, hk, Bool.and_true]

theorem opField_of_mask (hw : w &&& mask = c) (hop : opField mask = 3) : opField w = opField c := by
  have hand : opField (w &&& mask) = opField w &&& opField mask := BitVec.extractLsb'_and
  rw [← hw, hand, hop]
  exact BitVec.and_allOnes.symm

/-- A word of a row of the opcode map: the row's OP, and MODE and EXP_VALID as the word holds them. -/
theorem decodeCommand_of_mask (hw : w &&& mask = c) (hmask : mask.getLsbD 0 = true) (hop : opField mask = 3)
    (hstart : c.getLsbD 0 = true) :
    decodeCommand w = .ok (commandOf (opField c) (w.getLsbD 3) (w.getLsbD 4)) := by
  rw [decodeCommand, getLsbD_of_mask hw hmask, if_pos hstart, opField_of_mask hw hop]
  rfl

end

theorem decodeCommand_of_not_start {w : Word} (hw : w.getLsbD 0 = false) : decodeCommand w = .error .noStart := by
  rw [decodeCommand, hw]
  rfl

/-! ## The words of the table, by the width of the row (log 18) -/

theorem decodeTableWord_flag (f : Byte) : decodeTableWord 8 f.toNat = some (.flag f) := by
  have hf := f.isLt
  simp [decodeTableWord, decodeFlag, hf]

theorem decodeTableWord_lit (b : Byte) : decodeTableWord 16 b.toNat = some (.lit b) := by
  have hb := b.isLt
  simp [decodeTableWord, decodeToken, Except.toOption, hb]

theorem decodeTableWord_match (b0 b1 : Byte) :
    decodeTableWord 24 (2 ^ 16 + b0.toNat * 256 + b1.toNat) =
      some (.matchToken (matchLength b0) (matchDistance b0 b1)) := by
  have h0 := b0.isLt
  have h1 := b1.isLt
  have hrange : 2 ^ 16 ≤ 2 ^ 16 + b0.toNat * 256 + b1.toNat ∧
      2 ^ 16 + b0.toNat * 256 + b1.toNat < 2 ^ 17 := by omega
  have hbyte0 : BitVec.ofNat 8 ((2 ^ 16 + b0.toNat * 256 + b1.toNat) / 256) = b0 :=
    BitVec.eq_of_toNat_eq (by rw [BitVec.toNat_ofNat]; omega)
  have hbyte1 : BitVec.ofNat 8 (2 ^ 16 + b0.toNat * 256 + b1.toNat) = b1 :=
    BitVec.eq_of_toNat_eq (by rw [BitVec.toNat_ofNat]; omega)
  rw [decodeTableWord, if_neg (by decide), if_neg (by decide), if_pos (by decide), if_pos hrange, hbyte0, hbyte1]
  rfl

theorem decodeTableWord_command {w : Word} (hw : w.getLsbD 0 = true) :
    decodeTableWord 32 w.toNat = (decodeCommand w).toOption := by
  have hne : w.toNat ≠ 0 := by
    intro h
    rw [BitVec.eq_of_toNat_eq (y := 0) h] at hw
    cases hw
  rw [decodeTableWord, if_neg (by decide), if_neg (by decide), if_neg (by decide), if_pos rfl,
    if_neg (Nat.not_le.mpr w.isLt), if_neg hne, BitVec.ofNat_toNat, BitVec.setWidth_eq]

theorem decodeTableWord_commandWord (op : BitVec 2) (m e : Bool) :
    decodeTableWord 32 (commandWord op m e).toNat = some (commandOf op m e) := by
  rw [decodeTableWord_command (by simp [commandWord]), Machine.decodeCommand_commandWord]
  rfl

theorem decodeTableWord_frame {v : Nat} (hv : v < 2 ^ 64) :
    decodeTableWord 64 v = (decodeTrailer (leBytes 8 v)).toOption := by
  rw [decodeTableWord, if_neg (by decide), if_neg (by decide), if_neg (by decide), if_neg (by decide), if_pos rfl,
    if_pos hv]

/-- The word of a compressed trailer, little-endian, is the bytes it stands as. -/
theorem leBytes_encode_trailerCompressed (enc : BitVec 24) (hdr : Byte) (inc : Word) :
    leBytes 8 (encode (.trailerCompressed enc hdr inc)).2 = payloadBytes (.trailerCompressed enc hdr inc) := by
  have hword : (encode (.trailerCompressed enc hdr inc)).2 =
      enc.toNat + 256 ^ 3 * (hdr.toNat + 256 ^ 1 * inc.toNat) := by
    simp only [encode]
    omega
  have hhdr : leBytes 1 hdr.toNat = [hdr] := by simp [leBytes]
  rw [hword, leBytes_add (m := 3) (n := 5) enc.isLt, leBytes_add (m := 1) (n := 4) hdr.isLt, hhdr, payloadBytes,
    List.append_assoc]

/-! ## The obligations -/

/-- Settles O2: a row's word is read by its width, a match and a trailer by the inverses of their byte formulas. -/
theorem decodeOfEncodeIsInstr : Obligations.DecodeOfEncodeIsInstr := by
  intro i hwf
  cases i with
  | encodeNormal e => exact decodeTableWord_commandWord 0 false e
  | encodeBest e => exact decodeTableWord_commandWord 0 true e
  | decode m e => exact decodeTableWord_commandWord 1 m e
  | reservedOp2 m e => exact decodeTableWord_commandWord 2 m e
  | reservedOp3 m e => exact decodeTableWord_commandWord 3 m e
  | lit b => exact decodeTableWord_lit b
  | flag f => exact decodeTableWord_flag f
  | trailerStored => decide
  | matchToken len dist =>
    simp only [Instr.wf, Bool.and_eq_true, decide_eq_true_eq] at hwf
    obtain ⟨⟨⟨hlenMin, hlenMax⟩, hdistMin⟩, hdistMax⟩ := hwf
    refine (decodeTableWord_match (matchByte0 len dist) (matchByte1 dist)).trans ?_
    rw [matchLength_matchByte0 hlenMin hlenMax hdistMax, matchDistance_matchBytes hlenMax hdistMin hdistMax]
  | trailerCompressed enc hdr inc =>
    have hfits : (encode (.trailerCompressed enc hdr inc)).2 < 2 ^ 64 :=
      Laws.EncodeFits.trailerCompressed enc hdr inc hwf
    refine (decodeTableWord_frame hfits).trans ?_
    rw [leBytes_encode_trailerCompressed, decodeTrailer_payloadBytes enc hdr (of_decide_eq_true hwf)]
    rfl

/-- Settles O4: the fields of a record do not overlap, so R102's and R103's unions of bits are sums. -/
theorem matchRecordFields : Obligations.MatchRecordFields := by
  refine ⟨fun len dist hlenMin hlenMax hdistMin hdistMax => ⟨?_, ?_⟩, fun b0 b1 rest => ?_⟩
  · rw [matchByte0_toNat hlenMax hdistMax, ← Nat.shiftLeft_add_eq_or_of_lt (by omega), Nat.shiftLeft_eq,
      Nat.shiftRight_eq_div_pow]
  · rw [matchByte1_toNat]
    exact (Nat.and_two_pow_sub_one_eq_mod (dist - 3) 8).symm
  · obtain ⟨hlenMin, hlenMax⟩ := matchLength_bounds b0
    obtain ⟨hdistMin, hdistMax⟩ := matchDistance_bounds b0 b1
    refine ⟨matchLength b0, matchDistance b0 b1, rfl, ?_, ?_, hlenMin, hlenMax, hdistMin, hdistMax,
      matchByte0_of_fields b0 b1, matchByte1_of_fields b0 b1⟩
    · rw [Nat.shiftRight_eq_div_pow, matchLength]
    · rw [← Nat.shiftLeft_add_eq_or_of_lt b1.isLt, Nat.shiftLeft_eq, matchDistance]
      exact congrArg (· * 256 + b1.toNat + 3) (Nat.and_two_pow_sub_one_eq_mod b0.toNat 4).symm

/-- Settles O5 by what the decoder reads at the end of any frame; the fields fit their widths. -/
theorem lastFourBytesTellFrames : Obligations.LastFourBytesTellFrames := by
  intro front e0 e1 e2 h i0 i1 i2 i3
  have hframe := decodeTrailer_frame front [e0, e1, e2] [i0, i1, i2, i3] h rfl rfl
  have henc : fromLE [e0, e1, e2] < 2 ^ 24 := by simpa using Machine.fromLE_lt [e0, e1, e2]
  have hinc : fromLE [i0, i1, i2, i3] < 2 ^ 32 := by simpa using Machine.fromLE_lt [i0, i1, i2, i3]
  refine ⟨fun hzero => hframe.trans (if_pos hzero), fun hne => ⟨_, _, hframe.trans (if_neg hne), ?_, ?_⟩⟩
  · rw [BitVec.toNat_ofNat, Nat.mod_eq_of_lt henc]
  · rw [BitVec.toNat_ofNat, Nat.mod_eq_of_lt hinc]

/-- Settles O1: each of the thirteen words is read in the language of its width (log 18). -/
theorem sampleWordsDecode : Obligations.SampleWordsDecode :=
  ⟨decodeTableWord_command (w := 0x00000001) rfl, decodeTableWord_command (w := 0xFFFFFFE1) rfl,
    decodeTableWord_command (w := 0x00000019) rfl, decodeTableWord_command (w := 0x0000000B) rfl,
    decodeTableWord_command (w := 0x00000013) rfl, decodeTableWord_command (w := 0x00000005) rfl,
    decodeTableWord_command (w := 0x0000000F) rfl, rfl, decodeTableWord_lit 0x43, decodeTableWord_match 0x71 0x00,
    decodeTableWord_match 0xFF 0xFF, decodeTableWord_flag 0x20, decodeTableWord_frame (by decide)⟩

/-- Settles O3: the masks keep START and OP, and the first two rows' keep MODE as well. -/
theorem commandWordSelectsCommand : Obligations.CommandWordSelectsCommand := by
  intro w
  refine ⟨fun h => ?_, fun h => ?_, fun h => ?_, fun h => ?_, fun h => ?_, fun h => ?_⟩
  · rw [decodeCommand_of_mask h rfl rfl rfl, getLsbD_of_mask h (k := 3) rfl]
    rfl
  · rw [decodeCommand_of_mask h rfl rfl rfl, getLsbD_of_mask h (k := 3) rfl]
    rfl
  · exact decodeCommand_of_mask h rfl rfl rfl
  · exact decodeCommand_of_mask h rfl rfl rfl
  · exact decodeCommand_of_mask h rfl rfl rfl
  · exact decodeCommand_of_not_start (getLsbD_of_mask h rfl)

end Sys2Proof

namespace Sys2Proof.Machine

/-! ## WAIT_DONE (30_encoding R121) -/

section
variable {s : State} {rest : List Input}

theorem hostFetch_waitDone (hin : s.inputs = .waitDone :: rest) : hostFetch s = .other (.next (pollDone rest s)) := by
  simp only [hostFetch, hin]

theorem step_waitDone (hmoves : HostMoves s) (hin : s.inputs = .waitDone :: rest) :
    step s = .next (pollDone rest (popTurn s)) :=
  step_of_fetch_other ((fetch_hostMoves hmoves).trans (hostFetch_waitDone hin))

theorem pollDone_of_done (h : s.done = true) : pollDone rest s = { s with rdata := s.status, inputs := rest } := by
  rw [pollDone, if_pos h]

theorem pollDone_of_not_done (h : s.done = false) :
    pollDone rest s = { s with rdata := s.status, inputs := .waitDone :: rest } := by
  rw [pollDone, h]
  rfl

end

/-- Settles O21: the step of a WAIT_DONE is one poll. -/
theorem waitDonePollsStatus : Obligations.WaitDonePollsStatus := by
  intro s rest hmoves hin
  refine ⟨fun hdone => ?_, fun hdone => ?_⟩
  · exact (step_waitDone hmoves hin).trans (congrArg _ (pollDone_of_done hdone))
  · exact (step_waitDone hmoves hin).trans (congrArg _ (pollDone_of_not_done hdone))

end Sys2Proof.Machine

/-! # FIND returns the longest match, the nearest of its length (41_match_finder R150 to R157) -/

namespace Sys2Proof.Machine

section
variable {overlap : Bool} {R R' : Nat → Byte} {n c d : Nat}

/-! ## The count for one distance -/

/-- The stops of R152 and R156, but for the 18 bytes that the fuel counts: the comparison of distance `d` ends at count
`l`. -/
def StopsAt (overlap : Bool) (R : Nat → Byte) (n c d l : Nat) : Prop :=
  c + l = n ∨ (overlap = false ∧ d ≤ l) ∨ R (c + l) ≠ R (c + l - d)

theorem matchRun_of_stopsAt {l : Nat} (h : StopsAt overlap R n c d l) (fuel : Nat) :
    matchRun overlap R n c d fuel l = l := by
  cases fuel with
  | zero => rfl
  | succ fuel =>
    unfold matchRun
    obtain hend | hlimit | hdiffer := h
    · rw [if_pos hend]
    · rw [if_pos hlimit, ite_self]
    · rw [if_pos hdiffer, ite_self, ite_self]

theorem matchRun_of_not_stopsAt {l : Nat} (h : ¬ StopsAt overlap R n c d l) (fuel : Nat) :
    matchRun overlap R n c d (fuel + 1) l = matchRun overlap R n c d fuel (l + 1) := by
  simp only [StopsAt, not_or] at h
  obtain ⟨hend, hlimit, hdiffer⟩ := h
  rw [matchRun, if_neg hend, if_neg hlimit, if_neg hdiffer]

theorem matchRun_le_add (fuel l : Nat) : matchRun overlap R n c d fuel l ≤ l + fuel := by
  induction fuel generalizing l with
  | zero => exact Nat.le_refl l
  | succ fuel ih =>
    by_cases hstop : StopsAt overlap R n c d l
    · rw [matchRun_of_stopsAt hstop]
      omega
    · rw [matchRun_of_not_stopsAt hstop]
      have := ih (l + 1)
      omega

/-- Every count the comparison passed was no stop. -/
theorem not_stopsAt_of_lt_matchRun {k : Nat} (fuel l : Nat) (hl : l ≤ k) (hk : k < matchRun overlap R n c d fuel l) :
    ¬ StopsAt overlap R n c d k := by
  induction fuel generalizing l with
  | zero => exact absurd hk (Nat.not_lt.mpr hl)
  | succ fuel ih =>
    by_cases hstop : StopsAt overlap R n c d l
    · rw [matchRun_of_stopsAt hstop] at hk
      omega
    · obtain rfl | hlt := Nat.eq_or_lt_of_le hl
      · exact hstop
      · exact ih (l + 1) hlt (by rwa [matchRun_of_not_stopsAt hstop] at hk)

/-- The comparison ends with its fuel used up or at a stop. -/
theorem matchRun_eq_add_or_stopsAt (fuel l : Nat) :
    matchRun overlap R n c d fuel l = l + fuel ∨ StopsAt overlap R n c d (matchRun overlap R n c d fuel l) := by
  induction fuel generalizing l with
  | zero => exact .inl rfl
  | succ fuel ih =>
    by_cases hstop : StopsAt overlap R n c d l
    · rw [matchRun_of_stopsAt hstop]
      exact .inr hstop
    · rw [matchRun_of_not_stopsAt hstop, ← Nat.succ_add_eq_add_succ l fuel]
      exact ih (l + 1)

theorem matchLen_le_maxLen : matchLen overlap R n c d ≤ 18 := matchRun_le_add 18 0

theorem add_matchLen_le (hc : c ≤ n) : c + matchLen overlap R n c d ≤ n := matchRun_le 18 0 hc

theorem not_stopsAt_of_lt_matchLen {k : Nat} (h : k < matchLen overlap R n c d) : ¬ StopsAt overlap R n c d k :=
  not_stopsAt_of_lt_matchRun 18 0 (Nat.zero_le k) h

theorem matchLen_eq_maxLen_or_stopsAt :
    matchLen overlap R n c d = 18 ∨ StopsAt overlap R n c d (matchLen overlap R n c d) :=
  matchRun_eq_add_or_stopsAt 18 0

/-- A match without overlap is no longer than its distance (R156). -/
theorem matchLen_le_dist (hoverlap : overlap = false) : matchLen overlap R n c d ≤ d :=
  Nat.le_of_not_lt fun hlt => not_stopsAt_of_lt_matchLen hlt (.inr (.inl ⟨hoverlap, Nat.le_refl d⟩))

theorem byte_eq_of_lt_matchLen {k : Nat} (h : k < matchLen overlap R n c d) : R (c + k) = R (c + k - d) :=
  not_not.mp fun hdiffer => not_stopsAt_of_lt_matchLen h (.inr (.inr hdiffer))

/-! ## The choice among the distances -/

/-- A match is accepted among the distances below `bound`: it is longer than the threshold, and `dist` is the smallest
distance that reaches `len` (R153, R154). -/
structure AcceptedBelow (overlap : Bool) (R : Nat → Byte) (n c bound len dist : Nat) : Prop where
  threshold_lt : 2 < len
  minDist_le : 3 ≤ dist
  dist_lt : dist < bound
  reaches : matchLen overlap R n c dist = len
  nearest : ∀ e, 3 ≤ e → e < dist → matchLen overlap R n c e < len

/-- The outer loop's invariant when the next distance is `bound`: `best` is the greatest count so far, and it is the
threshold still or an accepted match's. -/
structure BestBelow (overlap : Bool) (R : Nat → Byte) (n c bound best bd : Nat) : Prop where
  longest : ∀ e, 3 ≤ e → e < bound → matchLen overlap R n c e ≤ best
  origin : (best = 2 ∧ bd = 0) ∨ AcceptedBelow overlap R n c bound best bd

variable {bound bound' len dist best bd : Nat}

theorem AcceptedBelow.of_dist_lt (h : AcceptedBelow overlap R n c bound len dist) (hlt : dist < bound') :
    AcceptedBelow overlap R n c bound' len dist :=
  { h with dist_lt := hlt }

theorem BestBelow.start : BestBelow overlap R n c 3 2 0 where
  longest _ hmin hlt := absurd hlt (Nat.not_lt.mpr hmin)
  origin := .inl ⟨rfl, rfl⟩

theorem BestBelow.threshold_le (h : BestBelow overlap R n c bound best bd) : 2 ≤ best := by
  obtain ⟨rfl, -⟩ | haccepted := h.origin
  · exact Nat.le_refl 2
  · exact Nat.le_of_lt haccepted.threshold_lt

/-- More distances change nothing when none of them is longer. -/
theorem BestBelow.extend (h : BestBelow overlap R n c bound best bd) (hle : bound ≤ bound')
    (hnew : ∀ e, bound ≤ e → e < bound' → matchLen overlap R n c e ≤ best) :
    BestBelow overlap R n c bound' best bd where
  longest e hmin hlt := (Nat.lt_or_ge e bound).elim (h.longest e hmin) fun hge => hnew e hge hlt
  origin := h.origin.imp_right fun haccepted => haccepted.of_dist_lt (Nat.lt_of_lt_of_le haccepted.dist_lt hle)

theorem BestBelow.keep (h : BestBelow overlap R n c bound best bd) (hle : matchLen overlap R n c bound ≤ best) :
    BestBelow overlap R n c (bound + 1) best bd :=
  h.extend (Nat.le_succ bound) fun e hge hlt => by rwa [show e = bound by omega]

theorem BestBelow.replace (h : BestBelow overlap R n c bound best bd) (hmin : 3 ≤ bound)
    (hlt : best < matchLen overlap R n c bound) :
    BestBelow overlap R n c (bound + 1) (matchLen overlap R n c bound) bound where
  longest e hmine hlte := by
    obtain hbelow | rfl := Nat.lt_or_eq_of_le (Nat.le_of_lt_succ hlte)
    · exact Nat.le_of_lt (Nat.lt_of_le_of_lt (h.longest e hmine hbelow) hlt)
    · exact Nat.le_refl _
  origin := .inr
    { threshold_lt := Nat.lt_of_le_of_lt h.threshold_le hlt
      minDist_le := hmin
      dist_lt := Nat.lt_succ_self bound
      reaches := rfl
      nearest := fun e hmine hlte => Nat.lt_of_le_of_lt (h.longest e hmine hlte) hlt }

/-- The outer loop keeps its invariant. The early exit of R155 skips distances that cannot exceed 18. -/
theorem findFrom_bestBelow (count : Nat) (h : BestBelow overlap R n c bound best bd) (hmin : 3 ≤ bound) :
    BestBelow overlap R n c (bound + count) (findFrom overlap R n c count bound best bd).1
      (findFrom overlap R n c count bound best bd).2 := by
  induction count generalizing bound best bd with
  | zero => exact h
  | succ count ih =>
    rw [← Nat.succ_add_eq_add_succ, findFrom]
    split
    · next hlonger =>
      have hreplaced := h.replace hmin hlonger
      split
      · next hmax =>
        exact hreplaced.extend (Nat.le_add_right _ count) fun e _ _ => hmax ▸ matchLen_le_maxLen
      · exact ih hreplaced (Nat.le_succ_of_le hmin)
    · next hnot => exact ih (h.keep (Nat.le_of_not_lt hnot)) (Nat.le_succ_of_le hmin)

/-! ## FIND -/

/-- FIND gives (0, 0) when no distance gets past the threshold, else the accepted match of the greatest length. -/
theorem find_none_or_accepted (overlap : Bool) (R : Nat → Byte) (n c : Nat) :
    (find overlap R n c = (0, 0) ∧ ∀ d, 3 ≤ d → d ≤ min c 4098 → matchLen overlap R n c d ≤ 2) ∨
    (AcceptedBelow overlap R n c (min c 4098 + 1) (find overlap R n c).1 (find overlap R n c).2 ∧
      ∀ d, 3 ≤ d → d ≤ min c 4098 → matchLen overlap R n c d ≤ (find overlap R n c).1) := by
  have hstart : BestBelow overlap R n c 3 2 0 := .start
  have hbest := findFrom_bestBelow (min c 4098 + 1 - 3) hstart (Nat.le_refl 3)
  unfold find
  dsimp only
  obtain ⟨hlen, hdist⟩ | haccepted := hbest.origin
  · rw [if_pos hdist]
    exact .inl ⟨rfl, fun d hmin hmax => hlen ▸ hbest.longest d hmin (by omega)⟩
  · have hmin := haccepted.minDist_le
    have hlt := haccepted.dist_lt
    have hinside := haccepted.of_dist_lt (bound' := min c 4098 + 1) (by omega)
    rw [if_neg (Nat.ne_of_gt (Nat.lt_of_lt_of_le (by decide) hmin))]
    exact .inr ⟨hinside, fun d hmind hmax => hbest.longest d hmind (by omega)⟩

theorem find_accepted (h : 0 < (find overlap R n c).1) :
    AcceptedBelow overlap R n c (min c 4098 + 1) (find overlap R n c).1 (find overlap R n c).2 := by
  obtain ⟨hnone, -⟩ | ⟨haccepted, -⟩ := find_none_or_accepted overlap R n c
  · rw [hnone] at h
    exact absurd h (Nat.lt_irrefl 0)
  · exact haccepted

theorem matchLen_le_find (hmin : 3 ≤ d) (hmax : d ≤ min c 4098) :
    matchLen overlap R n c d ≤ max 2 (find overlap R n c).1 := by
  obtain ⟨-, hlongest⟩ | ⟨-, hlongest⟩ := find_none_or_accepted overlap R n c
  · exact le_max_of_le_left (hlongest d hmin hmax)
  · exact le_max_of_le_right (hlongest d hmin hmax)

/-! ## FIND reads only [0, n) -/

/-- Before the end of the data both bytes compared lie below `n`. -/
theorem stopsAt_congr {l : Nat} (hagree : ∀ k < n, R' k = R k) (hl : c + l ≤ n) :
    StopsAt overlap R' n c d l ↔ StopsAt overlap R n c d l := by
  obtain hend | hlt := Nat.eq_or_lt_of_le hl
  · exact iff_of_true (.inl hend) (.inl hend)
  · rw [StopsAt, StopsAt, hagree _ hlt, hagree _ (Nat.lt_of_le_of_lt (Nat.sub_le _ d) hlt)]

theorem matchRun_congr (hagree : ∀ k < n, R' k = R k) (fuel l : Nat) (hl : c + l ≤ n) :
    matchRun overlap R' n c d fuel l = matchRun overlap R n c d fuel l := by
  induction fuel generalizing l with
  | zero => rfl
  | succ fuel ih =>
    have hiff := stopsAt_congr (overlap := overlap) (d := d) hagree hl
    by_cases hstop : StopsAt overlap R n c d l
    · rw [matchRun_of_stopsAt hstop, matchRun_of_stopsAt (hiff.mpr hstop)]
    · have hne : c + l ≠ n := fun hend => hstop (.inl hend)
      rw [matchRun_of_not_stopsAt hstop, matchRun_of_not_stopsAt (mt hiff.mp hstop)]
      exact ih (l + 1) (by omega)

theorem findFrom_congr (hlen : ∀ d, matchLen overlap R' n c d = matchLen overlap R n c d) (count d best bd : Nat) :
    findFrom overlap R' n c count d best bd = findFrom overlap R n c count d best bd := by
  induction count generalizing d best bd with
  | zero => rfl
  | succ count ih => simp only [findFrom, hlen, ih]

theorem find_congr (hc : c ≤ n) (hagree : ∀ k < n, R' k = R k) : find overlap R' n c = find overlap R n c := by
  unfold find
  rw [findFrom_congr fun d => matchRun_congr hagree 18 0 hc]

end

/-! ## The obligations -/

/-- Settles O24: FIND's match is a count below the window, and no count depends on a byte outside the data. -/
theorem findResultIsLegal : Obligations.FindResultIsLegal := by
  intro overlap R n c hc
  refine ⟨fun hpos => ?_, fun R' hagree => find_congr hc hagree⟩
  have haccepted := find_accepted hpos
  have hmax := haccepted.reaches ▸ matchLen_le_maxLen
  have hdist := haccepted.dist_lt
  exact ⟨haccepted.threshold_lt, hmax, haccepted.minDist_le, by omega, by omega, find_le hc⟩

/-- Settles O25 by the stops of the count and the invariant of the scan over the distances. -/
theorem findIsLongestAndNearest : Obligations.FindIsLongestAndNearest := by
  intro overlap R n c hc
  refine ⟨fun d _ _ => ?_, fun d hmin hmax => matchLen_le_find hmin hmax, fun hpos => ?_⟩
  · refine ⟨matchLen_le_maxLen, add_matchLen_le hc, matchLen_le_dist, fun k => byte_eq_of_lt_matchLen, ?_⟩
    refine matchLen_eq_maxLen_or_stopsAt.imp_right fun hstop => hstop.imp_right fun hlate => ?_
    exact hlate.imp_left fun ⟨hoverlap, hle⟩ => ⟨hoverlap, Nat.le_antisymm (matchLen_le_dist hoverlap) hle⟩
  · have haccepted := find_accepted hpos
    exact ⟨haccepted.reaches, haccepted.nearest⟩

end Sys2Proof.Machine

/-! # LOOKAHEAD keeps a match that ends the data (42_lookahead R175) -/

namespace Sys2Proof.Machine

section
variable {overlap : Bool} {R : Nat → Byte} {n c lb : Nat}

theorem one_le_normalizeLen (l : Nat) : 1 ≤ normalizeLen l := by
  unfold normalizeLen
  split
  · exact Nat.le_refl 1
  · next hlong => exact Nat.one_le_of_lt (Nat.lt_of_not_le hlong)

theorem normalizeLen_le_max (l : Nat) : normalizeLen l ≤ max 1 l := by
  unfold normalizeLen
  split
  · exact Nat.le_max_left 1 l
  · exact Nat.le_max_right 1 l

theorem lookahead_of_room (h : c + lb < n) :
    lookahead overlap R n c lb = lookDrops lb (some (lookLengthsAt overlap R n c lb)) := by
  rw [lookahead, lookLengths, if_pos h]

/-- R171: without room, KEEP. -/
theorem lookahead_of_no_room (h : n ≤ c + lb) : lookahead overlap R n c lb = false := by
  rw [lookahead, lookLengths, if_neg (Nat.not_lt.mpr h)]
  rfl

/-- R175's reason: one byte later only `lb - 1` bytes remain, so len_post is below `lb`, and len_next counts as 1 at
least. -/
theorem lookDrops_of_match_ends_data (hlb : 2 ≤ lb) (hend : c + lb = n) :
    lookDrops lb (some (lookLengthsAt overlap R n c lb)) = false := by
  have hpostFits : c + 1 + (find overlap R n (c + 1)).1 ≤ n := find_le (by omega)
  have hpost := normalizeLen_le_max (find overlap R n (c + 1)).1
  have hnext := one_le_normalizeLen (find overlap R n (c + lb)).1
  exact decide_eq_false (show ¬ lb + normalizeLen _ ≤ 1 + normalizeLen _ by omega)

end

/-- Settles O26: a match of FIND leaves room or ends the data, and one that ends the data is kept either way. -/
theorem lookaheadRoomTestIrrelevant : Obligations.LookaheadRoomTestIrrelevant := by
  intro overlap R n c hc hmatch
  obtain hroom | hend := (find_le (overlap := overlap) (R := R) (Nat.le_of_lt hc)).lt_or_eq
  · exact lookahead_of_room hroom
  · exact (lookahead_of_no_room hend.ge).trans (lookDrops_of_match_ends_data (Nat.le_of_lt hmatch) hend).symm

end Sys2Proof.Machine

/-! # The packer of ENCODE: O27, O28, O29 and O30 (43_flag_packer R180 to R185) -/

namespace Sys2Proof.Machine

/-! ## The flag byte (R181, R185) -/

theorem foldFlag_false (f : Byte) : foldFlag f false = f <<< (1 : Nat) := BitVec.or_zero

theorem foldFlag_true (f : Byte) : foldFlag f true = f <<< (1 : Nat) ||| 1 := rfl

theorem foldFlag_getLsbD_zero (f : Byte) (b : Bool) : (foldFlag f b).getLsbD 0 = b := by
  cases b <;> simp [foldFlag]

/-- A fold moves every earlier flag one place up. -/
theorem foldFlag_getLsbD_succ (f : Byte) (b : Bool) {i : Nat} (hi : i + 1 < 8) :
    (foldFlag f b).getLsbD (i + 1) = f.getLsbD i := by
  cases b <;> simp [foldFlag, hi, BitVec.getLsbD_eq_getElem (Nat.lt_of_succ_lt hi)]

theorem padFlag_getLsbD_of_lt (f : Byte) {k i : Nat} (hi : i < 8 - k) : (padFlag f k).getLsbD i = false := by
  simp [padFlag, hi]

/-- Padding lifts the last of `k` flags to bit `8 - k`. -/
theorem padFlag_getLsbD_add (f : Byte) {k i : Nat} (hi : 8 - k + i < 8) :
    (padFlag f k).getLsbD (8 - k + i) = f.getLsbD i := by
  simp [padFlag, hi, BitVec.getLsbD_eq_getElem (show i < 8 by omega)]

/-- Folded from 0, the last flag stands in bit 0 and the others above it in order. -/
theorem foldl_foldFlag_getLsbD (flags : List Bool) {i : Nat} (hi : i < 8) :
    (flags.foldl foldFlag 0).getLsbD i = flags.reverse.getD i false := by
  induction flags using List.reverseRecOn generalizing i with
  | nil => simp
  | append_singleton flags b ih =>
    rw [List.foldl_concat, List.reverse_concat]
    cases i with
    | zero => exact foldFlag_getLsbD_zero _ b
    | succ i => exact (foldFlag_getLsbD_succ _ b hi).trans (ih (Nat.lt_of_succ_lt hi))

/-- Settles O30: flag j stands k - 1 - j places above the last of the k flags, which padding lifts to bit 8 - k; the
bits below are the padding's zeros. -/
theorem flagByteIsMsbFirst : Obligations.FlagByteIsMsbFirst := by
  intro flags hlen j hj
  obtain hused | hunused := Nat.lt_or_ge j flags.length
  · have hplace : 7 - j = 8 - flags.length + (flags.length - 1 - j) := by omega
    rw [tokenBit, hplace, padFlag_getLsbD_add _ (by omega), foldl_foldFlag_getLsbD flags (by omega),
      List.getD_reverse _ (by omega), Nat.sub_sub_self (by omega)]
  · rw [tokenBit, padFlag_getLsbD_of_lt _ (by omega), List.getD_eq_default _ _ hunused]

/-! ## What the packer writes in WORK (R180 to R183) -/

section
variable (s : State)

/-- WORK after a write at `i` and then one at `k`. -/
theorem workByte_set_set {s t : State} {i k : Nat} {b c : Byte}
    (h : t.work = Memory.set (Memory.set s.work i b) k c) (g : t.bufGen = s.bufGen) (j : Nat) :
    t.workByte j = if j = k then c else if j = i then b else s.workByte j := by
  rw [State.workByte, State.workByte, h, g, Memory.get_set, Memory.get_set]
  split
  · rfl
  · split <;> rfl

theorem openGroup_workByte (f : Byte) (a : Nat) :
    (openGroup f s).workByte a = if a = s.wp.toNat then f else s.workByte a :=
  workByte_set (openGroup_work s f) rfl a

theorem flagFold_workByte (b : Bool) (a : Nat) :
    (flagFold b s).workByte a =
      if a = s.fp.toNat then foldFlag (s.workByte s.fp.toNat) b else s.workByte a :=
  workByte_set (flagFold_work s b) rfl a

theorem emitLit_workByte (b : Byte) (a : Nat) :
    (emitLit b s).workByte a = if a = s.wp.toNat then b else (flagFold false s).workByte a :=
  workByte_set (putLit_work (flagFold false s) b) rfl a

theorem emitMatch_workByte (len dist a : Nat) :
    (emitMatch len dist s).workByte a = if a = s.wp.toNat + 1 then matchByte1 dist
      else if a = s.wp.toNat then matchByte0 len dist else (flagFold true s).workByte a :=
  workByte_set_set (putMatch_work (flagFold true s) len dist) rfl a

/-- A record's bytes as R183 writes them (O4). -/
theorem matchBytes_of_wf {len dist : Nat} (hwf : (Instr.matchToken len dist).wf = true) :
    matchByte0 len dist = BitVec.ofNat 8 ((len - 3) <<< 4 ||| (dist - 3) >>> 8) ∧
    matchByte1 dist = BitVec.ofNat 8 ((dist - 3) &&& 0xFF) := by
  simp only [Instr.wf, Bool.and_eq_true, decide_eq_true_eq] at hwf
  obtain ⟨⟨⟨hlenMin, hlenMax⟩, hdistMin⟩, hdistMax⟩ := hwf
  obtain ⟨h0, h1⟩ := matchRecordFields.1 len dist hlenMin hlenMax hdistMin hdistMax
  rw [← h0, ← h1, BitVec.ofNat_toNat, BitVec.ofNat_toNat, BitVec.setWidth_eq, BitVec.setWidth_eq]
  exact ⟨rfl, rfl⟩

/-! ## What the packer leaves unchanged -/

/-- What no packer operation writes: the cut, FIND's and LOOKAHEAD's results, and all that is not the encoder's. -/
abbrev SameBesidePacker (s t : State) : Prop :=
  t.pakTmp = s.pakTmp ∧ t.rawTmp = s.rawTmp ∧ t.lb = s.lb ∧ t.db = s.db ∧ t.ln = s.ln ∧ t.lp = s.lp ∧
  SameHostRegs s t ∧ SameSrc s t ∧ SameDst s t ∧ SameLatches s t ∧ SameDecoder s t ∧ SamePlace s t ∧ SameOutside s t

/-- The packer's operations write WORK, wp, fp, cur and gk alone. -/
theorem sameBesidePacker (work : Memory) (wp fp : BitVec 25) (cur : BitVec 24) (gk : BitVec 4) :
    SameBesidePacker s { s with work := work, wp := wp, fp := fp, cur := cur, gk := gk } :=
  ⟨rfl, rfl, rfl, rfl, rfl, rfl, ⟨rfl, rfl, rfl, rfl, rfl, rfl, rfl, rfl⟩, fun _ => rfl, fun _ => rfl,
    ⟨rfl, rfl, rfl, rfl, rfl⟩, ⟨rfl, rfl, rfl, rfl⟩, ⟨rfl, rfl⟩, ⟨rfl, rfl, rfl, rfl, rfl, rfl⟩⟩

/-- A register moved on by `n`, wrapping at its width. -/
theorem ofNat_toNat_add {w : Nat} (x : BitVec w) (n : Nat) :
    BitVec.ofNat w (x.toNat + n) = x + BitVec.ofNat w n := by
  rw [BitVec.ofNat_add, BitVec.ofNat_toNat, BitVec.setWidth_eq]

end

/-! ## Tokens and flag bytes in ENCODE -/

section
variable {s : State} (hop : s.lOp = 0)
include hop

theorem encoding_eq_true : s.encoding = true := decide_eq_true hop

theorem exec_lit_of_encode (b : Byte) : exec (.lit b) s = .next (emitLit b s) := by
  rw [exec_lit, litEffect, if_pos (encoding_eq_true hop)]

theorem exec_matchToken_of_encode (len dist : Nat) :
    exec (.matchToken len dist) s = .next (emitMatch len dist s) := by
  rw [exec_matchToken, matchEffect, if_pos (encoding_eq_true hop)]

theorem exec_flag_of_encode (f : Byte) : exec (.flag f) s = .next (openGroup f s) := by
  rw [exec_flag, flagEffect, if_pos (encoding_eq_true hop)]

end

/-- Settles O27: the byte is written over WORK with flag 0 folded. -/
theorem encodeEmitsLiteral : Obligations.EncodeEmitsLiteral := by
  intro s b hop
  refine ⟨emitLit b s, exec_lit_of_encode hop b, fun a => ?_, ofNat_toNat_add s.wp 1, ofNat_toNat_add s.cur 1,
    ofNat_toNat_add s.gk 1, rfl, sameBesidePacker s ..⟩
  rw [emitLit_workByte, flagFold_workByte, foldFlag_false]

/-- Settles O28: the record is written over WORK with flag 1 folded. -/
theorem encodeEmitsMatch : Obligations.EncodeEmitsMatch := by
  intro s len dist hop hwf
  obtain ⟨hbyte0, hbyte1⟩ := matchBytes_of_wf hwf
  refine ⟨emitMatch len dist s, exec_matchToken_of_encode hop len dist, fun a => ?_, ofNat_toNat_add s.wp 2,
    BitVec.toNat_ofNat .., ofNat_toNat_add s.gk 1, rfl, sameBesidePacker s ..⟩
  rw [emitMatch_workByte, flagFold_workByte, foldFlag_true, hbyte0, hbyte1]

/-- Settles O29: opening a group is one write at the old write index. -/
theorem encodeOpensGroup : Obligations.EncodeOpensGroup := by
  intro s f hop
  exact ⟨openGroup f s, exec_flag_of_encode hop f, openGroup_workByte s f, rfl, ofNat_toNat_add s.wp 1, rfl, rfl,
    sameBesidePacker s ..⟩

end Sys2Proof.Machine

/-! # The frame builder of ENCODE: O31, O32, O33 and O34 (44_frame_builder R202 to R210) -/

namespace Sys2Proof.Machine

section
variable {s : State}

/-! ## Trailers in ENCODE -/

theorem exec_trailerStored_of_encode (hop : s.lOp = 0) : exec .trailerStored s = .next (emitStored s) := by
  rw [exec_trailerStored, trailerStoredEffect, if_pos (encoding_eq_true hop)]

theorem exec_trailerCompressed_of_encode (hop : s.lOp = 0) (enc : BitVec 24) (hdr : Byte) (inc : Word) :
    exec (.trailerCompressed enc hdr inc) s = .next (emitCompressed enc hdr inc s) := by
  rw [exec_trailerCompressed, trailerCompressedEffect, if_pos (encoding_eq_true hop)]

/-- The parts of the state that both frames' ends report alike (45_commands R237), and what they leave unchanged. -/
theorem completeEncode_reports (out : List Byte) (frame : Bool) (s : State) :
    let t := completeEncode out frame s
    t.cutPak.toNat = s.pakTmp.toNat ∧ t.cutRaw.toNat = s.rawTmp.toNat ∧ t.pakLen.toNat = s.wp.toNat ∧
    t.status = statusDone frame false false ∧ t.phase = .idle ∧ t.ctrl = s.ctrl ∧ t.srcLen = s.srcLen ∧
    t.expLen = s.expLen ∧ SameSrc s t ∧ SameWork s t ∧ SameLatches s t ∧ SameEncoder s t ∧ SameDecoder s t ∧
    SameOutside s t := by
  have hpak := s.pakTmp.isLt
  have hraw := s.rawTmp.isLt
  have hwp := s.wp.isLt
  refine ⟨?_, ?_, ?_, rfl, rfl, rfl, rfl, rfl, fun _ => rfl, fun _ => rfl, ⟨rfl, rfl, rfl, rfl, rfl⟩,
    ⟨rfl, rfl, rfl, rfl, rfl, rfl, rfl, rfl, rfl, rfl⟩, ⟨rfl, rfl, rfl, rfl⟩, ⟨rfl, rfl, rfl, rfl, rfl, rfl⟩⟩
  · exact (BitVec.toNat_ofNat ..).trans (Nat.mod_eq_of_lt (by omega))
  · exact (BitVec.toNat_ofNat ..).trans (Nat.mod_eq_of_lt (by omega))
  · exact (BitVec.toNat_ofNat ..).trans (Nat.mod_eq_of_lt (by omega))

theorem completeEncode_dstLen {out : List Byte} (frame : Bool) (hout : out.length < 2 ^ 32) :
    (completeEncode out frame s).dstLen.toNat = out.length :=
  (BitVec.toNat_ofNat ..).trans (Nat.mod_eq_of_lt hout)

/-! ## The bytes of a frame -/

/-- A result byte, as a byte of the part of the output it stands in. -/
theorem dstByte_completeEncode {out front part rest : List Byte} (frame : Bool) (hout : front ++ (part ++ rest) = out)
    {i a : Nat} {b : Byte} (hi : front.length + a = i) (hpart : part[a]? = some b) :
    (completeEncode out frame s).dstByte i = b := by
  obtain ⟨ha, -⟩ := List.getElem?_eq_some_iff.1 hpart
  have hbyte : out[i]? = some b := by
    rw [← hout, ← hi, List.getElem?_append_right (Nat.le_add_right ..), Nat.add_sub_cancel_left,
      List.getElem?_append_left ha, hpart]
  obtain ⟨hlt, hget⟩ := List.getElem?_eq_some_iff.1 hbyte
  exact (dstByte_complete _ _ _ _ _ _ _ _ i hlt).trans hget

theorem srcBytes_getElem? {a n k : Nat} (hk : k < n) : (s.srcBytes a n)[k]? = some (s.srcByte (a + k)) := by
  rw [List.getElem?_eq_getElem (by simpa using hk), srcBytes_getElem]

theorem rev_workBytes_getElem? {n k : Nat} (hk : k < n) :
    (rev (s.workBytes n))[k]? = some (s.workByte (n - 1 - k)) := by
  rw [rev, List.getElem?_reverse (by simpa using hk), workBytes_length,
    List.getElem?_eq_getElem (by rw [workBytes_length]; omega), workBytes_getElem]

/-- Byte `k` of a little-endian field is its bits 8k+7 to 8k. -/
theorem leBytes_toNat_getElem? {w n k : Nat} (x : BitVec w) (hk : k < n) :
    (leBytes n x.toNat)[k]? = some (x.extractLsb' (8 * k) 8) := by
  rw [leBytes_getElem?, if_pos hk]
  refine congrArg some (BitVec.eq_of_toNat_eq ?_)
  rw [BitVec.extractLsb'_toNat, BitVec.toNat_ofNat, Nat.shiftRight_eq_div_pow, pow_mul, show 2 ^ 8 = 256 from rfl]

theorem storedFrame_eq (raw : List Byte) :
    storedFrame raw = raw ++ List.replicate (align4 raw.length - raw.length + 4) 0 := by
  rw [List.replicate_add, ← List.append_assoc]
  rfl

theorem emitStored_srcPart {a : Nat} (ha : a < s.lLen.toNat) : (emitStored s).dstByte a = s.srcByte a := by
  refine dstByte_completeEncode (front := []) (part := s.srcBytes 0 s.lLen.toNat) _ (storedFrame_eq _).symm
    (Nat.zero_add a) ?_
  rw [srcBytes_getElem? ha, Nat.zero_add]

theorem emitStored_zeroPart {a : Nat} (hlow : s.lLen.toNat ≤ a) (hhigh : a < align4 s.lLen.toNat + 4) :
    (emitStored s).dstByte a = 0 := by
  refine dstByte_completeEncode (a := a - s.lLen.toNat) (rest := []) _
    ((congrArg _ (List.append_nil _)).trans (storedFrame_eq _).symm) (by rw [srcBytes_length]; omega) ?_
  rw [srcBytes_length, List.getElem?_replicate_of_lt (by omega)]

/-- Settles O31: the pad and the trailer are one run of zeros after the input. -/
theorem encodeWritesStoredFrame : Obligations.EncodeWritesStoredFrame := by
  intro s hop hmax
  have hlen : (storedFrame (s.srcBytes 0 s.lLen.toNat)).length = align4 s.lLen.toNat + 4 := by
    rw [storedFrame_length, srcBytes_length]
  have hfits : align4 s.lLen.toNat < s.lLen.toNat + 4 := align4_lt _
  have hraw : Config.rawMax = 16777215 := rfl
  refine ⟨emitStored s, exec_trailerStored_of_encode hop, ?_, fun a => emitStored_srcPart,
    fun a => emitStored_zeroPart, completeEncode_reports ..⟩
  exact (completeEncode_dstLen false (by omega)).trans hlen

/-- Where the parts of a compressed frame stand (R204 to R208). -/
theorem emitCompressed_bytes (s : State) (enc : BitVec 24) (hdr : Byte) (inc : Word) :
    let t := emitCompressed enc hdr inc s
    let raw := s.rawTmp.toNat
    let pak := s.pakTmp.toNat
    let z := raw + pak + (hdr.toNat - 8)
    (∀ a < raw, t.dstByte a = s.srcByte a) ∧
    (∀ a < pak, t.dstByte (raw + a) = s.workByte (pak - 1 - a)) ∧
    (∀ a < hdr.toNat - 8, t.dstByte (raw + pak + a) = 0xFF) ∧
    (∀ a < 3, t.dstByte (z + a) = enc.extractLsb' (8 * a) 8) ∧ t.dstByte (z + 3) = hdr ∧
    (∀ a < 4, t.dstByte (z + 4 + a) = inc.extractLsb' (8 * a) 8) := by
  let verbatim := s.srcBytes 0 s.rawTmp.toNat
  let kept := rev (s.workBytes s.pakTmp.toNat)
  let pad : List Byte := List.replicate (hdr.toNat - 8) 0xFF
  let encBytes := leBytes 3 enc.toNat
  let incBytes := leBytes 4 inc.toNat
  have hframe : verbatim ++ (kept ++ (pad ++ (encBytes ++ ([hdr] ++ incBytes)))) =
      compressedFrame verbatim (s.workBytes s.pakTmp.toNat) enc hdr inc := by
    simp [compressedFrame, payloadBytes, kept, pad, encBytes, incBytes]
  refine ⟨fun a ha => ?_, fun a ha => ?_, fun a ha => ?_, fun a ha => ?_, ?_, fun a ha => ?_⟩
  · exact dstByte_completeEncode (front := []) _ hframe (Nat.zero_add a)
      ((srcBytes_getElem? ha).trans (by rw [Nat.zero_add]))
  · exact dstByte_completeEncode (front := verbatim) _ hframe (by simp [verbatim]) (rev_workBytes_getElem? ha)
  · exact dstByte_completeEncode (front := verbatim ++ kept) (part := pad) _ (by simpa using hframe)
      (by simp [verbatim, kept, Nat.add_assoc]) (List.getElem?_replicate_of_lt ha)
  · exact dstByte_completeEncode (front := verbatim ++ kept ++ pad) (part := encBytes) _ (by simpa using hframe)
      (by simp [verbatim, kept, pad, Nat.add_assoc]) (leBytes_toNat_getElem? enc ha)
  · exact dstByte_completeEncode (front := verbatim ++ kept ++ pad ++ encBytes) (a := 0) (part := [hdr]) _
      (by simpa using hframe) (by simp [verbatim, kept, pad, encBytes, Nat.add_assoc]) rfl
  · exact dstByte_completeEncode (front := verbatim ++ kept ++ pad ++ encBytes ++ [hdr]) (part := incBytes) (rest := []) _
      (by simpa using hframe) (by simp [verbatim, kept, pad, encBytes, Nat.add_assoc]) (leBytes_toNat_getElem? inc ha)

/-- Settles O32: each byte of the frame stands in one of its six parts. -/
theorem encodeWritesCompressedFrame : Obligations.EncodeWritesCompressedFrame := by
  intro s enc hdr inc hop hmin hmax
  have hpak := s.pakTmp.isLt
  have hraw := s.rawTmp.isLt
  have hlen : (compressedFrame (s.srcBytes 0 s.rawTmp.toNat) (s.workBytes s.pakTmp.toNat) enc hdr inc).length =
      s.rawTmp.toNat + s.pakTmp.toNat + hdr.toNat := by
    rw [compressedFrame_length, srcBytes_length, workBytes_length]
    omega
  refine ⟨emitCompressed enc hdr inc s, exec_trailerCompressed_of_encode hop enc hdr inc, ⟨?_, emitCompressed_bytes ..⟩,
    completeEncode_reports ..⟩
  exact (completeEncode_dstLen true (by omega)).trans hlen

end

/-! ## SELECT (R202, R206 to R210) -/

theorem headerLenOf_bounds (q : Nat) : 8 ≤ headerLenOf q ∧ headerLenOf q ≤ 11 := by
  have := align4_lt q
  unfold headerLenOf
  omega

/-- R206: with the header the cut is a multiple of 4, 8 bytes past align4(q). -/
theorem add_headerLenOf (q : Nat) : q + headerLenOf q = align4 q + 8 := by
  have := le_align4 q
  unfold headerLenOf
  omega

section
variable {s : State}

theorem selectTrailer_eq_stored_iff : selectTrailer s = .trailerStored ↔
    selectsStored s.params.roundtripGuard s.lLen.toNat s.pakTmp.toNat s.cutSize = true := by
  unfold selectTrailer
  dsimp only
  split
  · next h => exact iff_of_true rfl h
  · next h => exact iff_of_false nofun h

theorem selectsStored_iff (guard : Bool) (n pak q : Nat) : selectsStored guard n pak q = true ↔
    pak = 0 ∨ n + 4 < align4 q + 8 ∨ (guard = true ∧ guardTrips n pak q = true) := by
  simp [selectsStored, or_assoc]

/-- What SELECT has seen when it picks the compressed frame, and the fields it gives its trailer (R202, R206 to
R208). -/
theorem selectTrailer_compressed {enc : BitVec 24} {hdr : Byte} {inc : Word}
    (h : selectTrailer s = .trailerCompressed enc hdr inc) :
    0 < s.pakTmp.toNat ∧ align4 s.cutSize + 8 ≤ s.lLen.toNat + 4 ∧
    enc = BitVec.ofNat 24 (s.pakTmp.toNat + headerLenOf s.cutSize) ∧ hdr = BitVec.ofNat 8 (headerLenOf s.cutSize) ∧
    inc = BitVec.ofInt 32 (increaseLenOf s.lLen.toNat s.cutSize) := by
  unfold selectTrailer at h
  dsimp only at h
  split at h
  · cases h
  · next hselect =>
    rw [selectsStored_iff, not_or, not_or] at hselect
    obtain ⟨hpak, hlen, -⟩ := hselect
    injection h with henc hhdr hinc
    exact ⟨Nat.pos_of_ne_zero hpak, Nat.le_of_not_lt hlen, henc.symm, hhdr.symm, hinc.symm⟩

/-- R208: the increase is small enough that 32 bits hold it with its sign. -/
theorem increaseLenOf_toInt {n q : Nat} (hn : n ≤ Config.rawMax) (hq : 0 < q) (hlen : align4 q + 8 ≤ n + 4) :
    (BitVec.ofInt 32 (increaseLenOf n q)).toInt = increaseLenOf n q ∧ -4 ≤ increaseLenOf n q ∧
    increaseLenOf n q ≤ (n : Int) - 12 := by
  have hraw : Config.rawMax = 16777215 := rfl
  have hframe := add_headerLenOf q
  have hmod := align4_mod q
  have hle := le_align4 q
  have hinc : increaseLenOf n q = n - (align4 q + 8 : Nat) := by unfold increaseLenOf; omega
  rw [hinc]
  refine ⟨?_, by omega, by omega⟩
  rw [BitVec.toInt_ofInt]
  exact Int.bmod_eq_of_le (by omega) (by omega)

end

/-- R208: the increase as a number of 32 bits is the difference modulo 2^32. -/
theorem increaseLenOf_toNat (n q : Nat) :
    ((BitVec.ofInt 32 (increaseLenOf n q)).toNat : Int) = increaseLenOf n q % 2 ^ 32 := by
  rw [BitVec.toNat_ofInt]
  exact Int.toNat_of_nonneg (Int.emod_nonneg _ (by decide))

/-- Settles O33: the header brings the frame to align4(q) + 8, which SELECT found no longer than n + 4. -/
theorem selectedTrailerFields : Obligations.SelectedTrailerFields := by
  intro s enc hdr inc hmax hselect
  obtain ⟨hpak, hlen, rfl, rfl, rfl⟩ := selectTrailer_compressed hselect
  have hraw : Config.rawMax = 16777215 := rfl
  have hcut : s.cutSize = s.rawTmp.toNat + s.pakTmp.toNat := Nat.add_comm ..
  have hhdr : (BitVec.ofNat 8 (headerLenOf s.cutSize)).toNat = headerLenOf s.cutSize := headerLenOf_toNat s.cutSize
  have henc : (BitVec.ofNat 24 (s.pakTmp.toNat + headerLenOf s.cutSize)).toNat =
      (s.pakTmp.toNat + headerLenOf s.cutSize) % 2 ^ 24 := BitVec.toNat_ofNat ..
  have hframe := add_headerLenOf s.cutSize
  have hmod := align4_mod s.cutSize
  obtain ⟨hmin, hmaxHdr⟩ := headerLenOf_bounds s.cutSize
  obtain ⟨hinc, hlow, hhigh⟩ := increaseLenOf_toInt hmax (show 0 < s.cutSize by omega) hlen
  have hincNat := increaseLenOf_toNat s.lLen.toNat s.cutSize
  have hexact : increaseLenOf s.lLen.toNat s.cutSize =
      (s.lLen.toNat : Int) - s.pakTmp.toNat - s.rawTmp.toNat - headerLenOf s.cutSize := by
    rw [increaseLenOf, hcut]
    omega
  dsimp only
  rw [← hcut, hhdr, henc, hinc]
  refine ⟨rfl, hmin, hmaxHdr, by omega, rfl, hexact, hlow, hhigh, fun hfits => ⟨?_, ?_⟩⟩
  · rw [Nat.mod_eq_of_lt hfits]
    omega
  · rw [Nat.mod_eq_of_lt hfits]
    omega

/-- R210: a multiple of 4 is above n + 4 exactly when it is at least align4(n) + 4, but for the tie, which is above
exactly if n is no multiple of 4. -/
theorem lt_align4_iff (n q : Nat) : n + 4 < align4 q + 8 ↔
    align4 n + 4 < align4 q + 8 ∨ (align4 n + 4 = align4 q + 8 ∧ n % 4 ≠ 0) := by
  unfold align4
  omega

/-- SELECT without the guard, once there is a cut. -/
theorem selectsStored_without_guard {pak : Nat} (hpak : 0 < pak) (n q : Nat) :
    selectsStored false n pak q = true ↔ n + 4 < align4 q + 8 := by
  simp [selectsStored, Nat.ne_of_gt hpak]

theorem selectsStored_with_guard {pak : Nat} (hpak : 0 < pak) (n q : Nat) : selectsStored true n pak q = true ↔
    n + 4 < align4 q + 8 ∨ increaseLenOf n q % (2 ^ 32 : Int) = 0 ∨ 2 ^ 24 ≤ pak + headerLenOf q := by
  simp [selectsStored, guardTrips, Nat.ne_of_gt hpak]

/-- The frame that SELECT closes with brings its length to align4(q) + 8 (R206, R208). -/
theorem compressedFrame_length_of_headerLenOf {verbatim kept : List Byte} (enc : BitVec 24) {hdr : Byte} (inc : Word)
    (hhdr : hdr.toNat = headerLenOf (kept.length + verbatim.length)) :
    (compressedFrame verbatim kept enc hdr inc).length = align4 (kept.length + verbatim.length) + 8 := by
  have hframe := add_headerLenOf (kept.length + verbatim.length)
  have hmin := (headerLenOf_bounds (kept.length + verbatim.length)).1
  rw [compressedFrame_length]
  omega

/-- Settles O34: SELECT compares n + 4 with Tc, a multiple of 4, which compares the two lengths and breaks their tie by
n mod 4. -/
theorem selectorEmitsShorterFrame : Obligations.SelectorEmitsShorterFrame := by
  refine ⟨fun s => ?_, fun raw kept verbatim enc hdr inc hkept hhdr => ?_⟩
  · have hselect := selectTrailer_eq_stored_iff (s := s)
    have htie := lt_align4_iff s.lLen.toNat (s.pakTmp.toNat + s.rawTmp.toNat)
    refine ⟨fun hpak => hselect.2 ((selectsStored_iff ..).2 (.inl hpak)), fun hpak hguard => ?_, fun hpak hguard => ?_⟩
    · rw [hguard, selectsStored_without_guard hpak] at hselect
      exact ⟨hselect, fun hshorter => hselect.2 (htie.2 (.inl hshorter)),
        fun hlonger hstored => absurd (htie.1 (hselect.1 hstored)) (by omega),
        fun heq => hselect.trans (htie.trans (by omega))⟩
    · rw [hguard, selectsStored_with_guard hpak] at hselect
      exact hselect
  · have hTs := storedFrame_length raw
    have hTc := compressedFrame_length_of_headerLenOf enc inc hhdr
    have hstored := selectsStored_without_guard hkept raw.length (kept.length + verbatim.length)
    have htie := lt_align4_iff raw.length (kept.length + verbatim.length)
    dsimp only
    rw [hTs, hTc]
    refine ⟨rfl, rfl, ?_, fun heq => hstored.trans (htie.trans (by omega))⟩
    split
    · next h =>
      have := htie.1 (hstored.1 h)
      omega
    · next h =>
      have := mt (hstored.2 ∘ htie.2) h
      omega

end Sys2Proof.Machine

/-! # A frame that ENCODE made decodes to its input: O46 (44_frame_builder R212, 46_frame_reader R274) -/

namespace Sys2Proof.Machine

/-! ## Reading a stream

DECODE's turns and the tokens of ENCODE are the same steps over the final stream: ENCODE adds one at the end of the
path, DECODE takes one from its start. -/

/-- Where a reader stands in the stream: its next byte, the count of output bytes, the tokens of the group that are used
up, and the index of the group's flag byte. -/
structure Cursor where
  ip : Nat
  oc : Nat
  dk : Nat
  fp : Nat

/-- `len` bytes from index `c` on repeat those `dist` before them (41_match_finder R152). -/
def Repeats (R : Nat → Byte) (c len dist : Nat) : Prop := dist ≤ c ∧ ∀ k < len, R (c + k) = R (c + k - dist)

/-- One flag byte or token of the stream `W`, read while it gives the bytes of `R` (46_frame_reader R268 to R270). -/
inductive ReadStep (W R : Nat → Byte) : Cursor → Cursor → Prop
  | flag {ip oc fp : Nat} : ReadStep W R ⟨ip, oc, 8, fp⟩ ⟨ip + 1, oc, 0, ip⟩
  | lit {ip oc dk fp : Nat} (hdk : dk < 8) (hflag : tokenBit (W fp) dk = false) (hbyte : W ip = R oc) :
      ReadStep W R ⟨ip, oc, dk, fp⟩ ⟨ip + 1, oc + 1, dk + 1, fp⟩
  | copy {ip oc dk fp len dist : Nat} (hdk : dk < 8) (hflag : tokenBit (W fp) dk = true)
      (hwf : (Instr.matchToken len dist).wf = true) (hbyte0 : W ip = matchByte0 len dist)
      (hbyte1 : W (ip + 1) = matchByte1 dist) (hrepeats : Repeats R oc len dist) :
      ReadStep W R ⟨ip, oc, dk, fp⟩ ⟨ip + 2, oc + len, dk + 1, fp⟩

/-- A reader of `W` gets from the stream's start to `c` with the bytes of `R` as its output. -/
def ReadsTo (W R : Nat → Byte) (c : Cursor) : Prop :=
  ∃ fp, Relation.ReflTransGen (ReadStep W R) ⟨0, 0, 8, fp⟩ c

theorem ReadsTo.step {W R : Nat → Byte} {c c' : Cursor} (h : ReadsTo W R c) (hstep : ReadStep W R c c') :
    ReadsTo W R c' := by
  obtain ⟨fp, hpath⟩ := h
  exact ⟨fp, hpath.tail hstep⟩

/-! ## The stream that WORK becomes -/

/-- The flag folded last is the last of the padded byte; the earlier ones stay where they were. -/
theorem tokenBit_padFlag_foldFlag (f : Byte) (b : Bool) {k j : Nat} (hk : k < 8) (hj : j ≤ k) :
    tokenBit (padFlag (foldFlag f b) (k + 1)) j = if j = k then b else tokenBit (padFlag f k) j := by
  have hplace : 7 - j = 8 - (k + 1) + (k - j) := by omega
  rw [tokenBit, hplace, padFlag_getLsbD_add _ (by omega)]
  split
  · next heq => rw [heq, Nat.sub_self, foldFlag_getLsbD_zero]
  · next hne =>
    have hearlier : 7 - j = 8 - k + (k - j - 1) := by omega
    rw [show k - j = k - j - 1 + 1 by omega, foldFlag_getLsbD_succ _ _ (by omega), tokenBit, hearlier,
      padFlag_getLsbD_add _ (by omega)]

theorem padFlag_full (f : Byte) : padFlag f 8 = f := by simp [padFlag]

/-- `W` is a stream that WORK[0..wp) can become: only the flags of the open group's tokens to come are not settled. -/
structure MayBecome (s : State) (W : Nat → Byte) : Prop where
  settled : ∀ a < s.wp.toNat, a ≠ s.fp.toNat → W a = s.workByte a
  flags : s.fp.toNat < s.wp.toNat → ∀ j < s.gk.toNat,
    tokenBit (W s.fp.toNat) j = tokenBit (padFlag (s.workByte s.fp.toNat) s.gk.toNat) j

/-- Where a reader stands once it has read the stream so far. -/
def State.packed (s : State) : Cursor := ⟨s.wp.toNat, s.cur.toNat, s.gk.toNat, s.fp.toNat⟩

/-- A reader of the stream `W` gets to the cut with the input before the cut as its output. -/
def CutReads (W : Nat → Byte) (s : State) : Prop :=
  ∃ dk fp, ReadsTo W s.bottomUp ⟨s.pakTmp.toNat, s.lLen.toNat - s.rawTmp.toNat, dk, fp⟩

/-- Whatever the stream becomes, it reads back as the input so far, and up to the cut as the input before the cut. -/
def ReadsBack (s : State) : Prop :=
  ∀ W, MayBecome s W → ReadsTo W s.bottomUp s.packed ∧ CutReads W s

theorem bottomUp_congr {s t : State} (h : t.untouched = s.untouched) : t.bottomUp = s.bottomUp := by
  have hsrc : t.src = s.src := congrArg Untouched.src h
  have hgen : t.srcGen = s.srcGen := congrArg Untouched.srcGen h
  have hlen : t.lLen = s.lLen := congrArg Untouched.lLen h
  funext i
  rw [State.bottomUp, State.bottomUp, hlen, srcByte_congr hsrc hgen]

section
variable {s t : State}

/-- An operation of the packer that writes one flag byte or token keeps what has been read and adds a step to it. -/
theorem ReadsBack.step (h : ReadsBack s) (hu : t.untouched = s.untouched)
    (hcut : t.pakTmp = s.pakTmp ∧ t.rawTmp = s.rawTmp)
    (hstep : ∀ W, MayBecome t W → MayBecome s W ∧ ReadStep W s.bottomUp s.packed t.packed) : ReadsBack t := by
  intro W hW
  obtain ⟨hWs, hnext⟩ := hstep W hW
  obtain ⟨hread, hcutRead⟩ := h W hWs
  have hlen : t.lLen = s.lLen := congrArg Untouched.lLen hu
  rw [CutReads, bottomUp_congr hu, hcut.1, hcut.2, hlen]
  exact ⟨hread.step hnext, hcutRead⟩

/-- A new group's flag byte follows a full group, whose flags are settled (43_flag_packer R180). -/
theorem openGroup_readsBack (h : ReadsBack s) (hgk : s.gk = 8) (hwp : s.wp.toNat + 1 < 2 ^ 25) :
    ReadsBack (openGroup 0 s) := by
  have hwpNext : (openGroup 0 s).wp.toNat = s.wp.toNat + 1 := (BitVec.toNat_ofNat ..).trans (Nat.mod_eq_of_lt hwp)
  have hgkNat : s.gk.toNat = 8 := congrArg BitVec.toNat hgk
  refine h.step rfl ⟨rfl, rfl⟩ fun W hW => ?_
  have hbyte : ∀ a < s.wp.toNat, W a = s.workByte a := fun a ha => by
    have hne : a ≠ s.wp.toNat := Nat.ne_of_lt ha
    rw [hW.settled a (by omega) hne, openGroup_workByte, if_neg hne]
  refine ⟨⟨fun a ha _ => hbyte a ha, fun hfp j _ => ?_⟩, ?_⟩
  · rw [hbyte _ hfp, hgkNat, padFlag_full]
  · rw [State.packed, State.packed, hwpNext, hgkNat]
    exact .flag

/-- The packer's group is open for a token of `n` bytes (43_flag_packer R180). -/
structure RoomFor (s : State) (n : Nat) : Prop where
  gk : s.gk.toNat < 8
  fp : s.fp.toNat < s.wp.toNat
  wp : s.wp.toNat + n < 2 ^ 25

/-- A stream that holds after a token is emitted held before it, and shows the token's flag in its place. -/
theorem MayBecome.of_emit {n : Nat} {b : Bool} {W : Nat → Byte} (hroom : RoomFor s n) (hW : MayBecome t W)
    (hfp : t.fp = s.fp) (hgk : t.gk = BitVec.ofNat 4 (s.gk.toNat + 1)) (hwp : t.wp = BitVec.ofNat 25 (s.wp.toNat + n))
    (hwork : ∀ a < s.wp.toNat, t.workByte a = (flagFold b s).workByte a) :
    MayBecome s W ∧ tokenBit (W s.fp.toNat) s.gk.toNat = b := by
  obtain ⟨hgkLt, hfpLt, hwpLt⟩ := hroom
  have hgkNat : t.gk.toNat = s.gk.toNat + 1 := by rw [hgk, BitVec.toNat_ofNat]; omega
  have hwpNat : t.wp.toNat = s.wp.toNat + n := by rw [hwp, BitVec.toNat_ofNat]; omega
  have hflags : ∀ j ≤ s.gk.toNat, tokenBit (W s.fp.toNat) j =
      if j = s.gk.toNat then b else tokenBit (padFlag (s.workByte s.fp.toNat) s.gk.toNat) j := fun j hj => by
    have hnew := hW.flags (by rw [hfp]; omega) j (by omega)
    rw [hfp, hgkNat, hwork _ hfpLt, flagFold_workByte, if_pos rfl] at hnew
    exact hnew.trans (tokenBit_padFlag_foldFlag _ b hgkLt hj)
  refine ⟨⟨fun a ha hne => ?_, fun _ j hj => ?_⟩, ?_⟩
  · rw [hW.settled a (by omega) (by rwa [hfp]), hwork a ha, flagFold_workByte, if_neg hne]
  · rw [hflags j hj.le, if_neg (Nat.ne_of_lt hj)]
  · rw [hflags _ (Nat.le_refl _), if_pos rfl]

/-- Where the reader stands once it has read a token of `len` bytes of input in `n` bytes of payload. -/
theorem packed_of_emit {n len : Nat} (hroom : RoomFor s n) (hlen : s.cur.toNat + len < 2 ^ 24) (hfp : t.fp = s.fp)
    (hgk : t.gk = BitVec.ofNat 4 (s.gk.toNat + 1)) (hwp : t.wp = BitVec.ofNat 25 (s.wp.toNat + n))
    (hcur : t.cur = BitVec.ofNat 24 (s.cur.toNat + len)) :
    t.packed = ⟨s.wp.toNat + n, s.cur.toNat + len, s.gk.toNat + 1, s.fp.toNat⟩ := by
  obtain ⟨hgkLt, -, hwpLt⟩ := hroom
  rw [State.packed, hfp, hgk, hwp, hcur, BitVec.toNat_ofNat, BitVec.toNat_ofNat, BitVec.toNat_ofNat,
    Nat.mod_eq_of_lt hwpLt, Nat.mod_eq_of_lt hlen, Nat.mod_eq_of_lt (by omega)]

/-- A payload byte stands behind the open flag byte, so it is settled. -/
theorem MayBecome.payload {n i : Nat} {W : Nat → Byte} (hroom : RoomFor s n) (hW : MayBecome t W)
    (hfp : t.fp = s.fp) (hwp : t.wp = BitVec.ofNat 25 (s.wp.toNat + n)) (hi : i < n) :
    W (s.wp.toNat + i) = t.workByte (s.wp.toNat + i) := by
  obtain ⟨-, hfpLt, hwpLt⟩ := hroom
  refine hW.settled _ ?_ (by rw [hfp]; omega)
  rw [hwp, BitVec.toNat_ofNat, Nat.mod_eq_of_lt hwpLt]
  omega

/-- EMIT_LIT of the byte at the cursor (43_flag_packer R182). -/
theorem emitLit_readsBack (h : ReadsBack s) (hroom : RoomFor s 1) (hcur : s.cur.toNat + 1 < 2 ^ 24) :
    ReadsBack (emitLit (s.bottomUp s.cur.toNat) s) := by
  refine h.step rfl ⟨rfl, rfl⟩ fun W hW => ?_
  obtain ⟨hWs, hflag⟩ := hW.of_emit hroom rfl rfl rfl fun a ha => by
    rw [emitLit_workByte, if_neg (Nat.ne_of_lt ha)]
  have hbyte : W s.wp.toNat = s.bottomUp s.cur.toNat :=
    (hW.payload hroom rfl rfl Nat.one_pos).trans (by rw [emitLit_workByte, if_pos (Nat.add_zero _)])
  refine ⟨hWs, ?_⟩
  rw [packed_of_emit (t := emitLit _ s) hroom hcur rfl rfl rfl rfl]
  exact .lit hroom.gk hflag hbyte

/-- EMIT_MATCH of bytes that repeat the input before the cursor (43_flag_packer R183). -/
theorem emitMatch_readsBack (h : ReadsBack s) (hroom : RoomFor s 2) {len dist : Nat}
    (hcur : s.cur.toNat + len < 2 ^ 24) (hwf : (Instr.matchToken len dist).wf = true)
    (hrepeats : Repeats s.bottomUp s.cur.toNat len dist) : ReadsBack (emitMatch len dist s) := by
  refine h.step rfl ⟨rfl, rfl⟩ fun W hW => ?_
  obtain ⟨hWs, hflag⟩ := hW.of_emit hroom rfl rfl rfl fun a ha => by
    rw [emitMatch_workByte, if_neg (by omega), if_neg (Nat.ne_of_lt ha)]
  have hbyte0 : W s.wp.toNat = matchByte0 len dist :=
    (hW.payload hroom rfl rfl Nat.two_pos).trans (by
      rw [emitMatch_workByte, if_neg (by omega), if_pos (Nat.add_zero _)])
  have hbyte1 : W (s.wp.toNat + 1) = matchByte1 dist :=
    (hW.payload hroom rfl rfl Nat.one_lt_two).trans (by rw [emitMatch_workByte, if_pos rfl])
  refine ⟨hWs, ?_⟩
  rw [packed_of_emit (t := emitMatch len dist s) hroom hcur rfl rfl rfl rfl]
  exact .copy hroom.gk hflag hwf hbyte0 hbyte1 hrepeats

/-- CUT_TRACK moves the cut, if at all, to where the reader stands (44_frame_builder R201). -/
theorem cutTrack_readsBack (h : ReadsBack s) (henc : EncodeOk s) : ReadsBack (cutTrack s) := by
  obtain ⟨-, hmax, hcur, -, -, -, -, hpak0, hpakPos⟩ := henc
  have hraw : Config.rawMax = 16777215 := rfl
  unfold cutTrack
  split
  · next hbetter =>
    have hshort : s.pakTmp.toNat + s.rawTmp.toNat ≤ s.lLen.toNat := by
      by_cases h0 : s.pakTmp = 0
      · rw [hpak0 h0, h0]
        exact (Nat.zero_add _).le
      · exact (hpakPos h0).le
    intro W hW
    have hread : ReadsTo W s.bottomUp s.packed := (h W ⟨hW.settled, hW.flags⟩).1
    have hpakNat : (BitVec.ofNat 24 s.wp.toNat).toNat = s.wp.toNat := by rw [BitVec.toNat_ofNat]; omega
    have hrawNat : (BitVec.ofNat 24 (s.lLen.toNat - s.cur.toNat)).toNat = s.lLen.toNat - s.cur.toNat := by
      rw [BitVec.toNat_ofNat]; omega
    refine ⟨hread, s.gk.toNat, s.fp.toNat, ?_⟩
    dsimp only
    rw [hpakNat, hrawNat, Nat.sub_sub_self hcur]
    exact hread
  · exact h

theorem flagPad_workByte (s : State) (a : Nat) : (flagPad s).workByte a =
    if 1 ≤ s.gk.toNat ∧ s.gk.toNat ≤ 7 ∧ a = s.fp.toNat then padFlag (s.workByte a) s.gk.toNat
      else s.workByte a := by
  by_cases hopen : 1 ≤ s.gk.toNat ∧ s.gk.toNat ≤ 7
  · have hwork : (flagPad s).work = Memory.set s.work s.fp.toNat (padFlag (s.workByte s.fp.toNat) s.gk.toNat) := by
      rw [flagPad, if_pos hopen]
    rw [workByte_set hwork (flagPad_bufGen s)]
    by_cases ha : a = s.fp.toNat
    · rw [if_pos ha, if_pos ⟨hopen.1, hopen.2, ha⟩, ha]
    · rw [if_neg ha, if_neg fun h => ha h.2.2]
  · rw [flagPad, if_neg hopen, if_neg fun h => hopen ⟨h.1, h.2.1⟩]

/-- FLAG_PAD settles the last flag byte: WORK is then a stream it could become (43_flag_packer R185). -/
theorem flagPad_mayBecome (hgk : s.gk.toNat ≤ 8) : MayBecome s (flagPad s).workByte := by
  refine ⟨fun a _ hne => ?_, fun _ j hj => ?_⟩
  · rw [flagPad_workByte, if_neg fun h => hne h.2.2]
  · rw [flagPad_workByte]
    split
    · rfl
    · next hfull =>
      have h8 : s.gk.toNat = 8 := by omega
      rw [h8, padFlag_full]

/-! ## TOKEN_STEP -/

/-- The match in (lb, db) has an encoding and repeats the input before the cursor. -/
structure GoodMatch (s : State) : Prop where
  wf : (Instr.matchToken s.lb.toNat s.db.toNat).wf = true
  repeats : Repeats s.bottomUp s.cur.toNat s.lb.toNat s.db.toNat

/-- A match of FIND has an encoding and repeats earlier bytes (41_match_finder R152, R157). -/
theorem find_wf_repeats {overlap : Bool} {R : Nat → Byte} {n c : Nat} (hc : c ≤ n) (h : 0 < (find overlap R n c).1) :
    (Instr.matchToken (find overlap R n c).1 (find overlap R n c).2).wf = true ∧
      Repeats R c (find overlap R n c).1 (find overlap R n c).2 := by
  obtain ⟨hlenMin, hlenMax, hdistMin, hdistMax, hdistLe, -⟩ := (findResultIsLegal overlap R n c hc).1 h
  have hreaches := (find_accepted h).reaches
  refine ⟨?_, hdistLe, fun k hk => byte_eq_of_lt_matchLen (hreaches.symm ▸ hk)⟩
  simp only [Instr.wf, Bool.and_eq_true, decide_eq_true_eq]
  exact ⟨⟨⟨hlenMin, hlenMax⟩, hdistMin⟩, hdistMax⟩

/-- The registers lb and db are wide enough for FIND's match. -/
theorem findStep_goodMatch (hcur : s.cur.toNat ≤ s.lLen.toNat) (hlb : Config.minLen ≤ (findStep s).lb.toNat) :
    GoodMatch (findStep s) := by
  have hlbNat : (findStep s).lb.toNat =
    (find s.params.matchOverlap s.bottomUp s.lLen.toNat s.cur.toNat).1 % 2 ^ 5 := BitVec.toNat_ofNat ..
  have hdbNat : (findStep s).db.toNat =
    (find s.params.matchOverlap s.bottomUp s.lLen.toNat s.cur.toNat).2 % 2 ^ 13 := BitVec.toNat_ofNat ..
  have hmin : Config.minLen = 3 := rfl
  have hpos : 0 < (find s.params.matchOverlap s.bottomUp s.lLen.toNat s.cur.toNat).1 :=
    Nat.pos_of_ne_zero fun h0 => by rw [hlbNat, h0] at hlb; omega
  obtain ⟨-, hlenMax, -, hdistMax, -⟩ := (findResultIsLegal _ s.bottomUp _ _ hcur).1 hpos
  obtain ⟨hwf, hrepeats⟩ := find_wf_repeats hcur hpos
  rw [Nat.mod_eq_of_lt (by omega)] at hlbNat hdbNat
  exact ⟨by rw [hlbNat, hdbNat]; exact hwf, by rw [hlbNat, hdbNat]; exact hrepeats⟩

/-- LOOKAHEAD keeps FIND's match as it is, or drops it (42_lookahead R170). -/
theorem lookaheadStep_keeps_or_drops (s : State) :
    (lookaheadStep s).db = s.db ∧ ((lookaheadStep s).lb = s.lb ∨ (lookaheadStep s).lb = 0) := by
  unfold lookaheadStep
  split
  · split
    · dsimp only
      split
      · exact ⟨rfl, .inr rfl⟩
      · exact ⟨rfl, .inl rfl⟩
    · exact ⟨rfl, .inl rfl⟩
  · exact ⟨rfl, .inl rfl⟩

theorem lookaheadStep_goodMatch (h : Config.minLen ≤ s.lb.toNat → GoodMatch s)
    (hlb : Config.minLen ≤ (lookaheadStep s).lb.toNat) : GoodMatch (lookaheadStep s) := by
  obtain ⟨hdb, hkeep | hdrop⟩ := lookaheadStep_keeps_or_drops s
  · obtain ⟨hwf, hrepeats⟩ := h (hkeep ▸ hlb)
    refine ⟨by rw [hkeep, hdb]; exact hwf, ?_⟩
    rw [hkeep, hdb, lookaheadStep_cur, bottomUp_congr (lookaheadStep_untouched s)]
    exact hrepeats
  · rw [hdrop] at hlb
    exact absurd hlb (by decide)

theorem readyToEmit_goodMatch (hcur : s.cur.toNat ≤ s.lLen.toNat) (hlb : Config.minLen ≤ (readyToEmit s).lb.toNat) :
    GoodMatch (readyToEmit s) := by
  have hlen : (groupOpen s).lLen = s.lLen := congrArg Untouched.lLen (groupOpen_untouched s)
  exact lookaheadStep_goodMatch (findStep_goodMatch (by rw [groupOpen_cur, hlen]; exact hcur)) hlb

/-! ### The packer's registers

O48 bounds them for a legal WORK. No bound depends on what WORK holds, so they are the bounds of the same state with an
empty WORK. -/

/-- The same state with no defined byte in WORK. -/
def State.eraseWork (s : State) : State := { s with work := [] }

theorem groupOpen_isOpen_eraseWork (h : EncodeOk s) : GroupIsOpen (groupOpen s).eraseWork := by
  have hopen := groupOpen_isOpen (s := s.eraseWork) h (.nil _)
  by_cases hgk : s.gk = 8
  · have e : groupOpen s = openGroup 0 s := by simp [groupOpen, flagEffect, State.encoding, hgk, h.1]
    have e' : groupOpen s.eraseWork = openGroup 0 s.eraseWork := by
      simp [groupOpen, flagEffect, State.encoding, State.eraseWork, hgk, h.1]
    rw [e'] at hopen
    rw [e]
    exact ⟨hopen.encode, hopen.gk, .nil _⟩
  · rw [show groupOpen s.eraseWork = s.eraseWork from if_neg hgk] at hopen
    rw [show groupOpen s = s from if_neg hgk]
    exact hopen

theorem readyToEmit_isOpen_eraseWork (h : EncodeOk s) : GroupIsOpen (readyToEmit s).eraseWork := by
  obtain ⟨henc, hgk, hwork⟩ := groupOpen_isOpen_eraseWork h
  have hfound : GroupIsOpen (findStep (groupOpen s)).eraseWork := ⟨henc, hgk, hwork⟩
  unfold readyToEmit lookaheadStep
  split
  · split
    · exact ⟨hfound.encode, hfound.gk, hfound.work⟩
    · exact hfound
  · exact hfound

theorem emitToken_afterToken_eraseWork (h : GroupIsOpen s.eraseWork) (hcur : s.cur.toNat < s.lLen.toNat)
    (hlb : s.cur.toNat + s.lb.toNat ≤ s.lLen.toNat) : AfterToken (emitToken s).eraseWork := by
  rw [emitToken_of_encode s h.encode.1]
  split
  · next hmin =>
    have hmin : 3 ≤ s.lb.toNat := hmin
    exact afterToken_of_emit (n := 2) h rfl ⟨rfl, rfl, rfl⟩ rfl rfl rfl (by decide) (by omega) hlb (.nil _)
  · exact afterToken_of_emit (n := 1) h rfl ⟨rfl, rfl, rfl⟩ rfl rfl rfl (by decide) (by decide) hcur (.nil _)

theorem cutTrack_encodeOk_of_eraseWork (h : AfterToken s.eraseWork) : EncodeOk (cutTrack s) := by
  have hcut := cutTrack_encodeOk h
  by_cases hbetter : s.wp.toNat + (s.lLen.toNat - s.cur.toNat) < s.pakTmp.toNat + s.rawTmp.toNat
  · rw [show cutTrack s.eraseWork = _ from if_pos hbetter] at hcut
    rw [cutTrack, if_pos hbetter]
    exact hcut
  · rw [show cutTrack s.eraseWork = _ from if_neg hbetter] at hcut
    rw [cutTrack, if_neg hbetter]
    exact hcut

/-! ### ENCODE's loop -/

theorem groupOpen_readsBack (h : ReadsBack s) (henc : EncodeOk s) : ReadsBack (groupOpen s) := by
  by_cases hgk : s.gk = 8
  · have hwp := henc.wp_le
    have e : groupOpen s = openGroup 0 s := by simp [groupOpen, flagEffect, State.encoding, hgk, henc.1]
    rw [e]
    exact openGroup_readsBack h hgk (by omega)
  · rwa [show groupOpen s = s from if_neg hgk]

/-- FIND and LOOKAHEAD write neither the stream nor the cut. -/
theorem readyToEmit_readsBack (h : ReadsBack s) (henc : EncodeOk s) : ReadsBack (readyToEmit s) := by
  have hfound : ReadsBack (findStep (groupOpen s)) := fun W hW =>
    groupOpen_readsBack h henc W ⟨hW.settled, hW.flags⟩
  unfold readyToEmit lookaheadStep
  split
  · split
    · exact fun W hW => hfound W ⟨hW.settled, hW.flags⟩
    · exact hfound
  · exact hfound

theorem emitToken_readsBack (h : ReadsBack s) (hopen : GroupIsOpen s.eraseWork) (hcur : s.cur.toNat < s.lLen.toNat)
    (hlb : s.cur.toNat + s.lb.toNat ≤ s.lLen.toNat) (hgood : Config.minLen ≤ s.lb.toNat → GoodMatch s) :
    ReadsBack (emitToken s) := by
  have hwp : s.wp.toNat ≤ 18874367 := hopen.encode.wp_le
  obtain ⟨⟨hop, hmax, -, -, -, hfp, -⟩, hgk, -⟩ := hopen
  have hraw : Config.rawMax = 16777215 := rfl
  have hmaxNat : s.lLen.toNat ≤ Config.rawMax := hmax
  rw [emitToken_of_encode s hop]
  split
  · next hmin =>
    exact emitMatch_readsBack h ⟨hgk, hfp hgk, by omega⟩ (by omega) (hgood hmin).wf (hgood hmin).repeats
  · exact emitLit_readsBack h ⟨hgk, hfp hgk, by omega⟩ (by omega)

/-- TOKEN_STEP keeps the stream one that reads back as the input so far. -/
theorem tokenStep_readsBack (h : ReadsBack s) (henc : EncodeOk s) (hcur : s.cur.toNat < s.lLen.toNat) :
    ReadsBack (tokenStep s) ∧ EncodeOk (tokenStep s) := by
  have hlen : (readyToEmit s).lLen = s.lLen :=
    congrArg Untouched.lLen (show (readyToEmit s).untouched = s.untouched by simp [readyToEmit])
  have hopen := readyToEmit_isOpen_eraseWork henc
  have hcurReady : (readyToEmit s).cur.toNat < (readyToEmit s).lLen.toNat := by rw [readyToEmit_cur, hlen]; exact hcur
  have hlb : (readyToEmit s).cur.toNat + (readyToEmit s).lb.toNat ≤ (readyToEmit s).lLen.toNat := by
    rw [readyToEmit_cur, hlen]; exact readyToEmit_lb_le s hcur.le
  have hafter := emitToken_afterToken_eraseWork hopen hcurReady hlb
  have hread := emitToken_readsBack (readyToEmit_readsBack h henc) hopen hcurReady hlb (readyToEmit_goodMatch hcur.le)
  exact ⟨cutTrack_readsBack hread hafter.encode, cutTrack_encodeOk_of_eraseWork hafter⟩

end

end Sys2Proof.Machine

namespace Sys2Proof.Machine

/-! ## The run of a command -/

/-- A run that stays in `P` until an operation leads to `Q`, which ends it, ends in `Q` (70_reset_and_hazards R340). -/
theorem runCommand_ends_in {P Q : State → Prop} {s : State} (hrun : s.phase = .run) (hfits : LoopFits s)
    (hfirst : P (engineOp s) ∨ Q (engineOp s)) (hstep : ∀ u, P u → P (engineOp u) ∨ Q (engineOp u))
    (hP : ∀ u, P u → u.phase = .run) (hQ : ∀ u, Q u → u.phase = .idle) : Q (runCommand s) := by
  have hidle := (runCommand_completed s hrun hfits).phase
  obtain ⟨k, hk⟩ := Nat.exists_eq_succ_of_ne_zero (opsLeft_pos hrun).ne'
  rw [runCommand, hk, runOps_run hrun] at hidle ⊢
  refine (runOps_induction (P := fun u => P u ∨ Q u) (fun u hu h => ?_) k _ hfirst).resolve_left fun h => ?_
  · exact h.elim (hstep u) fun hq => by cases hu.symm.trans (hQ u hq)
  · cases hidle.symm.trans (hP _ h)

/-- A command that is given to the engine before its first check answers the end of its run (45_commands R242). -/
theorem exec_commandOf_justStarted {s : State} (h : JustStarted s) (op : BitVec 2) (m e : Bool) :
    exec (commandOf op m e) s = .next (runCommand (withCommand op m e s)) := by
  have hc := runCommand_completed (withCommand op m e s) h.1 (loopFits_of_midstep_none h.2)
  rw [exec_commandOf, command_run h.1, ended_idle hc.phase]

/-! ## ENCODE -/

/-- ENCODE_CHECK lets every input within the size bound pass: the capacities of 00_scope R4 have room for it. -/
theorem encodeError_of_le {p : Params} {n : Nat} (hn : n ≤ Config.rawMax) : encodeError p n = none := by
  obtain ⟨⟨hsrc, -⟩, ⟨hdst, -⟩, hwork, -⟩ := p.legal
  have hraw : Config.rawMax = 16777215 := rfl
  have halign := align4_lt n
  have hmod := align4_mod n
  have hceil : ceilDiv8 n = (n + 7) / 8 := rfl
  rw [encodeError, if_neg (by omega), if_neg (by omega)]

/-- ENCODE of the input of `s` stands at the head of its token loop. -/
structure InEncodeLoop (s u : State) : Prop where
  run : u.phase = .run
  stage : u.stage = .encodeLoop
  untouched : u.untouched = s.untouched
  legal : EncodeOk u
  readsBack : ReadsBack u

/-- SELECT closes the frame of the input of `s`: the kept stream reads back as the input before the cut. -/
structure AtSelect (s p : State) : Prop where
  untouched : p.untouched = s.untouched
  legal : EncodeOk p
  cut : CutReads p.workByte p

/-- ENCODE of the input of `s` has ended with such a frame. -/
structure FrameClosed (s u : State) : Prop where
  idle : u.phase = .idle
  frame : ∃ p, AtSelect s p ∧ u = streamEffect (selectTrailer p) p

section
variable {s u : State}

theorem engineOp_dispatch_encode (hst : s.stage = .dispatch) (hop : s.lOp = 0) : engineOp s = encodeBegin s := by
  simp [engineOp, fetchInstr, internalOp, hst, hop]

theorem encodeBegin_inLoop (hrun : s.phase = .run) (hop : s.lOp = 0) (hmax : s.lLen.toNat ≤ Config.rawMax) :
    InEncodeLoop s (encodeBegin s) := by
  have hraw : Config.rawMax = 16777215 := rfl
  have hrawNat : (BitVec.ofNat 24 s.lLen.toNat).toNat = s.lLen.toNat := by rw [BitVec.toNat_ofNat]; omega
  rw [encodeBegin, encodeError_of_le hmax]
  refine ⟨hrun, rfl, rfl, ?_, fun W _ => ⟨⟨_, .refl⟩, 8, s.fp.toNat, ?_⟩⟩
  · exact ⟨hop, hmax, Nat.zero_le _, Nat.le_refl 8, Nat.le_add_left .., fun h => absurd h (Nat.lt_irrefl 8),
      Nat.le_refl _, fun _ => hrawNat, fun h => absurd rfl h⟩
  · dsimp only
    rw [hrawNat, Nat.sub_self]
    exact ⟨_, .refl⟩

theorem flagPad_atSelect (h : InEncodeLoop s u) : AtSelect s (flagPad u) := by
  obtain ⟨-, -, hu, henc, hread⟩ := h
  have hgk : u.gk.toNat ≤ 8 := henc.2.2.2.1
  obtain ⟨-, dk, fp, hcut⟩ := hread _ (flagPad_mayBecome hgk)
  refine ⟨(flagPad_untouched u).trans hu, ?_, dk, fp, ?_⟩
  · simp only [EncodeOk, flagPad_lOp, flagPad_lLen, flagPad_cur, flagPad_gk, flagPad_wp, flagPad_fp, flagPad_pakTmp,
      flagPad_rawTmp]
    exact henc
  · rw [bottomUp_congr (flagPad_untouched u), flagPad_pakTmp, flagPad_lLen, flagPad_rawTmp]
    exact hcut

/-- An operation of ENCODE's loop emits a token, or pads the last flag byte and closes the frame. -/
theorem engineOp_encode (h : InEncodeLoop s u) : InEncodeLoop s (engineOp u) ∨ FrameClosed s (engineOp u) := by
  rw [engineOp_encodeLoop h.stage]
  have hop : u.lOp = 0 := h.legal.1
  split
  · next hcur =>
    obtain ⟨hread, henc⟩ := tokenStep_readsBack h.readsBack h.legal hcur
    exact .inl ⟨(congrArg Reported.phase (tokenStep_reported hop)).trans h.run,
      (stage_congr (tokenStep_midstep u hop)).trans h.stage, (tokenStep_untouched u).trans h.untouched, henc, hread⟩
  · exact .inr ⟨(encodeFinish_completed u hop).phase, flagPad u, flagPad_atSelect h, rfl⟩

/-- What ENCODE answers: the frame that SELECT closes, whose kept stream reads back. -/
theorem encode_ends (h : JustStarted s) (hmax : s.lLen.toNat ≤ Config.rawMax) (m e : Bool) :
    ∃ p, AtSelect (withCommand 0 m e s) p ∧
      exec (commandOf 0 m e) s = .next (streamEffect (selectTrailer p) p) := by
  have hrun : (withCommand 0 m e s).phase = .run := h.1
  have hst : (withCommand 0 m e s).stage = .dispatch := stage_none h.2
  have hfirst : InEncodeLoop (withCommand 0 m e s) (engineOp (withCommand 0 m e s)) := by
    rw [engineOp_dispatch_encode hst rfl]
    exact encodeBegin_inLoop hrun rfl hmax
  obtain ⟨-, p, hp, ht⟩ := runCommand_ends_in (Q := FrameClosed (withCommand 0 m e s)) hrun (loopFits_of_midstep_none h.2)
    (.inl hfirst) (fun _ => engineOp_encode) (fun _ hu => hu.run) fun _ hu => hu.idle
  exact ⟨p, hp, (exec_commandOf_justStarted h 0 m e).trans (congrArg _ ht)⟩

end

end Sys2Proof.Machine

namespace Sys2Proof.Machine

/-! ## DECODE's token loop -/

theorem streamByte_congr {s t : State} (hu : t.untouched = s.untouched) (hmid : t.midstep = s.midstep) (i : Nat) :
    t.streamByte i = s.streamByte i := by
  have hprogress : t.progress = s.progress := by rw [State.progress, State.progress, hmid]
  have hdec : t.decLen = s.decLen := congrArg Progress.decLen hprogress
  have hstream : t.streamLen = s.streamLen := congrArg Progress.streamLen hprogress
  rw [State.streamByte, State.streamByte, hdec, hstream,
    srcByte_congr (congrArg Untouched.src hu) (congrArg Untouched.srcGen hu)]

@[simp] theorem copyMatch_fl (s : State) (dist k : Nat) : (copyMatch dist k s).fl = s.fl := by
  induction k generalizing s with
  | zero => rfl
  | succ k ih => exact ih (copyByte dist s)

/-- A copy of bytes that `R` repeats goes on with `R`, overlapping or not (46_frame_reader R270). -/
theorem copyMatch_output {R : Nat → Byte} {dist k : Nat} {s : State} (hfits : s.oc.toNat + k < 2 ^ 24)
    (hpos : 0 < dist) (hrepeats : Repeats R s.oc.toNat k dist) (hout : ∀ i < s.oc.toNat, s.workByte i = R i) :
    ∀ i < s.oc.toNat + k, (copyMatch dist k s).workByte i = R i := by
  induction k generalizing s with
  | zero => exact hout
  | succ k ih =>
    obtain ⟨hdist, hbytes⟩ := hrepeats
    have hoc : (copyByte dist s).oc.toNat = s.oc.toNat + 1 := by rw [copyByte_oc, BitVec.toNat_ofNat]; omega
    have hnext : ∀ i < s.oc.toNat + 1, (copyByte dist s).workByte i = R i := fun i hi => by
      rw [workByte_set (copyByte_work s dist) rfl]
      split
      · next heq =>
        rw [hout _ (by omega), heq]
        exact (hbytes 0 (Nat.succ_pos k)).symm
      · exact hout i (by omega)
    have hrest := ih (s := copyByte dist s) (by omega) ⟨by omega, fun j hj => by
      rw [hoc, Nat.add_assoc, Nat.add_comm 1 j]; exact hbytes (j + 1) (by omega)⟩ (by rwa [hoc])
    rw [hoc, Nat.add_assoc, Nat.add_comm 1 k] at hrest
    exact hrest

/-- DECODE, whose token loop started in `v`, stands at `c` in the stream `W` with the bytes of `R` as its output. -/
structure RebuiltTo (v : State) (W R : Nat → Byte) (u : State) (c : Cursor) : Prop where
  run : u.phase = .run
  untouched : u.untouched = v.untouched
  midstep : u.midstep = v.midstep
  output : ∀ i < c.oc, u.workByte i = R i
  ip : u.ip.toNat = c.ip
  oc : u.oc.toNat = c.oc
  dk : u.dk.toNat = c.dk
  fl : c.dk < 8 → u.fl = W c.fp

section
variable {v u : State} {W R : Nat → Byte} {c c' : Cursor}

theorem engineOp_of_fetchToken {i : Instr} (hst : u.stage = .decodeLoop) (h : fetchToken u = some i) :
    engineOp u = streamEffect i u := by
  simp [engineOp, fetchInstr, hst, h]

/-- With the group used up TOKEN_LOOP reads a flag byte (46_frame_reader R268). -/
theorem fetchToken_flag {f : Byte} (hoc : u.oc.toNat < u.want) (hdk : u.dk.toNat = 8)
    (hbyte : u.streamByte u.ip.toNat = some f) : fetchToken u = some (.flag f) := by
  have hdk8 : u.dk = 8 := BitVec.eq_of_toNat_eq hdk
  rw [fetchToken, if_pos hoc, if_pos hdk8, hbyte]
  rfl

theorem fetchToken_lit {b : Byte} (hoc : u.oc.toNat < u.want) (hdk : u.dk.toNat < 8)
    (hflag : tokenBit u.fl u.dk.toNat = false) (hbyte : u.streamByte u.ip.toNat = some b) :
    fetchToken u = some (.lit b) := by
  have hdk8 : u.dk ≠ 8 := fun h => absurd (congrArg BitVec.toNat h) (Nat.ne_of_lt hdk)
  rw [fetchToken, if_pos hoc, if_neg hdk8, hflag, hbyte]
  rfl

theorem fetchToken_match {len dist : Nat} (hoc : u.oc.toNat < u.want) (hdk : u.dk.toNat < 8)
    (hflag : tokenBit u.fl u.dk.toNat = true) (hwf : (Instr.matchToken len dist).wf = true)
    (hbyte0 : u.streamByte u.ip.toNat = some (matchByte0 len dist))
    (hbyte1 : u.streamByte (u.ip.toNat + 1) = some (matchByte1 dist)) : fetchToken u = some (.matchToken len dist) := by
  have hdk8 : u.dk ≠ 8 := fun h => absurd (congrArg BitVec.toNat h) (Nat.ne_of_lt hdk)
  simp only [Instr.wf, Bool.and_eq_true, decide_eq_true_eq] at hwf
  obtain ⟨⟨⟨hlenMin, hlenMax⟩, hdistMin⟩, hdistMax⟩ := hwf
  rw [fetchToken, if_pos hoc, if_neg hdk8, hflag, hbyte0, hbyte1]
  refine congrArg some ?_
  rw [matchLength_matchByte0 hlenMin hlenMax hdistMax, matchDistance_matchBytes hlenMax hdistMin hdistMax]

variable {ip oc dk fp : Nat}

theorem flagStep_rebuiltTo (h : RebuiltTo v W R u ⟨ip, oc, 8, fp⟩) (hip : ip + 1 < 2 ^ 25) :
    RebuiltTo v W R (flagStep (W ip) u) ⟨ip + 1, oc, 0, ip⟩ := by
  obtain ⟨hrun, hu, hmid, hout, hipU, hocU, -, -⟩ := h
  have hipNext : (flagStep (W ip) u).ip.toNat = ip + 1 := by
    rw [flagStep_ip, BitVec.toNat_ofNat, hipU]
    exact Nat.mod_eq_of_lt hip
  exact ⟨hrun, hu, hmid, hout, hipNext, hocU, rfl, fun _ => rfl⟩

/-- A token uses up its flag bit and `n` payload bytes (46_frame_reader R268 to R270). -/
theorem consumeToken_indices {n : Nat} (h : RebuiltTo v W R u ⟨ip, oc, dk, fp⟩) (hdk : dk < 8) (hip : ip + n < 2 ^ 25) :
    (consumeToken n u).ip.toNat = ip + n ∧ (consumeToken n u).dk.toNat = dk + 1 := by
  rw [consumeToken_ip, consumeToken_dk, BitVec.toNat_ofNat, BitVec.toNat_ofNat, h.ip, h.dk]
  exact ⟨Nat.mod_eq_of_lt hip, Nat.mod_eq_of_lt (by dsimp only; omega)⟩

theorem litStep_rebuiltTo (h : RebuiltTo v W R u ⟨ip, oc, dk, fp⟩) (hdk : dk < 8) (hip : ip + 1 < 2 ^ 25)
    (hoc : oc + 1 < 2 ^ 24) : RebuiltTo v W R (litStep (R oc) u) ⟨ip + 1, oc + 1, dk + 1, fp⟩ := by
  obtain ⟨hipNext, hdkNext⟩ := consumeToken_indices h hdk hip
  obtain ⟨hrun, hu, hmid, hout, -, hocU, -, hfl⟩ := h
  have hocNext : (litStep (R oc) u).oc.toNat = oc + 1 := by
    rw [show (litStep (R oc) u).oc = BitVec.ofNat 24 (u.oc.toNat + 1) from rfl, BitVec.toNat_ofNat, hocU]
    exact Nat.mod_eq_of_lt hoc
  refine ⟨hrun, hu, hmid, fun i hi => ?_, hipNext, hocNext, hdkNext, fun _ => hfl hdk⟩
  rw [workByte_set (s := u) (t := litStep (R oc) u) rfl rfl, consumeToken_oc, hocU]
  split
  · next heq => rw [heq]
  · next hne => exact hout i (Nat.lt_of_le_of_ne (Nat.le_of_lt_succ hi) hne)

theorem matchStep_rebuiltTo {len dist : Nat} (h : RebuiltTo v W R u ⟨ip, oc, dk, fp⟩) (hdk : dk < 8)
    (hip : ip + 2 < 2 ^ 25) (hoc : oc + len ≤ v.want) (hpos : 0 < dist) (hrepeats : Repeats R oc len dist) :
    RebuiltTo v W R (matchStep len dist u) ⟨ip + 2, oc + len, dk + 1, fp⟩ := by
  obtain ⟨hipNext, hdkNext⟩ := consumeToken_indices h hdk hip
  obtain ⟨hrun, hu, hmid, hout, -, hocU, -, hfl⟩ := h
  have hwant := want_lt v
  have hocT : (consumeToken 2 u).oc.toNat = oc := hocU
  have hcopy : matchStep len dist u = copyMatch dist len (consumeToken 2 u) := by
    have hwantT : (consumeToken 2 u).want = v.want := want_congr (s := v) (t := consumeToken 2 u) hmid
    rw [matchStep, hocT, hwantT, if_neg (Nat.not_lt.2 hrepeats.1), if_neg (by omega)]
  have hocNext : (copyMatch dist len (consumeToken 2 u)).oc.toNat = oc + len := by
    rw [copyMatch_oc _ _ _ (by omega), hocT]
  have hcopied := copyMatch_output (R := R) (s := consumeToken 2 u) (k := len) (by omega) hpos (by rwa [hocT])
    (by rw [hocT]; exact hout)
  rw [hcopy]
  refine ⟨(congrArg Reported.phase (copyMatch_reported ..)).trans hrun, (copyMatch_untouched ..).trans hu,
    (copyMatch_midstep ..).trans hmid, ?_, ?_, hocNext, ?_, fun _ => ?_⟩
  · rwa [hocT] at hcopied
  · rw [copyMatch_ip]; exact hipNext
  · rw [copyMatch_dk]; exact hdkNext
  · rw [copyMatch_fl]; exact hfl hdk

/-- One turn of TOKEN_LOOP reads the next step of the stream. -/
theorem RebuiltTo.step (hst : v.stage = .decodeLoop) (hop : v.lOp ≠ 0)
    (hstream : ∀ i < v.streamLen.toNat, v.streamByte i = some (W i)) (h : RebuiltTo v W R u c)
    (hstep : ReadStep W R c c') (hmore : c.oc < v.want) (hip : c'.ip ≤ v.streamLen.toNat) (hoc : c'.oc ≤ v.want) :
    RebuiltTo v W R (engineOp u) c' := by
  have hstU : u.stage = .decodeLoop := (stage_congr h.midstep).trans hst
  have henc : u.encoding = false :=
    encoding_eq_false (by rwa [show u.lOp = v.lOp from congrArg Untouched.lOp h.untouched])
  have hmoreU : u.oc.toNat < u.want := by rw [want_congr h.midstep, h.oc]; exact hmore
  have hbyte : ∀ i < v.streamLen.toNat, u.streamByte i = some (W i) := fun i hi =>
    (streamByte_congr h.untouched h.midstep i).trans (hstream i hi)
  have hwant := want_lt v
  have hlen := v.streamLen.isLt
  cases hstep with
  | @flag ip oc fp =>
    have htoken := fetchToken_flag hmoreU h.dk (by rw [h.ip]; exact hbyte ip hip)
    rw [engineOp_of_fetchToken hstU htoken, streamEffect, flagEffect, henc]
    exact flagStep_rebuiltTo h (by dsimp only at hip; omega)
  | @lit ip oc dk fp hdk hflag hbyteEq =>
    have htoken := fetchToken_lit hmoreU (h.dk ▸ hdk) (by rw [h.fl hdk, h.dk]; exact hflag)
      (by rw [h.ip]; exact hbyte ip hip)
    rw [engineOp_of_fetchToken hstU htoken, streamEffect, litEffect, henc, hbyteEq]
    exact litStep_rebuiltTo h hdk (by dsimp only at hip; omega) (by dsimp only at hoc; omega)
  | @copy ip oc dk fp len dist hdk hflag hwf hbyte0 hbyte1 hrepeats =>
    have htoken := fetchToken_match hmoreU (h.dk ▸ hdk) (by rw [h.fl hdk, h.dk]; exact hflag) hwf
      (by rw [h.ip, ← hbyte0]; exact hbyte ip (by dsimp only at hip; omega))
      (by rw [h.ip, ← hbyte1]; exact hbyte (ip + 1) hip)
    have hpos : 0 < dist := by
      simp only [Instr.wf, Bool.and_eq_true, decide_eq_true_eq] at hwf
      exact Nat.lt_of_lt_of_le (by decide) hwf.1.2
    rw [engineOp_of_fetchToken hstU htoken, streamEffect, matchEffect, henc]
    exact matchStep_rebuiltTo h hdk (by dsimp only at hip; omega) hoc hpos hrepeats

/-- A reader never goes back. -/
theorem le_of_reads (h : Relation.ReflTransGen (ReadStep W R) c c') : c.ip ≤ c'.ip ∧ c.oc ≤ c'.oc := by
  induction h with
  | refl => exact ⟨Nat.le_refl _, Nat.le_refl _⟩
  | tail _ hstep ih =>
    cases hstep with
    | flag => exact ⟨ih.1.trans (Nat.le_succ _), ih.2⟩
    | lit => exact ⟨ih.1.trans (Nat.le_succ _), ih.2.trans (Nat.le_succ _)⟩
    | copy => exact ⟨ih.1.trans (Nat.le_add_right ..), ih.2.trans (Nat.le_add_right ..)⟩

/-- DECODE is on its way through the stream `W` to the end of the output that `v` wants. -/
def Rebuilding (v : State) (W R : Nat → Byte) (u : State) : Prop :=
  ∃ c last, RebuiltTo v W R u c ∧ Relation.ReflTransGen (ReadStep W R) c last ∧ last.ip = v.streamLen.toNat ∧
    last.oc = v.want

/-- DECODE has ended with the bytes of `R` as the output that `v` wants. -/
def Rebuilt (v : State) (W R : Nat → Byte) (u : State) : Prop :=
  ∃ p c, RebuiltTo v W R p c ∧ c.oc = v.want ∧ u = decodeFinish p

theorem engineOp_rebuilding (hst : v.stage = .decodeLoop) (hop : v.lOp ≠ 0)
    (hstream : ∀ i < v.streamLen.toNat, v.streamByte i = some (W i)) (h : Rebuilding v W R u) :
    Rebuilding v W R (engineOp u) ∨ Rebuilt v W R (engineOp u) := by
  obtain ⟨c, last, hu, hpath, hip, hoc⟩ := h
  have hle := (le_of_reads hpath).2
  rcases Nat.lt_or_ge c.oc v.want with hmore | hfull
  · rcases Relation.ReflTransGen.cases_head hpath with rfl | ⟨c', hstep, hrest⟩
    · exact absurd hoc (Nat.ne_of_lt hmore)
    · obtain ⟨hip', hoc'⟩ := le_of_reads hrest
      exact .inl ⟨c', last, hu.step hst hop hstream hstep hmore (hip ▸ hip') (hoc ▸ hoc'), hrest, hip, hoc⟩
  · have hdone : ¬ u.oc.toNat < u.want := by rw [want_congr hu.midstep, hu.oc]; exact Nat.not_lt.2 hfull
    have hnone : fetchToken u = none := by rw [fetchToken, if_neg hdone]
    refine .inr ⟨u, c, hu, Nat.le_antisymm (hoc ▸ hle) hfull, ?_⟩
    rw [engineOp_decodeLoop_none ((stage_congr hu.midstep).trans hst) hnone, if_neg hdone]

end

end Sys2Proof.Machine

namespace Sys2Proof

/-! ## The trailer of a frame of ENCODE -/

/-- 4 zero bytes at the end are a stored frame's trailer, whatever stands before them (30_encoding R114). -/
theorem decodeTrailer_stored (front : List Byte) : decodeTrailer (front ++ payloadBytes .trailerStored) = .ok .trailerStored := by
  have hlen : (front ++ payloadBytes .trailerStored).length = front.length + 4 := List.length_append
  have hinc : ((front ++ payloadBytes .trailerStored).drop (front.length + 4 - 4)).take 4 = payloadBytes .trailerStored :=
    Sys2Proof.take_drop_eq_middle (rest := []) (List.append_nil _) rfl rfl
  simp only [decodeTrailer, hlen, hinc]
  rw [if_neg (by omega)]
  rfl

end Sys2Proof

namespace Sys2Proof.Machine

theorem decodeTrailer_storedFrame (raw : List Byte) :
    decodeTrailer ((storedFrame raw).drop ((storedFrame raw).length - 8)) = .ok .trailerStored := by
  have hlen := storedFrame_length raw
  rw [hlen, storedFrame, List.drop_append_of_le_length, decodeTrailer_stored]
  have := le_align4 raw.length
  rw [List.length_append, List.length_replicate]
  omega

theorem decodeTrailer_compressedFrame (verbatim kept : List Byte) (enc : BitVec 24) (hdr : Byte) {inc : Word}
    (hinc : inc ≠ 0) :
    decodeTrailer ((compressedFrame verbatim kept enc hdr inc).drop
      ((compressedFrame verbatim kept enc hdr inc).length - 8)) = .ok (.trailerCompressed enc hdr inc) := by
  have htrailer : (payloadBytes (.trailerCompressed enc hdr inc)).length = 8 := by simp [payloadBytes]
  rw [compressedFrame, List.length_append, htrailer, Nat.add_sub_cancel, List.drop_left,
    decodeTrailer_payloadBytes enc hdr hinc]

/-! ## DECODE's first operation on a frame of ENCODE -/

section
variable {d p s t : State} {F : List Byte}

/-- A frame that ENCODE left in DST, copied to SRC. -/
theorem srcBytes_of_completeEncode {frame : Bool} (hF : F.length < 2 ^ 32)
    (hlen : d.lLen = (completeEncode F frame p).dstLen)
    (hsrc : ∀ a < (completeEncode F frame p).dstLen.toNat, d.srcByte a = (completeEncode F frame p).dstByte a) :
    d.srcBytes 0 d.lLen.toNat = F := by
  rw [completeEncode_dstLen frame hF] at hsrc
  have hlenNat : d.lLen.toNat = F.length := by rw [hlen, completeEncode_dstLen frame hF]
  refine List.ext_getElem (by rw [srcBytes_length, hlenNat]) fun i hi hiF => ?_
  rw [srcBytes_getElem, Nat.zero_add, hsrc i hiF]
  exact dstByte_complete F frame false false _ _ _ p i hiF

/-- The trailer at the end of SRC[0..T) (46_frame_reader R260 to R262). -/
theorem fetchTrailer_of_frame {i : Instr} (hF : d.srcBytes 0 d.lLen.toNat = F) (hcap : F.length ≤ d.params.srcCap)
    (htrailer : decodeTrailer (F.drop (F.length - 8)) = .ok i) : fetchTrailer d = .ok i := by
  have hlen : d.lLen.toNat = F.length := by rw [← hF, srcBytes_length]
  have htail : d.srcBytes (d.lLen.toNat - 8) (min d.lLen.toNat 8) = F.drop (F.length - 8) := by
    refine List.ext_getElem (by rw [srcBytes_length, List.length_drop]; omega) fun i hi hiF => ?_
    subst hF
    rw [srcBytes_getElem, List.getElem_drop, srcBytes_getElem, srcBytes_length, Nat.zero_add]
  rw [fetchTrailer, if_neg (by omega), htail, htrailer]

theorem srcBytes_take {n m : Nat} (h : m ≤ n) : (d.srcBytes 0 n).take m = d.srcBytes 0 m := by
  rw [State.srcBytes, State.srcBytes, ← List.map_take, List.take_range, Nat.min_eq_left h]

theorem engineOp_dispatch_decode {i : Instr} (hst : d.stage = .dispatch) (hop : d.lOp = 1) (h : fetchTrailer d = .ok i) :
    engineOp d = streamEffect i d := by
  simp [engineOp, fetchInstr, hst, hop, h, Except.toOption]

/-- STORED_READ with the caller's length gives the raw bytes back (46_frame_reader R263). -/
theorem storedRead_storedFrame {raw : List Byte} (hF : d.srcBytes 0 d.lLen.toNat = storedFrame raw)
    (hexpv : d.lExpv = true) (hexp : d.lExp.toNat = raw.length) (hmax : raw.length ≤ Config.rawMax) :
    storedRead d = complete raw false false false 0 0 0 d := by
  have hlen : d.lLen.toNat = align4 raw.length + 4 := by rw [← srcBytes_length d 0 d.lLen.toNat, hF, storedFrame_length]
  have hle := le_align4 raw.length
  have hraw : d.srcBytes 0 d.lExp.toNat = raw := by
    rw [hexp, ← srcBytes_take (n := d.lLen.toNat) (by omega), hF, storedFrame_eq, List.take_left]
  rw [storedRead, if_neg (by omega), if_pos hexpv, if_neg (by rw [hexp]; omega), hraw]

/-- The header checks let the lengths of an ENCODE frame pass (46_frame_reader R264, R265). -/
theorem headerError_of_lengths {raw enc hdr inc n dstCap : Nat} (hmin : 8 ≤ hdr) (hmax : hdr ≤ 11) (henc : hdr < enc)
    (hsum : (raw + enc + inc) % 2 ^ 32 = n) (hraw : raw ≤ n) (hn : n ≤ Config.rawMax) (hcap : Config.rawMax ≤ dstCap) :
    headerError (raw + enc) enc hdr inc dstCap = none := by
  have hdec : raw + enc - enc + enc + inc = raw + enc + inc := by omega
  have hhdrMin : Config.hdrMin = 8 := rfl
  have hhdrMax : Config.hdrMax = 11 := rfl
  rw [headerError, hdec, hsum, if_neg (by omega), if_neg (by omega), if_neg (by omega), if_neg (by omega),
    if_neg (by omega), if_neg (by omega)]

/-- The selected trailer opens the stream with the cut's lengths (46_frame_reader R265). -/
theorem readHeader_of_selected {enc : BitVec 24} {hdr : Byte} {inc : Word} (henc : EncodeOk p)
    (hselect : selectTrailer p = .trailerCompressed enc hdr inc) (hfits : p.pakTmp.toNat + hdr.toNat < 2 ^ 24)
    (hlen : d.lLen.toNat = p.rawTmp.toNat + p.pakTmp.toNat + hdr.toNat) :
    readHeader enc hdr inc d = openStream p.rawTmp.toNat p.pakTmp.toNat p.lLen.toNat d := by
  obtain ⟨-, hmax, -, -, -, -, -, -, hcut⟩ := henc
  obtain ⟨hpak, -⟩ := selectTrailer_compressed hselect
  obtain ⟨-, hmin, hmaxHdr, -, hencNat, -, -, -, hsum⟩ := selectedTrailerFields p enc hdr inc hmax hselect
  obtain ⟨hlt, hsum⟩ := hsum hfits
  rw [Nat.mod_eq_of_lt hfits] at hencNat
  have hraw : Config.rawMax = 16777215 := rfl
  have hcap := dstCap_ge (s := d)
  have hshort := hcut fun h0 => by rw [h0] at hpak; exact absurd hpak (by decide)
  have hT : d.lLen.toNat = p.rawTmp.toNat + enc.toNat := by omega
  have hok := headerError_of_lengths hmin hmaxHdr hlt hsum (by omega) hmax (show Config.rawMax ≤ d.params.dstCap by omega)
  rw [readHeader, hT, hok]
  dsimp only
  rw [show p.rawTmp.toNat + enc.toNat - enc.toNat + enc.toNat + inc.toNat = p.rawTmp.toNat + enc.toNat + inc.toNat by omega,
    hsum, Nat.add_sub_cancel, show enc.toNat - hdr.toNat = p.pakTmp.toNat by omega]

/-! ## The output -/

theorem srcBytes_add (a m k : Nat) : s.srcBytes a (m + k) = s.srcBytes a m ++ s.srcBytes (a + m) k := by
  simp [State.srcBytes, List.range_add, Nat.add_assoc]

theorem srcBytes_congr {a n : Nat} (h : ∀ i < n, d.srcByte (a + i) = s.srcByte (a + i)) :
    d.srcBytes a n = s.srcBytes a n :=
  List.map_congr_left fun i hi => h i (List.mem_range.1 hi)

/-- The bytes rebuilt bottom-up, in forward order (46_frame_reader R272). -/
theorem rev_workBytes_eq_srcBytes {q : State} {a m : Nat} (h : ∀ i < m, q.workByte i = s.srcByte (a + m - 1 - i)) :
    rev (q.workBytes m) = s.srcBytes a m := by
  refine List.ext_getElem? fun i => ?_
  rcases Nat.lt_or_ge i m with hi | hi
  · rw [rev_workBytes_getElem? hi, srcBytes_getElem? hi, h _ (by omega)]
    exact congrArg (fun k => some (s.srcByte k)) (by omega)
  · rw [List.getElem?_eq_none (by simpa using hi), List.getElem?_eq_none (by simpa using hi)]

/-- With the output complete, the verbatim part and the rebuilt bytes are the input (46_frame_reader R266, R272). -/
theorem decodeOutput_eq_srcBytes {q : State} {n : Nat} (hfull : q.oc.toNat = q.want)
    (hn : q.decLen.toNat + q.want = n) (hverbatim : ∀ a < q.decLen.toNat, q.srcByte a = s.srcByte a)
    (hwork : ∀ i < q.want, q.workByte i = s.srcByte (n - 1 - i)) : decodeOutput q = s.srcBytes 0 n := by
  subst hn
  have hlow : q.srcBytes 0 q.decLen.toNat = s.srcBytes 0 q.decLen.toNat :=
    srcBytes_congr fun i hi => by rw [Nat.zero_add]; exact hverbatim i hi
  rw [decodeOutput, hfull, Nat.sub_self, List.replicate_zero, List.append_nil, srcBytes_add, Nat.zero_add,
    rev_workBytes_eq_srcBytes hwork, hlow]

/-- A command whose output is the input of `s`. -/
theorem complete_srcBytes (s : State) (frame : Bool) (pak raw stream : Nat) (d : State) :
    let u := complete (s.srcBytes 0 s.lLen.toNat) frame false false pak raw stream d
    u.status = statusDone frame false false ∧ u.dstLen = s.lLen ∧ ∀ a < s.lLen.toNat, u.dstByte a = s.srcByte a := by
  refine ⟨rfl, ?_, fun a ha => ?_⟩
  · rw [complete_dstLen, srcBytes_length, BitVec.ofNat_toNat, BitVec.setWidth_eq]
  · rw [dstByte_complete _ _ _ _ _ _ _ _ a (by rwa [srcBytes_length]), srcBytes_getElem, Nat.zero_add]

/-! ## DECODE of a frame of ENCODE -/

/-- A command whose first operation ends it (45_commands R242). -/
theorem runCommand_of_first_idle (hrun : d.phase = .run) (hidle : (engineOp d).phase = .idle) :
    runCommand d = engineOp d := by
  obtain ⟨k, hk⟩ := Nat.exists_eq_succ_of_ne_zero (opsLeft_pos hrun).ne'
  rw [runCommand, hk, runOps_run hrun, runOps_idle hidle]

/-- DECODE of the stored frame with the input's length gives the input. -/
theorem runCommand_storedFrame (h : JustStarted d) (hop : d.lOp = 1) (hexpv : d.lExpv = true) (hexp : d.lExp = s.lLen)
    (hmax : s.lLen.toNat ≤ Config.rawMax)
    (hF : d.srcBytes 0 d.lLen.toNat = storedFrame (s.srcBytes 0 s.lLen.toNat)) :
    runCommand d = complete (s.srcBytes 0 s.lLen.toNat) false false false 0 0 0 d := by
  have hlen : (storedFrame (s.srcBytes 0 s.lLen.toNat)).length ≤ d.params.srcCap := by
    obtain ⟨⟨hsrc, -⟩, -⟩ := d.params.legal
    have hraw : Config.rawMax = 16777215 := rfl
    have halign := align4_lt s.lLen.toNat
    have hmod := align4_mod s.lLen.toNat
    rw [storedFrame_length, srcBytes_length]
    omega
  have hstored := storedRead_storedFrame hF hexpv (by rw [srcBytes_length, hexp]) (by rwa [srcBytes_length])
  have hfirst : engineOp d = complete (s.srcBytes 0 s.lLen.toNat) false false false 0 0 0 d := by
    rw [engineOp_dispatch_decode (stage_none h.2) hop (fetchTrailer_of_frame hF hlen (decodeTrailer_storedFrame _)),
      streamEffect, trailerStoredEffect, encoding_eq_false (by rw [hop]; decide)]
    exact hstored
  rw [runCommand_of_first_idle h.1 (by rw [hfirst]; rfl), hfirst]

/-- The token loop that the first operation starts in `v` ends with the output that `v` wants. -/
theorem runCommand_rebuilds {v : State} {W R : Nat → Byte} (hrun : d.phase = .run) (hfits : LoopFits d)
    (hfirst : engineOp d = v) (hst : v.stage = .decodeLoop) (hop : v.lOp ≠ 0)
    (hstream : ∀ i < v.streamLen.toNat, v.streamByte i = some (W i)) (hv : Rebuilding v W R v) :
    Rebuilt v W R (runCommand d) := by
  refine runCommand_ends_in (P := Rebuilding v W R) hrun hfits (.inl (hfirst ▸ hv))
    (fun u => engineOp_rebuilding hst hop hstream) ?_ ?_
  · rintro u ⟨c, last, hu, -⟩
    exact hu.run
  · rintro u ⟨q, c, -, -, rfl⟩
    exact (decodeFinish_completed q).phase

theorem srcByte_of_frame {a : Nat} {b : Byte} (hF : d.srcBytes 0 d.lLen.toNat = F) (ha : F[a]? = some b) :
    d.srcByte a = b := by
  obtain ⟨hlt, hget⟩ := List.getElem?_eq_some_iff.1 ha
  subst hF
  rw [← hget, srcBytes_getElem, Nat.zero_add]

/-- The verbatim part and the stream of a compressed frame, where DECODE looks for them (46_frame_reader R266, R267). -/
theorem srcByte_of_compressedFrame {enc : BitVec 24} {hdr : Byte} {inc : Word}
    (hF : d.srcBytes 0 d.lLen.toNat =
      compressedFrame (p.srcBytes 0 p.rawTmp.toNat) (p.workBytes p.pakTmp.toNat) enc hdr inc) :
    (∀ a < p.rawTmp.toNat, d.srcByte a = p.srcByte a) ∧
    ∀ i < p.pakTmp.toNat, d.srcByte (p.rawTmp.toNat + p.pakTmp.toNat - 1 - i) = p.workByte i := by
  rw [compressedFrame, List.append_assoc, List.append_assoc] at hF
  refine ⟨fun a ha => srcByte_of_frame hF ?_, fun i hi => srcByte_of_frame hF ?_⟩
  · rw [List.getElem?_append_left (by rwa [srcBytes_length]), srcBytes_getElem? ha, Nat.zero_add]
  · rw [show p.rawTmp.toNat + p.pakTmp.toNat - 1 - i = p.rawTmp.toNat + (p.pakTmp.toNat - 1 - i) by omega,
      List.getElem?_append_right (by rw [srcBytes_length]; omega), srcBytes_length, Nat.add_sub_cancel_left,
      List.getElem?_append_left (by rw [rev_length, workBytes_length]; omega), rev_workBytes_getElem? (by omega),
      Nat.sub_sub_self (by omega)]

/-- The selected frame fits SRC of any block (00_scope R4). -/
theorem selectedFrame_length {enc : BitVec 24} {hdr : Byte} {inc : Word} (hmax : p.lLen.toNat ≤ Config.rawMax)
    (hselect : selectTrailer p = .trailerCompressed enc hdr inc) :
    (compressedFrame (p.srcBytes 0 p.rawTmp.toNat) (p.workBytes p.pakTmp.toNat) enc hdr inc).length =
      p.rawTmp.toNat + p.pakTmp.toNat + hdr.toNat ∧
    p.rawTmp.toNat + p.pakTmp.toNat + hdr.toNat ≤ d.params.srcCap := by
  obtain ⟨⟨hsrc, -⟩, -⟩ := d.params.legal
  obtain ⟨-, hlen, -, hhdr, -⟩ := selectTrailer_compressed hselect
  have hraw : Config.rawMax = 16777215 := rfl
  have hhdrNat : hdr.toNat = headerLenOf p.cutSize := hhdr ▸ headerLenOf_toNat p.cutSize
  have hframe := add_headerLenOf p.cutSize
  have hcut : p.cutSize = p.pakTmp.toNat + p.rawTmp.toNat := rfl
  have hmin := (headerLenOf_bounds p.cutSize).1
  rw [compressedFrame_length, srcBytes_length, workBytes_length]
  omega

/-- Outside R212's two cases, said of the cut, the trailer's increase_len is not 0 and its encoded_len fits. -/
theorem fields_of_selected {enc : BitVec 24} {hdr : Byte} {inc : Word}
    (hselect : selectTrailer p = .trailerCompressed enc hdr inc)
    (hne : increaseLenOf p.lLen.toNat (p.pakTmp.toNat + p.rawTmp.toNat) % 2 ^ 32 ≠ 0)
    (hfits : p.pakTmp.toNat + headerLenOf (p.pakTmp.toNat + p.rawTmp.toNat) < 2 ^ 24) :
    inc ≠ 0 ∧ p.pakTmp.toNat + hdr.toNat < 2 ^ 24 := by
  obtain ⟨-, -, -, hhdr, hinc⟩ := selectTrailer_compressed hselect
  have hhdrNat : hdr.toNat = headerLenOf p.cutSize := hhdr ▸ headerLenOf_toNat p.cutSize
  refine ⟨fun hzero => hne ?_, by rw [hhdrNat]; exact hfits⟩
  have hmod := increaseLenOf_toNat p.lLen.toNat p.cutSize
  rw [← hinc, hzero] at hmod
  exact hmod.symm

/-- The lengths of a cut fit their registers. -/
theorem openStream_lengths {dec stream raw : Nat} (hraw : raw ≤ Config.rawMax) (hle : stream + dec ≤ raw) (d : State) :
    let v := openStream dec stream raw d
    v.decLen.toNat = dec ∧ v.streamLen.toNat = stream ∧ v.want = raw - dec := by
  have hmax : Config.rawMax = 16777215 := rfl
  have hdecNat : (BitVec.ofNat 24 dec).toNat = dec := by rw [BitVec.toNat_ofNat]; omega
  have hstreamNat : (BitVec.ofNat 24 stream).toNat = stream := by rw [BitVec.toNat_ofNat]; omega
  have hrawNat : (BitVec.ofNat 24 raw).toNat = raw := by rw [BitVec.toNat_ofNat]; omega
  dsimp only
  rw [State.want, openStream_decLen, openStream_streamLen, openStream_rawLen, hdecNat, hstreamNat, hrawNat]
  exact ⟨rfl, rfl, rfl⟩

/-- A token loop that ends with its output complete ends DECODE with that output, without a warning. -/
theorem Rebuilt.eq_complete {v u : State} {W : Nat → Byte} (h : Rebuilt v W p.bottomUp u)
    (hclear : v.warnTrunc = false ∧ v.warnClamp = false) (hlen : v.decLen.toNat + v.want = p.lLen.toNat)
    (hverbatim : ∀ a < v.decLen.toNat, v.srcByte a = p.srcByte a) :
    ∃ q pak raw, u = complete (p.srcBytes 0 p.lLen.toNat) true false false pak raw 0 q := by
  obtain ⟨q, c, hq, hfull, rfl⟩ := h
  have hprogress : q.progress = v.progress := by rw [State.progress, State.progress, hq.midstep]
  have hdec : q.decLen = v.decLen := congrArg Progress.decLen hprogress
  have hwant : q.want = v.want := want_congr hq.midstep
  have htrunc : q.warnTrunc = false := (congrArg Progress.warnTrunc hprogress).trans hclear.1
  have hclamp : q.warnClamp = false := (congrArg Progress.warnClamp hprogress).trans hclear.2
  have hout : decodeOutput q = p.srcBytes 0 p.lLen.toNat := by
    refine decodeOutput_eq_srcBytes (by rw [hq.oc, hfull, hwant]) (by rw [hdec, hwant, hlen]) (fun a ha => ?_)
      fun i hi => hq.output i (by rwa [hfull, ← hwant])
    rw [srcByte_congr (s := v) (congrArg Untouched.src hq.untouched) (congrArg Untouched.srcGen hq.untouched)]
    exact hverbatim a (hdec ▸ ha)
  refine ⟨q, q.streamLen.toNat, q.decLen.toNat, ?_⟩
  rw [decodeFinish, hout, htrunc, hclamp]

/-- DECODE of a compressed frame whose stream reads back as the input before the cut gives the input. -/
theorem runCommand_compressedFrame {enc : BitVec 24} {hdr : Byte} {inc : Word} (h : JustStarted d) (hop : d.lOp = 1)
    (henc : EncodeOk p) (hcut : CutReads p.workByte p) (hselect : selectTrailer p = .trailerCompressed enc hdr inc)
    (hinc : inc ≠ 0) (hfits : p.pakTmp.toNat + hdr.toNat < 2 ^ 24)
    (hF : d.srcBytes 0 d.lLen.toNat =
      compressedFrame (p.srcBytes 0 p.rawTmp.toNat) (p.workBytes p.pakTmp.toNat) enc hdr inc) :
    ∃ q pak raw, runCommand d = complete (p.srcBytes 0 p.lLen.toNat) true false false pak raw 0 q := by
  obtain ⟨-, hmax, -, -, -, -, -, -, hshort⟩ := id henc
  obtain ⟨hpak, -⟩ := selectTrailer_compressed hselect
  have hcutLt := hshort fun h0 => absurd (congrArg BitVec.toNat h0) (Nat.ne_of_gt hpak)
  obtain ⟨hlen, hcap⟩ := selectedFrame_length (d := d) hmax hselect
  obtain ⟨hverbatim, hstream⟩ := srcByte_of_compressedFrame hF
  obtain ⟨hdec, hstreamLen, hwant⟩ := openStream_lengths hmax hcutLt.le d
  have hop0 : d.lOp ≠ 0 := by rw [hop]; decide
  have hfirst : engineOp d = openStream p.rawTmp.toNat p.pakTmp.toNat p.lLen.toNat d := by
    rw [engineOp_dispatch_decode (stage_none h.2) hop
      (fetchTrailer_of_frame hF (hlen ▸ hcap) (decodeTrailer_compressedFrame _ _ enc hdr hinc)), streamEffect,
      trailerCompressedEffect, encoding_eq_false hop0]
    exact readHeader_of_selected henc hselect hfits (by rw [← hlen, ← hF, srcBytes_length])
  obtain ⟨dk, fpEnd, fp, hpath⟩ := hcut
  have hstart : Rebuilding _ p.workByte p.bottomUp (openStream p.rawTmp.toNat p.pakTmp.toNat p.lLen.toNat d) :=
    ⟨⟨0, 0, 8, fp⟩, _, ⟨h.1, rfl, rfl, nofun, rfl, rfl, rfl, fun h8 => absurd h8 (Nat.lt_irrefl 8)⟩, hpath,
      hstreamLen.symm, hwant.symm⟩
  refine (runCommand_rebuilds h.1 (loopFits_of_midstep_none h.2) hfirst rfl hop0 (fun i hi => ?_) hstart).eq_complete
    ⟨rfl, rfl⟩ (by rw [hdec, hwant]; omega) fun a ha => hverbatim a (hdec ▸ ha)
  rw [State.streamByte, if_pos hi, hdec, hstreamLen]
  exact congrArg some (hstream i (hstreamLen ▸ hi))

theorem selectTrailer_cases (s : State) :
    selectTrailer s = .trailerStored ∨ ∃ enc hdr inc, selectTrailer s = .trailerCompressed enc hdr inc := by
  unfold selectTrailer
  dsimp only
  split
  · exact .inl rfl
  · exact .inr ⟨_, _, _, rfl⟩

end

/-- Settles O46: the kept stream reads back step by step as the input before the cut; ENCODE adds each step at the end,
DECODE takes it from the start. -/
theorem decodeInvertsEncode : Obligations.DecodeInvertsEncode := by
  intro s t d m e m' hs hmax ht hexcept hd hlen hexp hsrc
  obtain ⟨p, ⟨hu, henc, hcut⟩, hend⟩ := encode_ends hs hmax m e
  cases ht.symm.trans hend
  have hpLen : p.lLen = s.lLen := congrArg Untouched.lLen hu
  have hpSrc : p.srcBytes 0 p.lLen.toNat = s.srcBytes 0 s.lLen.toNat := by
    rw [hpLen]
    exact srcBytes_congr fun i _ => srcByte_congr (s := s) (congrArg Untouched.src hu) (congrArg Untouched.srcGen hu) _
  have hraw : Config.rawMax = 16777215 := rfl
  rw [show Instr.decode m' true = commandOf 1 m' true from rfl, exec_commandOf_justStarted hd 1 m' true]
  rcases selectTrailer_cases p with hselect | ⟨enc, hdr, inc, hselect⟩
  · rw [hselect, streamEffect, trailerStoredEffect, if_pos (encoding_eq_true henc.1)] at hlen hsrc ⊢
    have hF := srcBytes_of_completeEncode (F := storedFrame (p.srcBytes 0 p.lLen.toNat)) (by
      have := align4_lt s.lLen.toNat
      rw [storedFrame_length, srcBytes_length, hpLen]
      omega) hlen hsrc
    rw [hpSrc] at hF
    rw [runCommand_storedFrame (d := withCommand 1 m' true d) hd rfl rfl hexp hmax hF]
    exact ⟨_, rfl, complete_srcBytes ..⟩
  · rw [hselect, streamEffect, trailerCompressedEffect, if_pos (encoding_eq_true henc.1),
      emitCompressed] at hlen hsrc hexcept ⊢
    have hmaxP : p.lLen.toNat ≤ Config.rawMax := by rw [hpLen]; exact hmax
    obtain ⟨hcutPak, hcutRaw, -⟩ := completeEncode_reports
      (compressedFrame (p.srcBytes 0 p.rawTmp.toNat) (p.workBytes p.pakTmp.toNat) enc hdr inc) true p
    obtain ⟨hne, hfits⟩ := hexcept rfl
    rw [hcutPak, hcutRaw] at hne hfits
    obtain ⟨hinc, hfits⟩ := fields_of_selected hselect (hpLen ▸ hne) hfits
    obtain ⟨hFlen, hFcap⟩ := selectedFrame_length (d := d) hmaxP hselect
    obtain ⟨⟨-, hsrcCap⟩, -⟩ := d.params.legal
    have hF := srcBytes_of_completeEncode (by omega) hlen hsrc
    obtain ⟨q, pak, raw, hrun⟩ := runCommand_compressedFrame (d := withCommand 1 m' true d) hd rfl henc hcut hselect
      hinc hfits hF
    rw [hrun, hpSrc]
    exact ⟨_, rfl, complete_srcBytes ..⟩

end Sys2Proof.Machine

/-! # What runs a command word, START, and the commands that end at once: O6, O10, O13 and O35 -/

namespace Sys2Proof.Machine

/-! ## What the next transition runs (45_commands R242) -/

section
variable {s : State} {i : Instr}

/-- A word that decodes as a command has START set and is the command of its fields (30_encoding R117). -/
theorem decodeCommand_ok {w : Word} (h : decodeCommand w = .ok i) :
    w.getLsbD 0 = true ∧ i = commandOf (opField w) (modeField w) (expValidField w) := by
  unfold decodeCommand at h
  split at h
  · next hbit => exact ⟨hbit, (Except.ok.inj h).symm⟩
  · cases h

/-- The host's write of a command word to CTRL while BUSY = 0 (45_commands R230). -/
theorem step_commandWrite {w : Word} {rest : List Input} (h : HostDoes s (regWriteAt s 0 w) rest)
    (hbusy : s.busy = false) (hdecode : decodeCommand w = .ok i) : step s = exec i (afterInput s rest) := by
  obtain ⟨hbit, rfl⟩ := decodeCommand_ok hdecode
  exact step_access_starts h ((busAccess_reg (s := afterInput s rest) (by decide) (.write w)).trans
    (regAccess_starts (s := afterInput s rest) hbusy hbit))

/-- The busy engine's turn is its latched command (45_commands R232). -/
theorem step_engineMoves (h : EngineMoves s) (hrun : s.phase = .run) :
    step s = exec (commandOf s.lOp s.lMode s.lExpv) (popTurn s) :=
  step_of_fetch_instr ((fetch_engineMoves h).trans (engineFetch_run (s := popTurn s) hrun))

/-- The next part of a completion step that is cut open, when it is an instruction of the frame (log 6). -/
theorem step_fetchInstr (hmid : s.midstep ≠ none) (hrun : s.phase = .run) (h : fetchInstr s = some i) :
    step s = exec i s := by
  obtain ⟨p, hp⟩ := Option.ne_none_iff_exists'.1 hmid
  refine step_of_fetch_instr ((fetch_some hp).trans ?_)
  simp only [opFetch, hrun, h]

end

/-- Settles O6: a command word decodes as the command of its fields, which is what either agent runs; a cut-open step
runs what it fetches. -/
theorem stepRunsDecodedInstruction : Obligations.StepRunsDecodedInstruction := by
  refine fun s i => ⟨fun w rest h hbusy hdecode => step_commandWrite h hbusy hdecode, fun h hrun hdecode => ?_,
    step_fetchInstr⟩
  obtain rfl := Except.ok.inj ((decodeCommand_latchedWord s).symm.trans hdecode)
  exact step_engineMoves h hrun

/-! ## START -/

/-- Settles O10: an idle engine's command word is START, which writes the listed registers and no others. -/
theorem startLatchesCommand : Obligations.StartLatchesCommand := by
  intro s op m e hidle
  refine ⟨start op m e s, (exec_commandOf op m e s).trans (command_idle hidle op m e), opField_ctrlWord op m e,
    modeField_ctrlWord op m e, expValidField_ctrlWord op m e, ?_⟩
  have hraw : (start op m e s).rawTmp.toNat = s.srcLen.toNat % 2 ^ 24 := BitVec.toNat_ofNat ..
  exact ⟨rfl, rfl, rfl, rfl, rfl, rfl, rfl, rfl, rfl, rfl, rfl, rfl, rfl, rfl, rfl, hraw, rfl, rfl, rfl, rfl, rfl, rfl, rfl,
    rfl, rfl, fun _ => rfl, rfl, rfl, rfl, rfl⟩

/-! ## Commands that end with an error at their first check -/

section
variable {s : State}

/-- RAISE has the effects of 60_exceptions R304. -/
theorem raise_raisedAs (e : ErrorKind) (s : State) : RaisedAs e.code s (raise e s) := by
  have hstatus : (statusError e).toNat = e.code * 256 + 6 := by cases e <;> rfl
  exact ⟨hstatus, rfl, rfl, rfl, rfl, rfl, rfl, rfl, rfl, rfl, fun _ => rfl, rfl, rfl, rfl, rfl, rfl, rfl⟩

/-- A command whose first operation raises an error ends there. -/
theorem exec_commandOf_of_raise {op : BitVec 2} {m e : Bool} {k : ErrorKind} (h : JustStarted s)
    (hfirst : engineOp (withCommand op m e s) = raise k (withCommand op m e s)) :
    exec (commandOf op m e) s = .next (raise k (withCommand op m e s)) := by
  have hidle : (engineOp (withCommand op m e s)).phase = .idle := by rw [hfirst]; rfl
  rw [exec_commandOf_justStarted h, runCommand_of_first_idle (d := withCommand op m e s) h.1 hidle, hfirst]

/-- An OP that is no command raises BAD_COMMAND before it reads anything (45_commands R239). -/
theorem engineOp_badCommand (hst : s.stage = .dispatch) (hencode : s.lOp ≠ 0) (hdecode : s.lOp ≠ 1) :
    engineOp s = raise .badCommand s := by
  have hfetch : fetchInstr s = none := by simp only [fetchInstr, hst, if_neg hdecode]
  simp only [engineOp, hfetch, internalOp, hst, if_neg hencode, if_neg hdecode]

/-- An input above RAW_MAX fails ENCODE's first check (45_commands R233). -/
theorem encodeBegin_tooLarge (hlarge : Config.rawMax < s.lLen.toNat) : encodeBegin s = raise .inputTooLarge s := by
  simp only [encodeBegin, encodeError, if_pos hlarge]

theorem exec_reservedOp {op : BitVec 2} (h : JustStarted s) (hencode : op ≠ 0) (hdecode : op ≠ 1) (m e : Bool) :
    exec (commandOf op m e) s = .next (raise .badCommand (withCommand op m e s)) :=
  exec_commandOf_of_raise h (engineOp_badCommand (stage_none h.2) hencode hdecode)

end

/-- Settles O35: ENCODE_CHECK is ENCODE's first operation, and R233 tests the size first. -/
theorem encodeRejectsOversizedInput : Obligations.EncodeRejectsOversizedInput := by
  intro s m e h hlarge
  have hfirst : engineOp (withCommand 0 m e s) = raise .inputTooLarge (withCommand 0 m e s) :=
    (engineOp_dispatch_encode (s := withCommand 0 m e s) (stage_none h.2) rfl).trans (encodeBegin_tooLarge hlarge)
  exact ⟨_, exec_commandOf_of_raise h hfirst, raise_raisedAs .inputTooLarge (withCommand 0 m e s)⟩

/-- Settles O13: the command's only operation is RAISE, which neither reads SRC nor keeps a byte of DST. -/
theorem reservedOpsRaiseBadCommand : Obligations.ReservedOpsRaiseBadCommand := by
  intro s m e i h hi
  obtain ⟨op, rfl, hencode, hdecode⟩ : ∃ op : BitVec 2, i = commandOf op m e ∧ op ≠ 0 ∧ op ≠ 1 := by
    obtain rfl | rfl := hi
    · exact ⟨2, rfl, by decide, by decide⟩
    · exact ⟨3, rfl, by decide, by decide⟩
  exact ⟨_, exec_reservedOp h hencode hdecode m e, raise_raisedAs .badCommand (withCommand op m e s), rfl,
    fun other => exec_reservedOp (s := { s with src := other }) h hencode hdecode m e⟩

end Sys2Proof.Machine

/-! # The completion step and its parts: O52 -/

namespace Sys2Proof.Machine

section
variable {s : State}

theorem runOps_add (j k : Nat) (s : State) : runOps (j + k) s = runOps k (runOps j s) := by
  induction j generalizing s with
  | zero => rw [Nat.zero_add, runOps_zero]
  | succ j ih =>
    cases hphase : s.phase with
    | idle => rw [runOps_idle hphase, runOps_idle hphase, runOps_idle hphase]
    | run => rw [Nat.succ_add, runOps_run hphase, runOps_run hphase, ih]

/-- Once the command has ended, more operations change nothing. -/
theorem runOps_eq_of_le {j k : Nat} (hidle : (runOps j s).phase = .idle) (h : j ≤ k) : runOps k s = runOps j s := by
  obtain ⟨d, rfl⟩ := Nat.exists_eq_add_of_le h
  rw [runOps_add, runOps_idle hidle]

/-- A legal running state is where its command's registers have room for the rest of the loop. -/
theorem loopFits_of_inv (hinv : s.Inv) (hrun : s.phase = .run) : LoopFits s where
  encode hst := by
    obtain ⟨hop, hmax, -⟩ := hinv.2.2.1 ⟨hrun, hst⟩
    exact ⟨hop, Nat.lt_of_le_of_lt hmax (by decide)⟩
  decode hst := by
    obtain ⟨hop, -⟩ := (hinv.decodeLoop hrun hst).1
    rw [hop]
    decide

/-- Internal operations that leave the command running keep the state legal. -/
theorem runOps_inv (hinv : s.Inv) (k : Nat) : (runOps k s).Inv :=
  runOps_induction (fun _ hrun h => engineOp_inv h hrun) k s hinv

/-- The rest of the computation ends in the same state from any point of it. -/
theorem runCommand_runOps (hinv : s.Inv) (hrun : s.phase = .run) (k : Nat) (hk : (runOps k s).phase = .run) :
    runCommand (runOps k s) = runCommand s := by
  have hends := (runCommand_completed s hrun (loopFits_of_inv hinv hrun)).phase
  have hendsLater := (runCommand_completed _ hk (loopFits_of_inv (runOps_inv hinv k) hk)).phase
  rw [runCommand, ← runOps_add] at hendsLater ⊢
  rw [runCommand] at hends ⊢
  obtain h | h := Nat.le_total (opsLeft s) (k + opsLeft (runOps k s))
  · exact runOps_eq_of_le hends h
  · exact (runOps_eq_of_le hendsLater h).symm

theorem exec_latched (hrun : s.phase = .run) :
    exec (commandOf s.lOp s.lMode s.lExpv) s = ended (runCommand s) := by
  rw [exec_commandOf, command_run hrun, withCommand_self]

end

/-- Settles O52: the operations keep the latches, and the computation goes on from where they left it. -/
theorem completionAbsorbsOperations : Obligations.CompletionAbsorbsOperations := by
  intro s k hinv hrun hk
  have hu := runOps_untouched s k
  have hop : (runOps k s).lOp = s.lOp := congrArg Untouched.lOp hu
  have hmode : (runOps k s).lMode = s.lMode := congrArg Untouched.lMode hu
  have hexpv : (runOps k s).lExpv = s.lExpv := congrArg Untouched.lExpv hu
  rw [exec_latched hrun, ← hop, ← hmode, ← hexpv, exec_latched hk, runCommand_runOps hinv hrun k hk]

end Sys2Proof.Machine

/-! # ENCODE's loop, its two ends and its step: O57 and O58 -/

namespace Sys2Proof.Machine

section
variable {s : State}

/-- ENCODE's checks pass and its loop is set up (45_commands R233, R234, 44_frame_builder R200). -/
theorem encodeBegin_of_le (hmax : s.lLen.toNat ≤ Config.rawMax) : encodeBegin s = { s with
    cur := 0
    wp := 0
    gk := 8
    pakTmp := 0
    rawTmp := BitVec.ofNat 24 s.lLen.toNat
    midstep := some { Progress.fresh with stage := .encodeLoop } } := by
  rw [encodeBegin, encodeError_of_le hmax]

theorem flagPad_eq_withWork (s : State) : flagPad s = { s with work := (flagPad s).work } := by
  unfold flagPad
  split <;> rfl

/-- SELECT does not look at WORK (44_frame_builder R202). -/
theorem selectTrailer_flagPad (s : State) : selectTrailer (flagPad s) = selectTrailer s := by
  rw [flagPad_eq_withWork]
  rfl

/-- exec of the trailer that SELECT picks is its effect on the frame. -/
theorem exec_selectTrailer (s p : State) : exec (selectTrailer s) p = .next (streamEffect (selectTrailer s) p) := by
  obtain h | ⟨enc, hdr, inc, h⟩ := selectTrailer_cases s
  · rw [h]
    rfl
  · rw [h]
    rfl

/-- A step inside ENCODE's loop is its next operation (log 6). -/
theorem step_encodeLoop (hrun : s.phase = .run) (hst : s.stage = .encodeLoop) :
    step s = .next (if s.cur.toNat < s.lLen.toNat then tokenStep s else encodeFinish s) := by
  have hmid := midstep_of_stage (s := s) (by rw [hst]; decide)
  rw [step_midstep hmid hrun, engineOp_encodeLoop hst]

end

/-- Settles O58: ENCODE_CHECK passes within the size bound; at cur = n FLAG_PAD writes the open flag byte alone, and
SELECT's choice does not depend on WORK. -/
theorem encodeStartsAndEndsLoop : Obligations.EncodeStartsAndEndsLoop := by
  refine fun s => ⟨fun h hop hmax => ?_, fun hrun hst hcur => ⟨flagPad s, flagPad_eq_withWork s, fun a => ?_, ?_⟩⟩
  · exact (engineOp_dispatch_encode (stage_none h.2) hop).trans (encodeBegin_of_le hmax)
  · rw [flagPad_workByte]
    split
    · rfl
    · rfl
  · rw [step_encodeLoop hrun hst, if_neg (by omega), exec_selectTrailer, encodeFinish, selectTrailer_flagPad]

end Sys2Proof.Machine

/-! ## TOKEN_STEP -/

namespace Sys2Proof.Machine

/-- `s` with the search registers of `r`: FIND's result and LOOKAHEAD's lengths (45_commands R235). -/
def State.withSearch (s r : State) : State := { s with lb := r.lb, db := r.db, ln := r.ln, lp := r.lp }

/-- `s` with the cut of `r` (44_frame_builder R201). -/
def State.withCut (s r : State) : State := { s with pakTmp := r.pakTmp, rawTmp := r.rawTmp }

/-- FIND's match at the cursor (45_commands R235). -/
def State.found (s : State) : Nat × Nat := find s.params.matchOverlap s.bottomUp s.lLen.toNat s.cur.toNat

/-- TOKEN_STEP emits FIND's match: there is one, and best mode's LOOKAHEAD does not drop it (45_commands R235). -/
def State.emitsMatch (s : State) : Bool :=
  decide (3 ≤ s.found.1) &&
    !(s.lMode && lookahead s.params.matchOverlap s.bottomUp s.lLen.toNat s.cur.toNat s.found.1)

/-- The token that TOKEN_STEP emits at the cursor (45_commands R235). -/
def State.nextToken (s : State) : Instr :=
  if s.emitsMatch then .matchToken s.found.1 s.found.2 else .lit (s.bottomUp s.cur.toNat)

section
variable {s : State}

/-! ### What the search writes -/

theorem lookaheadStep_withSearch (s : State) : lookaheadStep s = s.withSearch (lookaheadStep s) := by
  unfold lookaheadStep
  split
  · split <;> rfl
  · rfl

theorem readyToEmit_withSearch (s : State) : readyToEmit s = (groupOpen s).withSearch (readyToEmit s) :=
  lookaheadStep_withSearch (findStep (groupOpen s))

theorem cutTrack_withCut (s : State) : cutTrack s = s.withCut (cutTrack s) := by
  unfold cutTrack
  split <;> rfl

/-- LOOKAHEAD clears lb when it drops the match, and else leaves it (42_lookahead R170, R173). -/
theorem lookaheadStep_lb (hmode : s.lMode = true) (hmin : 3 ≤ s.lb.toNat) : (lookaheadStep s).lb =
    if lookahead s.params.matchOverlap s.bottomUp s.lLen.toNat s.cur.toNat s.lb.toNat then 0 else s.lb := by
  rw [lookaheadStep, if_pos (by simpa using ⟨hmode, hmin⟩), lookahead]
  cases lookLengths s.params.matchOverlap s.bottomUp s.lLen.toNat s.cur.toNat s.lb.toNat <;> rfl

/-- Outside best mode, or without a match, LOOKAHEAD does not run (45_commands R235, R243). -/
theorem lookaheadStep_of_not (h : ¬(s.lMode = true ∧ 3 ≤ s.lb.toNat)) : lookaheadStep s = s := by
  rw [lookaheadStep, if_neg (by simpa using h)]

/-- FIND gives no match, or one of legal length and distance (41_match_finder R157). -/
theorem found_bounds (h : s.cur.toNat ≤ s.lLen.toNat) :
    (s.found.1 = 0 ∨ 3 ≤ s.found.1) ∧ s.found.1 ≤ 18 ∧ s.found.2 ≤ 4098 := by
  obtain hzero | hpos := Nat.eq_zero_or_pos s.found.1
  · obtain ⟨hnone, -⟩ | ⟨haccepted, -⟩ := find_none_or_accepted s.params.matchOverlap s.bottomUp s.lLen.toNat s.cur.toNat
    · have : s.found = (0, 0) := hnone
      simp [this]
    · have : 2 < s.found.1 := haccepted.threshold_lt
      omega
  · obtain ⟨hlenMin, hlenMax, -, hdistMax, -⟩ := (findResultIsLegal s.params.matchOverlap s.bottomUp _ _ h).1 hpos
    exact ⟨.inr hlenMin, hlenMax, hdistMax⟩

/-- lb and db hold FIND's match. -/
theorem findStep_toNat (h : s.cur.toNat ≤ s.lLen.toNat) :
    (findStep s).lb.toNat = s.found.1 ∧ (findStep s).db.toNat = s.found.2 := by
  obtain ⟨-, hlen, hdist⟩ := found_bounds h
  have hlb : s.found.1 % 2 ^ 5 = s.found.1 := Nat.mod_eq_of_lt (by omega)
  have hdb : s.found.2 % 2 ^ 13 = s.found.2 := Nat.mod_eq_of_lt (by omega)
  exact ⟨(BitVec.toNat_ofNat ..).trans hlb, (BitVec.toNat_ofNat ..).trans hdb⟩

/-- lb holds the match that TOKEN_STEP emits, 0 for a literal, and db FIND's distance. -/
theorem search_toNat (h : s.cur.toNat ≤ s.lLen.toNat) :
    (lookaheadStep (findStep s)).lb.toNat = (if s.emitsMatch then s.found.1 else 0) ∧
    (lookaheadStep (findStep s)).db.toNat = s.found.2 := by
  obtain ⟨hlb, hdb⟩ := findStep_toNat h
  refine ⟨?_, (congrArg BitVec.toNat (lookaheadStep_keeps_or_drops (findStep s)).1).trans hdb⟩
  by_cases hruns : s.lMode = true ∧ 3 ≤ s.found.1
  · obtain ⟨hmode, hmin⟩ := hruns
    have hlook := lookaheadStep_lb (s := findStep s) hmode (hlb.symm ▸ hmin)
    rw [hlb] at hlook
    have hemits : s.emitsMatch =
        !lookahead s.params.matchOverlap s.bottomUp s.lLen.toNat s.cur.toNat s.found.1 := by
      rw [State.emitsMatch, hmode, decide_eq_true hmin, Bool.true_and, Bool.true_and]
    rw [hlook, hemits]
    change (if lookahead s.params.matchOverlap s.bottomUp s.lLen.toNat s.cur.toNat s.found.1 then _ else _ :
      BitVec 5).toNat = _
    cases lookahead s.params.matchOverlap s.bottomUp s.lLen.toNat s.cur.toNat s.found.1
    · exact hlb
    · rfl
  · have hemits : s.emitsMatch = decide (3 ≤ s.found.1) := by
      rw [State.emitsMatch]
      cases hmode : s.lMode
      · simp
      · simp [show ¬3 ≤ s.found.1 from fun hmin => hruns ⟨hmode, hmin⟩]
    rw [lookaheadStep_of_not (s := findStep s) (by rw [hlb]; exact hruns), hlb, hemits]
    have hnone := (found_bounds h).1
    split
    · rfl
    · next hmin => exact hnone.resolve_right (by simpa using hmin)

/-! ### What the token writes -/

/-- exec of a token of ENCODE is its effect on the packer (43_flag_packer R182, R183). -/
theorem emitToken_search (hop : s.lOp = 0) (hcur : s.cur.toNat ≤ s.lLen.toNat) :
    emitToken (lookaheadStep (findStep s)) =
      (streamEffect s.nextToken s).withSearch (lookaheadStep (findStep s)) := by
  obtain ⟨hlb, hdb⟩ := search_toNat hcur
  obtain ⟨hnone, -⟩ := found_bounds hcur
  have hr : lookaheadStep (findStep s) = s.withSearch (lookaheadStep (findStep s)) :=
    lookaheadStep_withSearch (findStep s)
  generalize lookaheadStep (findStep s) = r at hlb hdb hr
  have hrop : r.lOp = 0 := by rw [hr]; exact hop
  have hbyte : r.bottomUp r.cur.toNat = s.bottomUp s.cur.toNat := by rw [hr]; rfl
  rw [emitToken_of_encode r hrop, hlb, hdb, hbyte, State.nextToken]
  cases hmatch : s.emitsMatch with
  | true =>
    have hmin : 3 ≤ s.found.1 := by simp [State.emitsMatch] at hmatch; exact hmatch.1
    have heffect : streamEffect (.matchToken s.found.1 s.found.2) s = emitMatch s.found.1 s.found.2 s :=
      if_pos (encoding_eq_true hop)
    simp only [if_true, if_pos hmin, heffect]
    rw [hr]
    rfl
  | false =>
    have heffect : streamEffect (.lit (s.bottomUp s.cur.toNat)) s = emitLit (s.bottomUp s.cur.toNat) s :=
      if_pos (encoding_eq_true hop)
    have hmin : ¬Config.minLen ≤ 0 := by decide
    simp only [Bool.false_eq_true, if_false, if_neg hmin, heffect]
    rw [hr]
    rfl

/-- exec of the token is its effect. -/
theorem exec_nextToken (s g : State) : exec s.nextToken g = .next (streamEffect s.nextToken g) := by
  rw [State.nextToken]
  split <;> rfl

/-- A token of ENCODE does not move the cut. -/
theorem streamEffect_nextToken_cut {g : State} (hop : g.lOp = 0) (s : State) :
    (streamEffect s.nextToken g).pakTmp = g.pakTmp ∧ (streamEffect s.nextToken g).rawTmp = g.rawTmp := by
  rw [State.nextToken]
  split
  · rw [streamEffect, matchEffect, if_pos (encoding_eq_true hop)]
    exact ⟨rfl, rfl⟩
  · rw [streamEffect, litEffect, if_pos (encoding_eq_true hop)]
    exact ⟨rfl, rfl⟩

/-! ### The whole step -/

/-- GROUP_OPEN moves neither the cut nor the cursor, and the token is the same after it (43_flag_packer R180). -/
theorem groupOpen_keeps (s : State) : (groupOpen s).pakTmp = s.pakTmp ∧ (groupOpen s).rawTmp = s.rawTmp ∧
    (groupOpen s).found = s.found ∧ (groupOpen s).emitsMatch = s.emitsMatch ∧ (groupOpen s).nextToken = s.nextToken := by
  unfold groupOpen flagEffect
  split
  · split <;> exact ⟨rfl, rfl, rfl, rfl, rfl⟩
  · exact ⟨rfl, rfl, rfl, rfl, rfl⟩

/-- CUT_TRACK moves the cut exactly when R201's quantity falls below that of a cut within the size bound. -/
theorem cutTrack_moves (h : s.pakTmp.toNat + s.rawTmp.toNat ≤ Config.rawMax) :
    if s.wp.toNat + (s.lLen.toNat - s.cur.toNat) < s.pakTmp.toNat + s.rawTmp.toNat
      then (cutTrack s).pakTmp.toNat = s.wp.toNat ∧ (cutTrack s).rawTmp.toNat = s.lLen.toNat - s.cur.toNat
      else (cutTrack s).pakTmp = s.pakTmp ∧ (cutTrack s).rawTmp = s.rawTmp := by
  have hraw : Config.rawMax = 16777215 := rfl
  split
  · next hless =>
    rw [cutTrack, if_pos hless]
    exact ⟨(BitVec.toNat_ofNat ..).trans (Nat.mod_eq_of_lt (by omega)),
      (BitVec.toNat_ofNat ..).trans (Nat.mod_eq_of_lt (by omega))⟩
  · next hless =>
    rw [cutTrack, if_neg hless]
    exact ⟨rfl, rfl⟩

/-- The cut lies within the input (44_frame_builder R200, R201). -/
theorem EncodeOk.cut_le (h : EncodeOk s) : s.pakTmp.toNat + s.rawTmp.toNat ≤ s.lLen.toNat := by
  obtain ⟨-, -, -, -, -, -, -, hstart, hless⟩ := h
  by_cases hpak : s.pakTmp = 0
  · simp [hpak, hstart hpak]
  · exact (hless hpak).le

/-- After the token, whatever WORK holds, there is a stream and its flag byte is behind the write index. -/
theorem emitToken_readyToEmit_afterToken (henc : EncodeOk s) (hcur : s.cur.toNat < s.lLen.toNat) :
    AfterToken (emitToken (readyToEmit s)).eraseWork := by
  have hlen : (readyToEmit s).lLen = s.lLen :=
    congrArg Untouched.lLen (show (readyToEmit s).untouched = s.untouched by simp [readyToEmit])
  refine emitToken_afterToken_eraseWork (readyToEmit_isOpen_eraseWork henc) ?_ ?_
  · rw [readyToEmit_cur, hlen]
    exact hcur
  · rw [readyToEmit_cur, hlen]
    exact readyToEmit_lb_le s hcur.le

theorem tokenStep_encodeOk (henc : EncodeOk s) (hcur : s.cur.toNat < s.lLen.toNat) : EncodeOk (tokenStep s) :=
  cutTrack_encodeOk_of_eraseWork (emitToken_readyToEmit_afterToken henc hcur)

/-- TOKEN_STEP emits the next token in the opened group, with the search registers set, and then tracks the cut. -/
theorem tokenStep_eq (hop : s.lOp = 0) (hcur : s.cur.toNat ≤ s.lLen.toNat) :
    tokenStep s = cutTrack ((streamEffect s.nextToken (groupOpen s)).withSearch (readyToEmit s)) := by
  have hu := groupOpen_untouched s
  have hgop : (groupOpen s).lOp = 0 := (congrArg Untouched.lOp hu).trans hop
  have hlen : (groupOpen s).lLen = s.lLen := congrArg Untouched.lLen hu
  have htoken := emitToken_search hgop (by rw [groupOpen_cur, hlen]; exact hcur)
  obtain ⟨-, -, -, -, hnext⟩ := groupOpen_keeps s
  rw [hnext] at htoken
  exact congrArg cutTrack htoken

/-- Beside the token's effect, a search and the cut's tracking write the search registers and the cut only. -/
theorem cutTrack_withSearch (u r : State) :
    cutTrack (u.withSearch r) = (u.withSearch (cutTrack (u.withSearch r))).withCut (cutTrack (u.withSearch r)) := by
  have hsearch : u.withSearch (cutTrack (u.withSearch r)) = u.withSearch r := by
    simp only [State.withSearch, cutTrack_lb, cutTrack_db, cutTrack_ln, cutTrack_lp]
  rw [hsearch]
  exact cutTrack_withCut _

end

/-- Settles O57: TOKEN_STEP is GROUP_OPEN, the search, the token and CUT_TRACK, and each writes its own registers. -/
theorem encodeStepEmitsToken : Obligations.EncodeStepEmitsToken := by
  intro s hinv hrun hst hcur n c R found drops isMatch
  have henc : EncodeOk s := hinv.2.2.1 ⟨hrun, hst⟩
  have hop : s.lOp = 0 := henc.1
  have hmax : s.lLen.toNat ≤ Config.rawMax := henc.2.1
  have hu := groupOpen_untouched s
  have hglen : (groupOpen s).lLen = s.lLen := congrArg Untouched.lLen hu
  have hulen : (streamEffect s.nextToken (groupOpen s)).lLen = s.lLen :=
    congrArg Untouched.lLen ((streamEffect_untouched ..).trans hu)
  obtain ⟨hpak, hraw, hfound, hemits, -⟩ := groupOpen_keeps s
  obtain ⟨hupak, huraw⟩ := streamEffect_nextToken_cut (g := groupOpen s) ((congrArg Untouched.lOp hu).trans hop) s
  obtain ⟨hlb, hdb⟩ := search_toNat (s := groupOpen s) (by rw [groupOpen_cur, hglen]; exact hcur.le)
  rw [hemits, hfound] at hlb
  rw [hfound] at hdb
  have hcut := cutTrack_moves (s := (streamEffect s.nextToken (groupOpen s)).withSearch (readyToEmit s))
    (by
      simp only [State.withSearch, hupak, huraw, hpak, hraw]
      exact henc.cut_le.trans hmax)
  have hstep := tokenStep_eq hop hcur.le
  rw [← hstep] at hcut
  simp only [State.withSearch, hupak, huraw, hpak, hraw, hulen] at hcut
  refine ⟨groupOpen s, streamEffect s.nextToken (groupOpen s), tokenStep s, fun hgk => ?_, fun hgk => if_neg hgk,
    exec_nextToken s _, ?_, ?_, ?_, ?_, ?_, cur_lt_tokenStep s hop (Nat.lt_of_le_of_lt hmax (by decide)) hcur, ?_⟩
  · rw [exec_flag, groupOpen, if_pos hgk]
  · rw [step_encodeLoop hrun hst, if_pos hcur]
  · have hframe := hstep.trans (cutTrack_withSearch ..)
    rw [← hstep] at hframe
    simpa only [State.withSearch, State.withCut] using hframe
  · rw [hstep, cutTrack_lb]
    exact hlb
  · rw [hstep, cutTrack_db]
    exact hdb
  · exact hcut
  · have hlen : (tokenStep s).lLen = s.lLen := congrArg Untouched.lLen (tokenStep_untouched s)
    exact (tokenStep_encodeOk henc hcur).2.2.1.trans_eq (congrArg BitVec.toNat hlen)

end Sys2Proof.Machine

/-! # ENCODE within the size bound always delivers: O36 -/

namespace Sys2Proof.Machine

/-- ENCODE of the input of `s` stands at the head of its loop; a group is begun, or none is needed, and a token that has
moved the cursor stands in the stream. -/
structure PacksInput (s u : State) : Prop where
  loop : InEncodeLoop s u
  gk_pos : 1 ≤ u.gk.toNat
  wp_pos : 0 < u.cur.toNat → 0 < u.wp.toNat

/-- ENCODE of the input of `s` has packed all of it. -/
structure Packed (s p : State) : Prop where
  untouched : p.untouched = s.untouched
  legal : EncodeOk p
  all : p.cur.toNat = p.lLen.toNat
  gk_pos : 1 ≤ p.gk.toNat
  wp_pos : 0 < p.cur.toNat → 0 < p.wp.toNat

/-- ENCODE has ended with the frame that SELECT picks for the packed input. -/
structure Delivered (s u : State) : Prop where
  idle : u.phase = .idle
  frame : ∃ p, Packed s p ∧ u = streamEffect (selectTrailer p) p

/-- `out` is the frame of the packed input `p`, compressed or not, within the bound of R211. -/
structure FrameOf (p : State) (out : List Byte) (compressed : Bool) : Prop where
  size : 4 ≤ out.length ∧ out.length ≤ align4 p.lLen.toNat + 4 ∧ out.length % 4 = 0
  stored : compressed = false → out.length = align4 p.lLen.toNat + 4 ∧
    (∀ a < p.lLen.toNat, (completeEncode out false p).dstByte a = p.srcByte a) ∧
    ∀ a, p.lLen.toNat ≤ a → a < align4 p.lLen.toNat + 4 → (completeEncode out false p).dstByte a = 0
  kept : compressed = true → 0 < p.pakTmp.toNat
  cut : compressed = true → out.length = align4 p.cutSize + 8 ∧
    ∀ a < p.rawTmp.toNat, (completeEncode out true p).dstByte a = p.srcByte a

section
variable {s p u : State}

/-! ## The loop -/

theorem emitToken_gk (hop : s.lOp = 0) : (emitToken s).gk = BitVec.ofNat 4 (s.gk.toNat + 1) := by
  rw [emitToken_of_encode s hop]
  split <;> rfl

/-- TOKEN_STEP leaves a group begun and a stream that is not empty. -/
theorem tokenStep_packs (henc : EncodeOk s) (hcur : s.cur.toNat < s.lLen.toNat) :
    1 ≤ (tokenStep s).gk.toNat ∧ 0 < (tokenStep s).wp.toNat := by
  have hgk : (readyToEmit s).gk.toNat < 8 := (readyToEmit_isOpen_eraseWork henc).gk
  have hop : (readyToEmit s).lOp = 0 := (readyToEmit_lOp s).trans henc.1
  refine ⟨?_, ?_⟩
  · rw [tokenStep, cutTrack_gk]
    change 1 ≤ (emitToken (readyToEmit s)).gk.toNat
    rw [emitToken_gk hop, BitVec.toNat_ofNat, Nat.mod_eq_of_lt (by omega)]
    omega
  · rw [tokenStep, cutTrack_wp]
    exact (emitToken_readyToEmit_afterToken henc hcur).wp_pos

theorem encodeBegin_packs (hrun : s.phase = .run) (hop : s.lOp = 0) (hmax : s.lLen.toNat ≤ Config.rawMax) :
    PacksInput s (encodeBegin s) := by
  refine ⟨encodeBegin_inLoop hrun hop hmax, ?_, fun h => ?_⟩
  · rw [encodeBegin_of_le hmax]
    exact show 1 ≤ 8 by decide
  · rw [encodeBegin_of_le hmax] at h
    exact absurd h (Nat.lt_irrefl 0)

/-- FLAG_PAD keeps what the loop has packed. -/
theorem PacksInput.flagPad (h : PacksInput s u) (hall : u.lLen.toNat ≤ u.cur.toNat) : Packed s (flagPad u) := by
  obtain ⟨hloop, hgk, hwp⟩ := h
  obtain ⟨hu, henc, -⟩ := flagPad_atSelect hloop
  have hle : u.cur.toNat ≤ u.lLen.toNat := hloop.legal.2.2.1
  refine ⟨hu, henc, ?_, ?_, ?_⟩
  · rw [flagPad_cur, flagPad_lLen]
    omega
  · rwa [flagPad_gk]
  · rwa [flagPad_cur, flagPad_wp]

theorem tokenStep_inLoop (h : InEncodeLoop s u) (hcur : u.cur.toNat < u.lLen.toNat) : InEncodeLoop s (tokenStep u) := by
  have hloop := engineOp_encode h
  rw [engineOp_encodeLoop h.stage, if_pos hcur] at hloop
  refine hloop.resolve_right fun hend => ?_
  have hphase := (congrArg Reported.phase (tokenStep_reported h.legal.1)).trans h.run
  cases hphase.symm.trans hend.idle

/-- An operation of the loop packs a token, or ends the command when all is packed. -/
theorem engineOp_packs (h : PacksInput s u) : PacksInput s (engineOp u) ∨ Delivered s (engineOp u) := by
  rw [engineOp_encodeLoop h.loop.stage]
  split
  · next hcur =>
    obtain ⟨hgk, hwp⟩ := tokenStep_packs h.loop.legal hcur
    exact .inl ⟨tokenStep_inLoop h.loop hcur, hgk, fun _ => hwp⟩
  · next hcur =>
    exact .inr ⟨(encodeFinish_completed u h.loop.legal.1).phase, _, h.flagPad (Nat.not_lt.1 hcur), rfl⟩

/-- ENCODE packs its whole input and ends with the frame that SELECT picks. -/
theorem encode_delivers (h : JustStarted s) (hmax : s.lLen.toNat ≤ Config.rawMax) (m e : Bool) :
    ∃ p, Packed (withCommand 0 m e s) p ∧
      exec (commandOf 0 m e) s = .next (streamEffect (selectTrailer p) p) := by
  have hrun : (withCommand 0 m e s).phase = .run := h.1
  have hfirst : PacksInput (withCommand 0 m e s) (engineOp (withCommand 0 m e s)) := by
    rw [engineOp_dispatch_encode (s := withCommand 0 m e s) (stage_none h.2) rfl]
    exact encodeBegin_packs hrun rfl hmax
  obtain ⟨-, p, hp, ht⟩ := runCommand_ends_in (Q := Delivered (withCommand 0 m e s)) hrun (loopFits_of_midstep_none h.2)
    (.inl hfirst) (fun _ => engineOp_packs) (fun _ hu => hu.loop.run) fun _ hu => hu.idle
  exact ⟨p, hp, (exec_commandOf_justStarted h 0 m e).trans (congrArg _ ht)⟩

/-! ## What is delivered -/

/-- The stream of the packed input is bounded and is empty for an empty input only (43_flag_packer R186). -/
theorem Packed.stream_bounds (h : Packed s p) :
    p.wp.toNat ≤ p.lLen.toNat + ceilDiv8 p.lLen.toNat ∧ (p.wp.toNat = 0 ↔ p.lLen.toNat = 0) := by
  obtain ⟨-, ⟨-, -, -, -, hcost, -⟩, hall, hgk, hwp⟩ := h
  have hceil : ceilDiv8 p.lLen.toNat = (p.lLen.toNat + 7) / 8 := rfl
  omega

theorem frameOf_emitStored (p : State) : FrameOf p (storedFrame (p.srcBytes 0 p.lLen.toNat)) false where
  size := by
    have hmod := align4_mod p.lLen.toNat
    rw [storedFrame_length, srcBytes_length]
    omega
  stored _ := ⟨by rw [storedFrame_length, srcBytes_length], fun _ => emitStored_srcPart, fun _ => emitStored_zeroPart⟩
  kept h := nomatch h
  cut h := nomatch h

/-- A compressed frame is selected only where it is no longer than the stored one (44_frame_builder R202, R211). -/
theorem frameOf_emitCompressed {enc : BitVec 24} {hdr : Byte} {inc : Word}
    (hselect : selectTrailer p = .trailerCompressed enc hdr inc) :
    FrameOf p (compressedFrame (p.srcBytes 0 p.rawTmp.toNat) (p.workBytes p.pakTmp.toNat) enc hdr inc) true := by
  obtain ⟨hpak, hshort, -, hhdr, -⟩ := selectTrailer_compressed hselect
  have hlength : (compressedFrame (p.srcBytes 0 p.rawTmp.toNat) (p.workBytes p.pakTmp.toNat) enc hdr inc).length =
      align4 p.cutSize + 8 := by
    have hhdrNat : hdr.toNat = headerLenOf p.cutSize := hhdr ▸ headerLenOf_toNat p.cutSize
    rw [compressedFrame_length_of_headerLenOf enc inc (by rw [workBytes_length, srcBytes_length]; exact hhdrNat),
      workBytes_length, srcBytes_length, State.cutSize]
  refine ⟨?_, nofun, fun _ => hpak, fun _ => ⟨hlength, (emitCompressed_bytes p enc hdr inc).1⟩⟩
  have hmod := align4_mod p.cutSize
  have hle := le_align4 p.lLen.toNat
  omega

/-- The frame that SELECT picks. -/
theorem selectedFrame (hop : p.lOp = 0) : ∃ out compressed, FrameOf p out compressed ∧
    streamEffect (selectTrailer p) p = completeEncode out compressed p := by
  obtain hselect | ⟨enc, hdr, inc, hselect⟩ := selectTrailer_cases p
  · refine ⟨_, false, frameOf_emitStored p, ?_⟩
    rw [hselect]
    exact if_pos (encoding_eq_true hop)
  · refine ⟨_, true, frameOf_emitCompressed hselect, ?_⟩
    rw [hselect]
    exact if_pos (encoding_eq_true hop)

/-- What a command that has ended leaves unchanged outside its result. -/
theorem frame_of_untouched {t : State} (hu : t.untouched = s.untouched) :
    t.ctrl = s.ctrl ∧ t.srcLen = s.srcLen ∧ t.expLen = s.expLen ∧ SameSrc s t ∧ SameOutside s t :=
  ⟨congrArg Untouched.ctrl hu, congrArg Untouched.srcLen hu, congrArg Untouched.expLen hu,
    srcByte_congr (congrArg Untouched.src hu) (congrArg Untouched.srcGen hu), congrArg Untouched.inputs hu,
    congrArg Untouched.sched hu, congrArg Untouched.rdata hu, congrArg Untouched.params hu,
    congrArg Untouched.srcGen hu, congrArg Untouched.bufGen hu⟩

theorem eq_zero_iff_toNat {w : Nat} (x : BitVec w) : x = 0 ↔ x.toNat = 0 := by
  rw [← BitVec.toNat_inj]
  simp

end

/-- Settles O36: the loop packs the whole input, and the frame that SELECT picks is within the bound of the stored one. -/
theorem encodeAlwaysDelivers : Obligations.EncodeAlwaysDelivers := by
  intro s m e h hmax
  obtain ⟨p, hp, hexec⟩ := encode_delivers h hmax m e
  obtain ⟨out, compressed, hframe, heffect⟩ := selectedFrame hp.legal.1
  have hu := hp.untouched
  have hlen : p.lLen = s.lLen := congrArg Untouched.lLen hu
  have hpSrc : SameSrc s p := srcByte_congr (congrArg Untouched.src hu) (congrArg Untouched.srcGen hu)
  obtain ⟨hwp, hempty⟩ := hp.stream_bounds
  obtain ⟨hmin, hshort, hmod⟩ := hframe.size
  have halign := align4_lt s.lLen.toNat
  have hraw : Config.rawMax = 16777215 := rfl
  rw [hlen] at hwp hempty hshort
  have hcut := hp.legal.cut_le
  obtain ⟨-, -, -, -, -, -, -, -, hless⟩ := hp.legal
  rw [hlen] at hcut hless
  have hdst := completeEncode_dstLen (s := p) compressed (show out.length < 2 ^ 32 by omega)
  obtain ⟨hcutPak, hcutRaw, hpakLen, hstatus, hphase, -⟩ := completeEncode_reports out compressed p
  have hcutZero : (completeEncode out compressed p).cutPak = 0 ↔ p.pakTmp = 0 := by
    rw [eq_zero_iff_toNat, eq_zero_iff_toNat, hcutPak]
  refine ⟨completeEncode out compressed p, hexec.trans (congrArg _ heffect), ?_, ?_⟩
  · dsimp only
    rw [hdst, hpakLen, hcutPak, hcutRaw, hstatus, eq_zero_iff_toNat (w := 32) (completeEncode out compressed p).pakLen,
      hpakLen, Ne, hcutZero]
    refine ⟨hphase, ?_, hmin, hshort, by omega, hmod, hwp, hempty, hcut, hless, ?_, ?_, ?_⟩
    · cases compressed <;> decide
    · intro hzero
      cases compressed with
      | false => rfl
      | true => exact absurd ((eq_zero_iff_toNat p.pakTmp).1 hzero) (hframe.kept rfl).ne'
    · intro hstored
      cases compressed with
      | true => exact absurd hstored (by decide)
      | false =>
        obtain ⟨hlength, hinput, hzeros⟩ := hframe.stored rfl
        rw [hlen] at hlength hinput hzeros
        exact ⟨hlength, fun a ha => (hinput a ha).trans (hpSrc a), hzeros⟩
    · intro hcompressed
      cases compressed with
      | false => exact absurd hcompressed (by decide)
      | true =>
        obtain ⟨hlength, hverbatim⟩ := hframe.cut rfl
        exact ⟨hlength, fun a ha => (hverbatim a ha).trans (hpSrc a)⟩
  · exact frame_of_untouched (s := withCommand 0 m e s) ((complete_untouched ..).trans hu)

end Sys2Proof.Machine

/-! # A command's result is a function of its snapshot: O53

Two runs with one snapshot go in step: they agree on every register that the pseudocode reads and on every byte of WORK
that it has written, so they fetch the same instructions, and where they end they report the same. -/

namespace Sys2Proof.Machine

/-- The START snapshot and the parameters agree (45_commands R231, R241). -/
structure SameSnapshot (s s' : State) : Prop where
  lOp : s'.lOp = s.lOp
  lMode : s'.lMode = s.lMode
  lExpv : s'.lExpv = s.lExpv
  lLen : s'.lLen = s.lLen
  lExp : s'.lExp = s.lExp
  params : s'.params = s.params
  bytes : ∀ a < s.lLen.toNat, s'.srcByte a = s.srcByte a

/-- Both commands have ended and report the same, with a defined byte at every index of DST[0..DST_LEN). -/
structure EndsAlike (t t' : State) : Prop where
  idle : t.phase = .idle
  reported : t'.reported = t.reported
  defined : ∀ a < t.dstLen.toNat, ∃ b, Memory.get t.dst a = some b

section
variable {s s' t t' : State}

/-! ## What one snapshot fixes -/

theorem SameSnapshot.of_untouched (h : SameSnapshot s s') (hu : t.untouched = s.untouched)
    (hu' : t'.untouched = s'.untouched) : SameSnapshot t t' := by
  have hlen : t.lLen = s.lLen := congrArg Untouched.lLen hu
  have hsrc := srcByte_congr (congrArg Untouched.src hu) (congrArg Untouched.srcGen hu)
  have hsrc' := srcByte_congr (congrArg Untouched.src hu') (congrArg Untouched.srcGen hu')
  refine ⟨?_, ?_, ?_, ?_, ?_, ?_, fun a ha => ?_⟩
  · exact (congrArg Untouched.lOp hu').trans (h.lOp.trans (congrArg Untouched.lOp hu).symm)
  · exact (congrArg Untouched.lMode hu').trans (h.lMode.trans (congrArg Untouched.lMode hu).symm)
  · exact (congrArg Untouched.lExpv hu').trans (h.lExpv.trans (congrArg Untouched.lExpv hu).symm)
  · exact (congrArg Untouched.lLen hu').trans (h.lLen.trans hlen.symm)
  · exact (congrArg Untouched.lExp hu').trans (h.lExp.trans (congrArg Untouched.lExp hu).symm)
  · exact (congrArg Untouched.params hu').trans (h.params.trans (congrArg Untouched.params hu).symm)
  · rw [hsrc', hsrc]
    exact h.bytes a (hlen ▸ ha)

theorem SameSnapshot.srcBytes (h : SameSnapshot s s') {a n : Nat} (hn : a + n ≤ s.lLen.toNat) :
    s'.srcBytes a n = s.srcBytes a n :=
  srcBytes_congr fun i hi => h.bytes (a + i) (by omega)

theorem SameSnapshot.bottomUp (h : SameSnapshot s s') {i : Nat} (hi : i < s.lLen.toNat) :
    s'.bottomUp i = s.bottomUp i := by
  rw [State.bottomUp, State.bottomUp, h.lLen]
  exact h.bytes _ (by omega)

/-! ## Ends -/

theorem raise_endsAlike (e : ErrorKind) (s s' : State) : EndsAlike (raise e s) (raise e s') :=
  ⟨rfl, rfl, fun _ ha => absurd ha (Nat.not_lt_zero _)⟩

theorem complete_endsAlike (out : List Byte) (frame trunc clamp : Bool) (pak raw stream : Nat) (s s' : State) :
    EndsAlike (complete out frame trunc clamp pak raw stream s) (complete out frame trunc clamp pak raw stream s') := by
  refine ⟨rfl, rfl, fun a ha => ?_⟩
  have hle : (BitVec.ofNat 32 out.length).toNat ≤ out.length := by
    rw [BitVec.toNat_ofNat]
    exact Nat.mod_le ..
  have hlt : a < out.length := Nat.lt_of_lt_of_le ha hle
  exact ⟨out[a], (Memory.get_ofBytes out a).trans (List.getElem?_eq_getElem hlt)⟩

/-- A defined byte of DST does not depend on the free values. -/
theorem EndsAlike.dstByte (h : EndsAlike t t') {a : Nat} (ha : a < t.dstLen.toNat) : t'.dstByte a = t.dstByte a := by
  obtain ⟨b, hb⟩ := h.defined a ha
  have hdst : t'.dst = t.dst := congrArg Reported.dst h.reported
  rw [State.dstByte, State.dstByte, hdst, hb]
  rfl

end

end Sys2Proof.Machine

namespace Sys2Proof.Machine

/-! ## ENCODE -/

/-- Two packers agree on their registers and on the stream so far, and on the open group's flag byte. -/
structure PacksAlike (u u' : State) : Prop where
  cur : u'.cur = u.cur
  wp : u'.wp = u.wp
  gk : u'.gk = u.gk
  pakTmp : u'.pakTmp = u.pakTmp
  rawTmp : u'.rawTmp = u.rawTmp
  fp : u.gk.toNat < 8 → u'.fp = u.fp
  work : ∀ a < u.wp.toNat, u'.workByte a = u.workByte a

section
variable {s s' u u' : State}

/-! ### The next token -/

theorem lookahead_congr {overlap : Bool} {R R' : Nat → Byte} {n c lb : Nat} (hc : c < n)
    (hagree : ∀ k < n, R' k = R k) : lookahead overlap R' n c lb = lookahead overlap R n c lb := by
  by_cases hroom : c + lb < n
  · rw [lookahead_of_room hroom, lookahead_of_room hroom, lookLengthsAt, lookLengthsAt,
      find_congr hroom.le hagree, find_congr (c := c + 1) hc hagree]
  · rw [lookahead_of_no_room (Nat.not_lt.1 hroom), lookahead_of_no_room (Nat.not_lt.1 hroom)]

/-- FIND and LOOKAHEAD read the snapshot only (41_match_finder R158, 42_lookahead R177). -/
theorem SameSnapshot.nextToken (h : SameSnapshot s s') (hcur : s'.cur = s.cur) (hlt : s.cur.toNat < s.lLen.toNat) :
    s'.nextToken = s.nextToken := by
  have hagree : ∀ k < s.lLen.toNat, s'.bottomUp k = s.bottomUp k := fun _ => h.bottomUp
  have hfound : s'.found = s.found := by
    rw [State.found, State.found, h.params, h.lLen, hcur]
    exact find_congr hlt.le hagree
  have hemits : s'.emitsMatch = s.emitsMatch := by
    rw [State.emitsMatch, State.emitsMatch, hfound, h.lMode, h.params, h.lLen, hcur, lookahead_congr hlt hagree]
  rw [State.nextToken, State.nextToken, hemits, hfound, hcur, hagree _ hlt]

/-! ### TOKEN_STEP -/

theorem groupOpen_of_encode (hop : s.lOp = 0) : groupOpen s = if s.gk = 8 then openGroup 0 s else s := by
  rw [groupOpen, flagEffect, encoding_eq_true hop, if_pos rfl]

theorem PacksAlike.groupOpen (h : PacksAlike u u') (hop : u.lOp = 0) (hop' : u'.lOp = 0) :
    PacksAlike (groupOpen u) (groupOpen u') := by
  rw [groupOpen_of_encode hop, groupOpen_of_encode hop', h.gk]
  split
  · refine ⟨h.cur, congrArg (fun wp : BitVec 25 => BitVec.ofNat 25 (wp.toNat + 1)) h.wp, rfl, h.pakTmp, h.rawTmp,
      fun _ => h.wp, fun a ha => ?_⟩
    have hlt : a < u.wp.toNat + 1 := Nat.lt_of_lt_of_le ha ((BitVec.toNat_ofNat ..).trans_le (Nat.mod_le ..))
    rw [openGroup_workByte, openGroup_workByte, h.wp]
    split
    · rfl
    · exact h.work a (by omega)
  · exact h

/-- Folding a flag into the open group's flag byte, which stands in the stream (43_flag_packer R181). -/
theorem PacksAlike.flagFold_workByte (h : PacksAlike u u') (hgk : u.gk.toNat < 8) (hfp : u.fp.toNat < u.wp.toNat)
    (b : Bool) {a : Nat} (ha : a < u.wp.toNat) : (flagFold b u').workByte a = (flagFold b u).workByte a := by
  rw [Machine.flagFold_workByte, Machine.flagFold_workByte, h.fp hgk, h.work _ hfp, h.work a ha]

theorem PacksAlike.emitLit (h : PacksAlike u u') (hgk : u.gk.toNat < 8) (hfp : u.fp.toNat < u.wp.toNat) (b : Byte) :
    PacksAlike (emitLit b u) (emitLit b u') := by
  refine ⟨congrArg (fun cur : BitVec 24 => BitVec.ofNat 24 (cur.toNat + 1)) h.cur,
    congrArg (fun wp : BitVec 25 => BitVec.ofNat 25 (wp.toNat + 1)) h.wp,
    congrArg (fun gk : BitVec 4 => BitVec.ofNat 4 (gk.toNat + 1)) h.gk, h.pakTmp, h.rawTmp, fun _ => h.fp hgk,
    fun a ha => ?_⟩
  have hlt : a < u.wp.toNat + 1 := Nat.lt_of_lt_of_le ha ((BitVec.toNat_ofNat ..).trans_le (Nat.mod_le ..))
  rw [emitLit_workByte, emitLit_workByte, h.wp]
  split
  · rfl
  · exact h.flagFold_workByte hgk hfp false (by omega)

theorem PacksAlike.emitMatch (h : PacksAlike u u') (hgk : u.gk.toNat < 8) (hfp : u.fp.toNat < u.wp.toNat)
    (len dist : Nat) : PacksAlike (emitMatch len dist u) (emitMatch len dist u') := by
  refine ⟨congrArg (fun cur : BitVec 24 => BitVec.ofNat 24 (cur.toNat + len)) h.cur,
    congrArg (fun wp : BitVec 25 => BitVec.ofNat 25 (wp.toNat + 2)) h.wp,
    congrArg (fun gk : BitVec 4 => BitVec.ofNat 4 (gk.toNat + 1)) h.gk, h.pakTmp, h.rawTmp, fun _ => h.fp hgk,
    fun a ha => ?_⟩
  have hlt : a < u.wp.toNat + 2 := Nat.lt_of_lt_of_le ha ((BitVec.toNat_ofNat ..).trans_le (Nat.mod_le ..))
  rw [emitMatch_workByte, emitMatch_workByte, h.wp]
  split
  · rfl
  · split
    · rfl
    · exact h.flagFold_workByte hgk hfp true (by omega)

theorem PacksAlike.nextToken (h : PacksAlike u u') (hop : u.lOp = 0) (hop' : u'.lOp = 0) (hgk : u.gk.toNat < 8)
    (hfp : u.fp.toNat < u.wp.toNat) (s : State) :
    PacksAlike (streamEffect s.nextToken u) (streamEffect s.nextToken u') := by
  rw [State.nextToken]
  split
  · rw [streamEffect, streamEffect, matchEffect, matchEffect, encoding_eq_true hop, encoding_eq_true hop']
    exact h.emitMatch hgk hfp _ _
  · rw [streamEffect, streamEffect, litEffect, litEffect, encoding_eq_true hop, encoding_eq_true hop']
    exact h.emitLit hgk hfp _

@[simp] theorem withSearch_lLen (s r : State) : (s.withSearch r).lLen = s.lLen := rfl

theorem PacksAlike.withSearch (h : PacksAlike u u') (r r' : State) : PacksAlike (u.withSearch r) (u'.withSearch r') :=
  ⟨h.cur, h.wp, h.gk, h.pakTmp, h.rawTmp, h.fp, h.work⟩

theorem PacksAlike.cutTrack (h : PacksAlike u u') (hlen : u'.lLen = u.lLen) :
    PacksAlike (cutTrack u) (cutTrack u') := by
  have hless : (u'.wp.toNat + (u'.lLen.toNat - u'.cur.toNat) < u'.pakTmp.toNat + u'.rawTmp.toNat) ↔
      u.wp.toNat + (u.lLen.toNat - u.cur.toNat) < u.pakTmp.toNat + u.rawTmp.toNat := by
    rw [h.wp, h.cur, h.pakTmp, h.rawTmp, hlen]
  rw [Machine.cutTrack, Machine.cutTrack]
  split
  · next hmoves =>
    rw [if_pos (hless.2 hmoves)]
    exact ⟨h.cur, h.wp, h.gk, by rw [h.wp], by rw [hlen, h.cur], h.fp, h.work⟩
  · next hstays =>
    rw [if_neg fun hmoves => hstays (hless.1 hmoves)]
    exact h

theorem PacksAlike.tokenStep (h : PacksAlike u u') (hsnap : SameSnapshot u u') (henc : EncodeOk u)
    (hcur : u.cur.toNat < u.lLen.toNat) : PacksAlike (tokenStep u) (tokenStep u') := by
  have hop : u.lOp = 0 := henc.1
  have hop' : u'.lOp = 0 := hsnap.lOp.trans hop
  have hgu := groupOpen_untouched u
  have hgu' := groupOpen_untouched u'
  obtain ⟨hopen, hgk, -⟩ := groupOpen_isOpen_eraseWork henc
  obtain ⟨-, -, -, -, -, hbehind, -⟩ := hopen
  have hfp : (Machine.groupOpen u).fp.toNat < (Machine.groupOpen u).wp.toNat := hbehind hgk
  have htoken := (h.groupOpen hop hop').nextToken ((congrArg Untouched.lOp hgu).trans hop)
    ((congrArg Untouched.lOp hgu').trans hop') hgk hfp u
  have hlen : (streamEffect u.nextToken (Machine.groupOpen u')).lLen =
      (streamEffect u.nextToken (Machine.groupOpen u)).lLen :=
    ((hsnap.of_untouched hgu hgu').of_untouched (streamEffect_untouched ..) (streamEffect_untouched ..)).lLen
  rw [tokenStep_eq hop hcur.le, tokenStep_eq hop' (by rw [h.cur, hsnap.lLen]; exact hcur.le),
    hsnap.nextToken h.cur hcur]
  exact (htoken.withSearch _ _).cutTrack (by rw [withSearch_lLen, withSearch_lLen, hlen])

/-! ### The end of the loop -/

theorem PacksAlike.flagPad (h : PacksAlike u u') : PacksAlike (flagPad u) (flagPad u') := by
  refine ⟨by simp only [flagPad_cur, h.cur], by simp only [flagPad_wp, h.wp], by simp only [flagPad_gk, h.gk],
    by simp only [flagPad_pakTmp, h.pakTmp], by simp only [flagPad_rawTmp, h.rawTmp], ?_, fun a ha => ?_⟩
  · rw [flagPad_gk, flagPad_fp, flagPad_fp]
    exact h.fp
  · rw [flagPad_wp] at ha
    rw [flagPad_workByte, flagPad_workByte, h.gk, h.work a ha]
    by_cases hgk : u.gk.toNat < 8
    · rw [h.fp hgk]
    · rw [if_neg (by omega), if_neg (by omega)]

theorem PacksAlike.selectTrailer (h : PacksAlike u u') (hsnap : SameSnapshot u u') :
    selectTrailer u' = selectTrailer u := by
  unfold Machine.selectTrailer State.cutSize
  rw [hsnap.params, hsnap.lLen, h.pakTmp, h.rawTmp]

theorem PacksAlike.selectedFrame (h : PacksAlike u u') (hsnap : SameSnapshot u u') (henc : EncodeOk u) :
    EndsAlike (streamEffect (Machine.selectTrailer u) u) (streamEffect (Machine.selectTrailer u) u') := by
  have hop : u.lOp = 0 := henc.1
  have hop' : u'.lOp = 0 := hsnap.lOp.trans hop
  have hcut := henc.cut_le
  obtain ⟨-, -, -, -, -, -, hwp, -⟩ := henc
  obtain hselect | ⟨enc, hdr, inc, hselect⟩ := selectTrailer_cases u
  · rw [hselect, streamEffect, streamEffect, trailerStoredEffect, trailerStoredEffect, encoding_eq_true hop,
      encoding_eq_true hop', if_pos rfl, if_pos rfl, emitStored, emitStored, completeEncode, completeEncode, hsnap.lLen,
      hsnap.srcBytes (by omega), h.pakTmp, h.rawTmp, h.wp]
    exact complete_endsAlike ..
  · have hwork : u'.workBytes u.pakTmp.toNat = u.workBytes u.pakTmp.toNat :=
      List.map_congr_left fun a ha => h.work a (by have := List.mem_range.1 ha; omega)
    rw [hselect, streamEffect, streamEffect, trailerCompressedEffect, trailerCompressedEffect, encoding_eq_true hop,
      encoding_eq_true hop', if_pos rfl, if_pos rfl, emitCompressed, emitCompressed, completeEncode, completeEncode,
      h.pakTmp, h.rawTmp, h.wp, hsnap.srcBytes (by omega), hwork]
    exact complete_endsAlike ..

theorem PacksAlike.encodeFinish (h : PacksAlike u u') (hsnap : SameSnapshot u u') (henc : EncodeOk u) :
    EndsAlike (encodeFinish u) (encodeFinish u') := by
  have hsnapPad := hsnap.of_untouched (flagPad_untouched u) (flagPad_untouched u')
  have hencPad : EncodeOk (Machine.flagPad u) := by
    simp only [EncodeOk, flagPad_lOp, flagPad_lLen, flagPad_cur, flagPad_gk, flagPad_wp, flagPad_fp, flagPad_pakTmp,
      flagPad_rawTmp]
    exact henc
  rw [Machine.encodeFinish, Machine.encodeFinish, h.flagPad.selectTrailer hsnapPad]
  exact h.flagPad.selectedFrame hsnapPad hencPad

end

end Sys2Proof.Machine

namespace Sys2Proof.Machine

/-! ## DECODE -/

/-- Two readers stand at the same place past the header, agree on the registers and on the output so far, and read a
stream inside the frame. -/
structure ReadsAlike (u u' : State) : Prop where
  run : u.phase = .run
  run' : u'.phase = .run
  stage : u.stage = .decodeLoop ∨ u.stage = .decodeEnd
  midstep : u'.midstep = u.midstep
  fits : u.decLen.toNat + u.streamLen.toNat ≤ u.lLen.toNat
  ip : u'.ip = u.ip
  oc : u'.oc = u.oc
  dk : u'.dk = u.dk
  fl : u.dk ≠ 8 → u'.fl = u.fl
  work : ∀ a < u.oc.toNat, u'.workByte a = u.workByte a

/-- The next output byte is written (46_frame_reader R269, R270). -/
def putOutput (b : Byte) (s : State) : State :=
  { s with
    work := Memory.set s.work s.oc.toNat b
    oc := BitVec.ofNat 24 (s.oc.toNat + 1) }

theorem litStep_eq_putOutput (b : Byte) (s : State) : litStep b s = putOutput b (consumeToken 1 s) := rfl

theorem copyByte_eq_putOutput (dist : Nat) (s : State) :
    copyByte dist s = putOutput (s.workByte (s.oc.toNat - dist)) s := rfl

section
variable {s s' u u' : State}

/-! ### The trailer and the header -/

theorem SameSnapshot.fetchTrailer (h : SameSnapshot s s') : fetchTrailer s' = fetchTrailer s := by
  have hbytes : s'.srcBytes (s.lLen.toNat - 8) (min s.lLen.toNat 8) =
      s.srcBytes (s.lLen.toNat - 8) (min s.lLen.toNat 8) := h.srcBytes (by omega)
  unfold Machine.fetchTrailer
  rw [h.lLen, h.params]
  dsimp only
  rw [hbytes]

theorem SameSnapshot.storedRead (h : SameSnapshot s s') : EndsAlike (storedRead s) (storedRead s') := by
  have hexp := le_align4 s.lExp.toNat
  unfold Machine.storedRead
  rw [h.lLen, h.lExpv, h.lExp]
  dsimp only
  split
  · exact raise_endsAlike ..
  · split
    · split
      · exact raise_endsAlike ..
      · rw [h.srcBytes (by omega)]
        exact complete_endsAlike ..
    · split
      · exact raise_endsAlike ..
      · rw [h.srcBytes (by omega)]
        exact complete_endsAlike ..

theorem openStream_readsAlike (hrun : s.phase = .run) (hrun' : s'.phase = .run)
    {dec stream : Nat} (hfits : dec + stream ≤ s.lLen.toNat) (raw : Nat) :
    ReadsAlike (openStream dec stream raw s) (openStream dec stream raw s') := by
  refine ⟨hrun, hrun', .inl rfl, rfl, ?_, rfl, rfl, rfl, fun hdk => absurd rfl hdk, fun a ha => absurd ha (Nat.not_lt_zero a)⟩
  have hdec : (BitVec.ofNat 24 dec).toNat ≤ dec := (BitVec.toNat_ofNat ..).trans_le (Nat.mod_le ..)
  have hstream : (BitVec.ofNat 24 stream).toNat ≤ stream := (BitVec.toNat_ofNat ..).trans_le (Nat.mod_le ..)
  exact (Nat.add_le_add hdec hstream).trans hfits

theorem SameSnapshot.readHeader (h : SameSnapshot s s') (hrun : s.phase = .run) (hrun' : s'.phase = .run)
    (enc : BitVec 24) (hdr : Byte) (inc : Word) :
    ReadsAlike (readHeader enc hdr inc s) (readHeader enc hdr inc s') ∨
      EndsAlike (readHeader enc hdr inc s) (readHeader enc hdr inc s') := by
  rw [Machine.readHeader, Machine.readHeader, h.lLen, h.params]
  cases herror : headerError s.lLen.toNat enc.toNat hdr.toNat inc.toNat s.params.dstCap with
  | some e => exact .inr (raise_endsAlike ..)
  | none =>
    obtain ⟨-, hhdr, henc, -⟩ := headerError_none herror
    exact .inl (openStream_readsAlike hrun hrun' (by omega) _)

/-! ### The token loop -/

theorem ReadsAlike.progress (h : ReadsAlike u u') : u'.progress = u.progress := by
  rw [State.progress, State.progress, h.midstep]

theorem ReadsAlike.decLen (h : ReadsAlike u u') : u'.decLen = u.decLen := congrArg Progress.decLen h.progress

theorem ReadsAlike.streamLen (h : ReadsAlike u u') : u'.streamLen = u.streamLen := congrArg Progress.streamLen h.progress

theorem ReadsAlike.streamByte (h : ReadsAlike u u') (hsnap : SameSnapshot u u') (i : Nat) :
    u'.streamByte i = u.streamByte i := by
  have hfits := h.fits
  rw [State.streamByte, State.streamByte, h.streamLen, h.decLen]
  split
  · rw [hsnap.bytes _ (by omega)]
  · rfl

theorem ReadsAlike.fetchToken (h : ReadsAlike u u') (hsnap : SameSnapshot u u') : fetchToken u' = fetchToken u := by
  unfold Machine.fetchToken
  rw [h.oc, want_congr h.midstep, h.dk, h.ip, h.streamByte hsnap, h.streamByte hsnap]
  by_cases hdk : u.dk = 8
  · rw [if_pos hdk, if_pos hdk]
  · rw [h.fl hdk]

theorem ReadsAlike.flagStep (h : ReadsAlike u u') (f : Byte) : ReadsAlike (flagStep f u) (flagStep f u') :=
  ⟨h.run, h.run', h.stage, h.midstep, h.fits, congrArg (fun ip : BitVec 25 => BitVec.ofNat 25 (ip.toNat + 1)) h.ip,
    h.oc, rfl, fun _ => rfl, h.work⟩

theorem ReadsAlike.consumeToken (h : ReadsAlike u u') (hdk : u.dk ≠ 8) (n : Nat) :
    ReadsAlike (consumeToken n u) (consumeToken n u') :=
  ⟨h.run, h.run', h.stage, h.midstep, h.fits, congrArg (fun ip : BitVec 25 => BitVec.ofNat 25 (ip.toNat + n)) h.ip,
    h.oc, congrArg (fun dk : BitVec 4 => BitVec.ofNat 4 (dk.toNat + 1)) h.dk, fun _ => h.fl hdk, h.work⟩

theorem ReadsAlike.clampWarn (h : ReadsAlike u u') : ReadsAlike (clampWarn u) (clampWarn u') :=
  ⟨h.run, h.run', h.stage, by simp only [Machine.clampWarn, h.progress], h.fits, h.ip, h.oc, h.dk, h.fl, h.work⟩

theorem ReadsAlike.truncate (h : ReadsAlike u u') : ReadsAlike (truncate u) (truncate u') := by
  refine ⟨h.run, h.run', .inr rfl,
    by simp only [Machine.truncate, h.progress], h.fits, h.ip, h.oc,
    congrArg (fun dk : BitVec 4 => if dk = 8 then dk else BitVec.ofNat 4 (dk.toNat + 1)) h.dk, fun hdk => h.fl ?_,
    h.work⟩
  exact fun hfull => hdk ((if_pos hfull).trans hfull)

theorem ReadsAlike.putOutput (h : ReadsAlike u u') (b : Byte) : ReadsAlike (putOutput b u) (putOutput b u') := by
  refine ⟨h.run, h.run', h.stage, h.midstep, h.fits, h.ip,
    congrArg (fun oc : BitVec 24 => BitVec.ofNat 24 (oc.toNat + 1)) h.oc, h.dk, h.fl, fun a ha => ?_⟩
  have hlt : a < u.oc.toNat + 1 := Nat.lt_of_lt_of_le ha ((BitVec.toNat_ofNat ..).trans_le (Nat.mod_le ..))
  rw [workByte_set (s := u') (t := Machine.putOutput b u') rfl rfl, workByte_set (s := u) (t := Machine.putOutput b u) rfl rfl,
    h.oc]
  split
  · rfl
  · exact h.work a (by omega)

theorem ReadsAlike.copyMatch {dist : Nat} (hpos : 0 < dist) (k : Nat) (h : ReadsAlike u u')
    (hdist : dist ≤ u.oc.toNat) (hroom : u.oc.toNat + k < 2 ^ 24) :
    ReadsAlike (copyMatch dist k u) (copyMatch dist k u') := by
  induction k generalizing u u' with
  | zero => exact h
  | succ k ih =>
    have hcopy : ReadsAlike (copyByte dist u) (copyByte dist u') := by
      rw [copyByte_eq_putOutput, copyByte_eq_putOutput, h.oc, h.work _ (by omega)]
      exact h.putOutput _
    have hoc : (copyByte dist u).oc.toNat = u.oc.toNat + 1 :=
      (BitVec.toNat_ofNat ..).trans (Nat.mod_eq_of_lt (by omega))
    exact ih hcopy (by omega) (by omega)

theorem ReadsAlike.matchStep (h : ReadsAlike u u') (hdk : u.dk ≠ 8) {dist : Nat} (hpos : 0 < dist) (len : Nat) :
    ReadsAlike (matchStep len dist u) (matchStep len dist u') ∨
      EndsAlike (matchStep len dist u) (matchStep len dist u') := by
  have ht := h.consumeToken hdk 2
  have hwant := want_lt (Machine.consumeToken 2 u)
  unfold Machine.matchStep
  dsimp only
  rw [ht.oc, want_congr ht.midstep]
  split
  · exact .inr (raise_endsAlike ..)
  · next hdist =>
    split
    · exact .inl (ht.clampWarn.copyMatch hpos _ (Nat.not_lt.1 hdist) (by
        change (Machine.consumeToken 2 u).oc.toNat + _ < _
        omega))
    · exact .inl (ht.copyMatch hpos _ (Nat.not_lt.1 hdist) (by omega))

/-- A match record has a distance of at least 3 (30_encoding R103). -/
theorem decodeToken_dist_pos {f : Bool} {bs : List Byte} {len dist : Nat}
    (h : (decodeToken f bs).toOption = some (.matchToken len dist)) : 0 < dist := by
  unfold decodeToken at h
  split at h
  · cases h
  · cases h
    exact Nat.succ_pos _
  · cases h

theorem fetchToken_dist_pos {len dist : Nat} (h : fetchToken s = some (.matchToken len dist)) : 0 < dist := by
  unfold fetchToken at h
  split at h
  · split at h
    · obtain ⟨f, -, hflag⟩ := Option.map_eq_some_iff.1 h
      cases hflag
    · exact decodeToken_dist_pos h
  · cases h

/-- A token of the stream has the same effect on both readers. -/
theorem ReadsAlike.streamEffect {i : Instr} (h : ReadsAlike u u') (hop : u.lOp ≠ 0) (hop' : u'.lOp ≠ 0)
    (hfetch : Machine.fetchToken u = some i) :
    ReadsAlike (streamEffect i u) (streamEffect i u') ∨ EndsAlike (streamEffect i u) (streamEffect i u') := by
  have henc : u.encoding = false := encoding_eq_false hop
  have henc' : u'.encoding = false := encoding_eq_false hop'
  obtain ⟨-, ⟨-, f, rfl⟩ | ⟨b, rfl⟩ | ⟨len, dist, -, rfl⟩⟩ := fetchToken_cases hfetch
  · rw [Machine.streamEffect, Machine.streamEffect, flagEffect, flagEffect, henc, henc']
    exact .inl (h.flagStep f)
  · have hdk := fetchToken_dk hfetch nofun
    rw [Machine.streamEffect, Machine.streamEffect, litEffect, litEffect, henc, henc']
    exact .inl ((h.consumeToken hdk 1).putOutput b)
  · have hdk := fetchToken_dk hfetch nofun
    rw [Machine.streamEffect, Machine.streamEffect, matchEffect, matchEffect, henc, henc']
    exact h.matchStep hdk (fetchToken_dist_pos hfetch) len

/-! ### The end of the loop -/

theorem ReadsAlike.decodeFinish (h : ReadsAlike u u') (hsnap : SameSnapshot u u') :
    EndsAlike (decodeFinish u) (decodeFinish u') := by
  have hfits := h.fits
  have hwork : u'.workBytes u.oc.toNat = u.workBytes u.oc.toNat :=
    List.map_congr_left fun a ha => h.work a (List.mem_range.1 ha)
  have hout : decodeOutput u' = decodeOutput u := by
    rw [decodeOutput, decodeOutput, h.decLen, hsnap.srcBytes (by omega), want_congr h.midstep, h.oc, hwork]
  rw [Machine.decodeFinish, Machine.decodeFinish, hout, h.decLen, h.streamLen, State.warnTrunc, State.warnClamp,
    State.warnTrunc, State.warnClamp, h.progress]
  exact complete_endsAlike ..

end

end Sys2Proof.Machine

namespace Sys2Proof.Machine

/-! ## The two runs -/

/-- Two running commands with one snapshot stand at the same point: before the first check, in ENCODE's loop, or past
DECODE's header. -/
inductive RunsAlike (u u' : State) : Prop
  | start (h : JustStarted u) (h' : JustStarted u')
  | encode (run : u.phase = .run) (run' : u'.phase = .run) (stage : u.stage = .encodeLoop)
      (midstep : u'.midstep = u.midstep) (legal : EncodeOk u) (packs : PacksAlike u u')
  | decode (hop : u.lOp ≠ 0) (reads : ReadsAlike u u')

section
variable {s s' u u' : State}

/-! ### One operation -/

theorem engineOp_dispatch_error {e : ErrorKind} (hst : s.stage = .dispatch) (hop : s.lOp = 1)
    (h : fetchTrailer s = .error e) : engineOp s = raise e s := by
  simp [engineOp, fetchInstr, internalOp, hst, hop, h, Except.toOption]

theorem encodeBegin_alike (hrun : s.phase = .run) (hrun' : s'.phase = .run) (hop : s.lOp = 0) (h : SameSnapshot s s') :
    RunsAlike (encodeBegin s) (encodeBegin s') ∨ EndsAlike (encodeBegin s) (encodeBegin s') := by
  obtain hmax | hlarge := le_or_gt s.lLen.toNat Config.rawMax
  · have hloop := (encodeBegin_packs hrun hop hmax).loop
    have hloop' := (encodeBegin_packs hrun' (h.lOp.trans hop) (h.lLen ▸ hmax)).loop
    refine .inl (.encode hloop.run hloop'.run hloop.stage ?_ hloop.legal ?_)
    · rw [encodeBegin_of_le hmax, encodeBegin_of_le (h.lLen ▸ hmax)]
    · rw [encodeBegin_of_le hmax, encodeBegin_of_le (h.lLen ▸ hmax)]
      exact ⟨rfl, rfl, rfl, rfl, congrArg (fun n : Word => BitVec.ofNat 24 n.toNat) h.lLen,
        fun hgk => absurd hgk (Nat.lt_irrefl 8), fun a ha => absurd ha (Nat.not_lt_zero a)⟩
  · rw [encodeBegin_tooLarge hlarge, encodeBegin_tooLarge (h.lLen ▸ hlarge)]
    exact .inr (raise_endsAlike ..)

theorem engineOp_decodeStart_alike (hst : JustStarted s) (hst' : JustStarted s') (hop : s.lOp = 1)
    (h : SameSnapshot s s') : RunsAlike (engineOp s) (engineOp s') ∨ EndsAlike (engineOp s) (engineOp s') := by
  have hop' : s'.lOp = 1 := h.lOp.trans hop
  have hne : s.lOp ≠ 0 := by
    rw [hop]
    decide
  have henc : s.encoding = false := encoding_eq_false hne
  have henc' : s'.encoding = false := encoding_eq_false (h.lOp.symm ▸ hne)
  cases htrailer : fetchTrailer s with
  | error e =>
    rw [engineOp_dispatch_error (stage_none hst.2) hop htrailer,
      engineOp_dispatch_error (stage_none hst'.2) hop' (h.fetchTrailer.trans htrailer)]
    exact .inr (raise_endsAlike ..)
  | ok i =>
    rw [engineOp_dispatch_decode (stage_none hst.2) hop htrailer,
      engineOp_dispatch_decode (stage_none hst'.2) hop' (h.fetchTrailer.trans htrailer)]
    obtain rfl | ⟨enc, hdr, inc, rfl⟩ := fetchTrailer_shape htrailer
    · rw [streamEffect, streamEffect, trailerStoredEffect, trailerStoredEffect, henc, henc']
      exact .inr h.storedRead
    · have hu : (readHeader enc hdr inc s).lOp = s.lOp := congrArg Untouched.lOp (readHeader_untouched s enc hdr inc)
      rw [streamEffect, streamEffect, trailerCompressedEffect, trailerCompressedEffect, henc, henc']
      exact (h.readHeader hst.1 hst'.1 enc hdr inc).imp_left (.decode (hu.symm ▸ hne))

theorem engineOp_start_alike (hst : JustStarted s) (hst' : JustStarted s') (h : SameSnapshot s s') :
    RunsAlike (engineOp s) (engineOp s') ∨ EndsAlike (engineOp s) (engineOp s') := by
  by_cases hencode : s.lOp = 0
  · rw [engineOp_dispatch_encode (stage_none hst.2) hencode,
      engineOp_dispatch_encode (stage_none hst'.2) (h.lOp.trans hencode)]
    exact encodeBegin_alike hst.1 hst'.1 hencode h
  · by_cases hdecode : s.lOp = 1
    · exact engineOp_decodeStart_alike hst hst' hdecode h
    · rw [engineOp_badCommand (stage_none hst.2) hencode hdecode,
        engineOp_badCommand (stage_none hst'.2) (h.lOp.symm ▸ hencode) (h.lOp.symm ▸ hdecode)]
      exact .inr (raise_endsAlike ..)

theorem engineOp_encode_alike (hrun : u.phase = .run) (hrun' : u'.phase = .run) (hst : u.stage = .encodeLoop)
    (hmid : u'.midstep = u.midstep) (henc : EncodeOk u) (hpacks : PacksAlike u u') (h : SameSnapshot u u') :
    RunsAlike (engineOp u) (engineOp u') ∨ EndsAlike (engineOp u) (engineOp u') := by
  have hop : u.lOp = 0 := henc.1
  have hop' : u'.lOp = 0 := h.lOp.trans hop
  rw [engineOp_encodeLoop hst, engineOp_encodeLoop ((stage_congr hmid).trans hst), hpacks.cur, h.lLen]
  split
  · next hcur =>
    refine .inl (.encode ((congrArg Reported.phase (tokenStep_reported hop)).trans hrun)
      ((congrArg Reported.phase (tokenStep_reported hop')).trans hrun')
      ((stage_congr (tokenStep_midstep u hop)).trans hst) ?_ (tokenStep_encodeOk henc hcur)
      (hpacks.tokenStep h henc hcur))
    rw [tokenStep_midstep u hop, tokenStep_midstep u' hop', hmid]
  · exact .inr (hpacks.encodeFinish h henc)

theorem ReadsAlike.engineOp (hreads : ReadsAlike u u') (hop : u.lOp ≠ 0) (h : SameSnapshot u u') :
    ReadsAlike (engineOp u) (engineOp u') ∨ EndsAlike (engineOp u) (engineOp u') := by
  have hst' := stage_congr hreads.midstep
  obtain hst | hst := hreads.stage
  · cases hfetch : Machine.fetchToken u with
    | some i =>
      rw [engineOp_of_fetchToken hst hfetch,
        engineOp_of_fetchToken (hst'.trans hst) ((hreads.fetchToken h).trans hfetch)]
      exact hreads.streamEffect hop (h.lOp.symm ▸ hop) hfetch
    | none =>
      rw [engineOp_decodeLoop_none hst hfetch,
        engineOp_decodeLoop_none (hst'.trans hst) ((hreads.fetchToken h).trans hfetch), hreads.oc,
        want_congr hreads.midstep]
      split
      · exact .inl hreads.truncate
      · exact .inr (hreads.decodeFinish h)
  · rw [engineOp_decodeEnd hst, engineOp_decodeEnd (hst'.trans hst)]
    exact .inr (hreads.decodeFinish h)

theorem engineOp_alike (hruns : RunsAlike u u') (h : SameSnapshot u u') :
    RunsAlike (engineOp u) (engineOp u') ∨ EndsAlike (engineOp u) (engineOp u') := by
  cases hruns with
  | start hst hst' => exact engineOp_start_alike hst hst' h
  | encode hrun hrun' hst hmid henc hpacks => exact engineOp_encode_alike hrun hrun' hst hmid henc hpacks h
  | decode hop hreads =>
    have hlOp : (engineOp u).lOp = u.lOp := congrArg Untouched.lOp (engineOp_untouched u)
    exact (hreads.engineOp hop h).imp_left (.decode (hlOp.symm ▸ hop))

/-! ### All operations -/

theorem RunsAlike.run (h : RunsAlike u u') : u.phase = .run ∧ u'.phase = .run := by
  cases h with
  | start h h' => exact ⟨h.1, h'.1⟩
  | encode hrun hrun' => exact ⟨hrun, hrun'⟩
  | decode _ hreads => exact ⟨hreads.run, hreads.run'⟩

theorem runOps_alike (k : Nat) (h : SameSnapshot u u') (hruns : RunsAlike u u') :
    RunsAlike (runOps k u) (runOps k u') ∨ EndsAlike (runOps k u) (runOps k u') := by
  induction k generalizing u u' with
  | zero => exact .inl hruns
  | succ k ih =>
    obtain ⟨hrun, hrun'⟩ := hruns.run
    rw [runOps_run hrun, runOps_run hrun']
    obtain hnext | hends := engineOp_alike hruns h
    · exact ih (h.of_untouched (engineOp_untouched u) (engineOp_untouched u')) hnext
    · have hidle' : (engineOp u').phase = .idle := (congrArg Reported.phase hends.reported).trans hends.idle
      rw [runOps_idle hends.idle, runOps_idle hidle']
      exact .inr hends

theorem runCommand_endsAlike (hst : JustStarted s) (hst' : JustStarted s') (h : SameSnapshot s s') :
    EndsAlike (runCommand s) (runCommand s') := by
  have hidle := (runCommand_completed s hst.1 (loopFits_of_midstep_none hst.2)).phase
  have hops : opsLeft s' = opsLeft s := by
    rw [opsLeft_dispatch hst.1 (stage_none hst.2), opsLeft_dispatch hst'.1 (stage_none hst'.2)]
  refine (runOps_alike (opsLeft s) h (.start hst hst')).elim (fun hruns => ?_) fun hends => ?_
  · cases hruns.run.1.symm.trans hidle
  · rw [runCommand, runCommand, hops]
    exact hends

end

/-- Settles O53: the two runs go in step from their common snapshot and end alike. -/
theorem resultDependsOnSnapshotOnly : Obligations.ResultDependsOnSnapshotOnly := by
  intro s s' op m e hst hst' hlen hexp hparams hbytes
  have hends : EndsAlike (runCommand (withCommand op m e s)) (runCommand (withCommand op m e s')) :=
    runCommand_endsAlike (s := withCommand op m e s) (s' := withCommand op m e s') hst hst'
      ⟨rfl, rfl, rfl, hlen, hexp, hparams, hbytes⟩
  have hr := hends.reported
  exact ⟨_, _, exec_commandOf_justStarted hst op m e, exec_commandOf_justStarted hst' op m e,
    congrArg Reported.status hr, congrArg Reported.dstLen hr, congrArg Reported.cutPak hr, congrArg Reported.cutRaw hr,
    congrArg Reported.pakLen hr, fun _ ha => hends.dstByte ha⟩

end Sys2Proof.Machine

/-! # The frame reader of DECODE: O7, O8, O37, O38 and O40 to O44 (46_frame_reader R260 to R273) -/

namespace Sys2Proof.Machine

/-! ## Tokens, flag bytes and trailers in DECODE -/

section
variable {s : State} (hop : s.lOp = 1)
include hop

theorem encoding_eq_false_of_decode : s.encoding = false := encoding_eq_false (by rw [hop]; decide)

theorem exec_lit_of_decode (b : Byte) : exec (.lit b) s = .next (litStep b s) := by
  rw [exec_lit, litEffect, encoding_eq_false_of_decode hop, if_neg Bool.false_ne_true]

theorem exec_matchToken_of_decode (len dist : Nat) :
    exec (.matchToken len dist) s = .next (matchStep len dist s) := by
  rw [exec_matchToken, matchEffect, encoding_eq_false_of_decode hop, if_neg Bool.false_ne_true]

theorem exec_flag_of_decode (f : Byte) : exec (.flag f) s = .next (flagStep f s) := by
  rw [exec_flag, flagEffect, encoding_eq_false_of_decode hop, if_neg Bool.false_ne_true]

theorem exec_trailerStored_of_decode : exec .trailerStored s = .next (storedRead s) := by
  rw [exec_trailerStored, trailerStoredEffect, encoding_eq_false_of_decode hop, if_neg Bool.false_ne_true]

theorem exec_trailerCompressed_of_decode (enc : BitVec 24) (hdr : Byte) (inc : Word) :
    exec (.trailerCompressed enc hdr inc) s = .next (readHeader enc hdr inc s) := by
  rw [exec_trailerCompressed, trailerCompressedEffect, encoding_eq_false_of_decode hop, if_neg Bool.false_ne_true]

end

/-- A register holds every number below its width's bound. -/
theorem toNat_ofNat_of_lt {w n : Nat} (h : n < 2 ^ w) : (BitVec.ofNat w n).toNat = n := by
  rw [BitVec.toNat_ofNat, Nat.mod_eq_of_lt h]

/-! ## What the reader leaves unchanged -/

/-- What no operation of TOKEN_LOOP writes. -/
abbrev SameBesideReader (s t : State) : Prop :=
  SameHostRegs s t ∧ SameSrc s t ∧ SameDst s t ∧ SameLatches s t ∧ SameEncoder s t ∧ t.phase = s.phase ∧ SameOutside s t

section
variable (s : State)

/-- The reader's operations write WORK, ip, oc, dk, fl and the working names alone. -/
theorem sameBesideReader (work : Memory) (ip : BitVec 25) (oc : BitVec 24) (dk : BitVec 4) (fl : Byte)
    (midstep : Option Progress) :
    SameBesideReader s { s with work := work, ip := ip, oc := oc, dk := dk, fl := fl, midstep := midstep } :=
  ⟨⟨rfl, rfl, rfl, rfl, rfl, rfl, rfl, rfl⟩, fun _ => rfl, fun _ => rfl, ⟨rfl, rfl, rfl, rfl, rfl⟩,
    ⟨rfl, rfl, rfl, rfl, rfl, rfl, rfl, rfl, rfl, rfl⟩, rfl, ⟨rfl, rfl, rfl, rfl, rfl, rfl⟩⟩

theorem litStep_sameBesideReader (b : Byte) : SameBesideReader s (litStep b s) := sameBesideReader s ..

theorem flagStep_sameBesideReader (f : Byte) : SameBesideReader s (flagStep f s) := sameBesideReader s ..

theorem openStream_sameBesideReader (dec stream raw : Nat) : SameBesideReader s (openStream dec stream raw s) :=
  sameBesideReader s ..

/-- A successful completion writes STATUS, the result registers and DST alone, and ends the run (45_commands R240). -/
theorem complete_frame (out : List Byte) (frame trunc clamp : Bool) (pak raw stream : Nat) :
    let t := complete out frame trunc clamp pak raw stream s
    t.phase = .idle ∧ t.ctrl = s.ctrl ∧ t.srcLen = s.srcLen ∧ t.expLen = s.expLen ∧ SameSrc s t ∧ SameWork s t ∧
    SameLatches s t ∧ SameEncoder s t ∧ SameDecoder s t ∧ SameOutside s t :=
  ⟨rfl, rfl, rfl, rfl, fun _ => rfl, fun _ => rfl, ⟨rfl, rfl, rfl, rfl, rfl⟩,
    ⟨rfl, rfl, rfl, rfl, rfl, rfl, rfl, rfl, rfl, rfl⟩, ⟨rfl, rfl, rfl, rfl⟩, ⟨rfl, rfl, rfl, rfl, rfl, rfl⟩⟩

theorem complete_dstLen_toNat {out : List Byte} (hout : out.length < 2 ^ 32) (frame trunc clamp : Bool)
    (pak raw stream : Nat) : (complete out frame trunc clamp pak raw stream s).dstLen.toNat = out.length :=
  toNat_ofNat_of_lt hout

theorem litStep_workByte (b : Byte) (a : Nat) :
    (litStep b s).workByte a = if a = s.oc.toNat then b else s.workByte a :=
  workByte_set (s := s) (t := litStep b s) rfl rfl a

end

/-- Settles O40: the byte is one write at the output index. -/
theorem decodeReadsLiteral : Obligations.DecodeReadsLiteral := by
  intro s b hop
  obtain ⟨hregs, hsrc, hdst, hlatches, hencoder, hphase, houtside⟩ := litStep_sameBesideReader s b
  exact ⟨litStep b s, exec_lit_of_decode hop b, litStep_workByte s b, ofNat_toNat_add s.ip 1, ofNat_toNat_add s.oc 1,
    ofNat_toNat_add s.dk 1, rfl, hregs, hsrc, hdst, hlatches, hencoder, ⟨hphase, rfl⟩, houtside⟩

/-- Settles O41: the byte becomes `fl`, with none of its bits used up. -/
theorem decodeReadsFlagByte : Obligations.DecodeReadsFlagByte := by
  intro s f hop
  obtain ⟨hregs, hsrc, hdst, hlatches, hencoder, hphase, houtside⟩ := flagStep_sameBesideReader s f
  exact ⟨flagStep f s, exec_flag_of_decode hop f, rfl, ofNat_toNat_add s.ip 1, rfl, rfl, fun _ => rfl, hregs, hsrc,
    hdst, hlatches, hencoder, ⟨hphase, rfl⟩, houtside⟩

/-! ## MATCH_STEP (R270) -/

section
variable (s : State)

/-- A match copy writes WORK and oc alone. -/
theorem copyMatch_eq_withOutput (dist k : Nat) : copyMatch dist k s =
    { s with work := (copyMatch dist k s).work, oc := (copyMatch dist k s).oc } := by
  induction k generalizing s with
  | zero => rfl
  | succ k ih => exact ih (copyByte dist s)

theorem copyMatch_sameBesideReader (dist k : Nat) : SameBesideReader s (copyMatch dist k s) := by
  rw [copyMatch_eq_withOutput]
  exact sameBesideReader s ..

theorem copyMatch_progress (dist k : Nat) : (copyMatch dist k s).progress = s.progress := by
  rw [State.progress, State.progress, copyMatch_midstep]

theorem copyByte_oc_toNat (dist : Nat) (hoc : s.oc.toNat + 1 < 2 ^ 24) :
    (copyByte dist s).oc.toNat = s.oc.toNat + 1 :=
  toNat_ofNat_of_lt hoc

theorem copyByte_workByte (dist a : Nat) : (copyByte dist s).workByte a =
    if a = s.oc.toNat then s.workByte (s.oc.toNat - dist) else s.workByte a :=
  workByte_set (copyByte_work s dist) rfl a

/-- A match copy of `k` bytes writes WORK[oc .. oc + k) alone. -/
theorem copyMatch_workByte_outside (dist : Nat) {k a : Nat} (hoc : s.oc.toNat + k < 2 ^ 24)
    (ha : a < s.oc.toNat ∨ s.oc.toNat + k ≤ a) : (copyMatch dist k s).workByte a = s.workByte a := by
  induction k generalizing s with
  | zero => rfl
  | succ k ih =>
    have hnext := copyByte_oc_toNat s dist (by omega)
    rw [copyMatch, ih (copyByte dist s) (by omega) (by omega), copyByte_workByte, if_neg (by omega)]

/-- Each byte copied is the one `dist` bytes behind it once the copy is over, so a copy that overlaps its source repeats
it. -/
theorem copyMatch_workByte_repeats {dist k j : Nat} (hoc : s.oc.toNat + k < 2 ^ 24) (hpos : 0 < dist)
    (hdist : dist ≤ s.oc.toNat) (hj : j < k) :
    (copyMatch dist k s).workByte (s.oc.toNat + j) = (copyMatch dist k s).workByte (s.oc.toNat + j - dist) := by
  induction k generalizing s j with
  | zero => exact absurd hj (Nat.not_lt_zero j)
  | succ k ih =>
    have hnext := copyByte_oc_toNat s dist (by omega)
    rw [copyMatch]
    cases j with
    | zero =>
      have hkept : ∀ a ≤ s.oc.toNat, (copyMatch dist k (copyByte dist s)).workByte a = (copyByte dist s).workByte a :=
        fun a ha => copyMatch_workByte_outside _ dist (by omega) (by omega)
      rw [Nat.add_zero, hkept _ (Nat.le_refl _), hkept _ (Nat.sub_le ..), copyByte_workByte, copyByte_workByte,
        if_pos rfl, if_neg (by omega)]
    | succ j =>
      have hrest := ih (copyByte dist s) (j := j) (by omega) (by omega) (by omega)
      rwa [hnext, show s.oc.toNat + 1 + j = s.oc.toNat + (j + 1) by omega] at hrest

/-- The record of MATCH_STEP is used up, and the working names are `midstep`. -/
def recordUsed (midstep : Option Progress) : State := { consumeToken 2 s with midstep := midstep }

/-- MATCH_STEP within the output copies what is wanted of the match, and warns exactly when that is not all of it. -/
theorem matchStep_eq_copyMatch {dist : Nat} (hdist : dist ≤ s.oc.toNat) (len : Nat) : ∃ midstep,
    matchStep len dist s =
      copyMatch dist (min len (s.want - s.oc.toNat)) (recordUsed s midstep) ∧
    midstep.getD Progress.fresh =
      { s.progress with warnClamp := s.warnClamp || decide (s.want - s.oc.toNat < len) } := by
  have hoc : (consumeToken 2 s).oc = s.oc := rfl
  have hwant : (consumeToken 2 s).want = s.want := rfl
  rw [matchStep]
  dsimp only
  rw [hoc, hwant, if_neg (by omega)]
  split
  · next hcut =>
    refine ⟨some { s.progress with warnClamp := true }, ?_, ?_⟩
    · rw [Nat.min_eq_right hcut.le]
      rfl
    · rw [decide_eq_true hcut, Bool.or_true]
      rfl
  · next hwhole =>
    refine ⟨s.midstep, ?_, ?_⟩
    · rw [Nat.min_eq_left (Nat.le_of_not_lt hwhole)]
      rfl
    · rw [decide_eq_false hwhole, Bool.or_false]
      rfl

theorem matchStep_badDistance {dist : Nat} (hdist : s.oc.toNat < dist) (len : Nat) :
    matchStep len dist s = raise .badDistance (consumeToken 2 s) :=
  if_pos hdist

end

/-- Settles O42: the copy writes WORK[oc .. oc + k), each byte from `dist` behind it. -/
theorem decodeCopiesMatch : Obligations.DecodeCopiesMatch := by
  intro s len dist hop hwf hoc
  have hwant := want_lt s
  refine ⟨matchStep len dist s, exec_matchToken_of_decode hop len dist, fun hfar => ?_, fun hdist => ?_⟩
  · rw [matchStep_badDistance s hfar]
    exact raise_raisedAs .badDistance (consumeToken 2 s)
  · have hpos : 0 < dist := by
      simp only [Instr.wf, Bool.and_eq_true, decide_eq_true_eq] at hwf
      obtain ⟨⟨-, hdistMin⟩, -⟩ := hwf
      exact Nat.lt_of_lt_of_le (by decide) hdistMin
    obtain ⟨midstep, hcopy, hmid⟩ := matchStep_eq_copyMatch s hdist len
    rw [hcopy]
    generalize hk : min len (s.want - s.oc.toNat) = k
    have hfits : s.oc.toNat + k < 2 ^ 24 := by omega
    have hprogress := (copyMatch_progress (recordUsed s midstep) dist k).trans hmid
    obtain ⟨hregs, hsrc, hdst, hlatches, hencoder, hphase, houtside⟩ :=
      copyMatch_sameBesideReader (recordUsed s midstep) dist k
    exact ⟨copyMatch_oc (recordUsed s midstep) dist k hfits,
      fun j => copyMatch_workByte_repeats (recordUsed s midstep) hfits hpos hdist,
      fun a => copyMatch_workByte_outside (recordUsed s midstep) dist hfits, congrArg Progress.warnClamp hprogress,
      (congrArg Progress.warnTrunc hprogress).trans rfl, (copyMatch_ip ..).trans (ofNat_toNat_add s.ip 2),
      (copyMatch_dk ..).trans (ofNat_toNat_add s.dk 1), copyMatch_fl .., (congrArg Progress.decLen hprogress).trans rfl,
      (congrArg Progress.streamLen hprogress).trans rfl, (congrArg Progress.rawLen hprogress).trans rfl, hregs, hsrc,
      hdst, hlatches, hencoder, hphase, (congrArg Progress.stage hprogress).trans rfl, houtside⟩

/-! ## STORED_READ (R263) -/

/-- R263: no raw length m, the caller's or the frame's, has align4(m) = T - 4 and m ≤ RAW_MAX. -/
abbrev StoredLengthBad (s : State) : Prop :=
  if s.lExpv then Config.rawMax < s.lExp.toNat ∨ align4 s.lExp.toNat ≠ s.lLen.toNat - 4
  else (s.lLen.toNat - 4) % 4 ≠ 0 ∨ align4 Config.rawMax < s.lLen.toNat - 4

/-- R263: the raw length m of a stored frame. -/
abbrev storedLength (s : State) : Nat := if s.lExpv then s.lExp.toNat else s.lLen.toNat - 4

section
variable {s : State}

theorem storedRead_of_bad (hlen : 4 ≤ s.lLen.toNat) (hbad : StoredLengthBad s) :
    storedRead s = raise .corruptHeader s := by
  rw [storedRead, if_neg (Nat.not_lt.2 hlen)]
  unfold StoredLengthBad at hbad
  split at hbad
  · next hexpv => rw [if_pos hexpv, if_pos hbad]
  · next hexpv => rw [if_neg hexpv, if_pos hbad]

theorem storedRead_of_not_bad (hlen : 4 ≤ s.lLen.toNat) (hok : ¬StoredLengthBad s) :
    storedRead s = complete (s.srcBytes 0 (storedLength s)) false false false 0 0 0 s := by
  rw [storedRead, if_neg (Nat.not_lt.2 hlen), storedLength]
  unfold StoredLengthBad at hok
  split at hok
  · next hexpv => rw [if_pos hexpv, if_neg hok, if_pos hexpv]
  · next hexpv => rw [if_neg hexpv, if_neg hok, if_neg hexpv]

/-- A raw length that passes fits DST of any block (00_scope R4). -/
theorem storedLength_le (hok : ¬StoredLengthBad s) : storedLength s ≤ s.params.dstCap := by
  have hcap := dstCap_ge (s := s)
  have hraw : Config.rawMax = 16777215 := rfl
  have halign : align4 Config.rawMax = 16777216 := rfl
  rw [storedLength]
  unfold StoredLengthBad at hok
  split at hok
  · next hexpv => rw [if_pos hexpv]; omega
  · next hexpv => rw [if_neg hexpv]; omega

end

/-- Settles O37: the length test decides between RAISE and a completion whose output is SRC[0..m). -/
theorem decodeReadsStoredFrame : Obligations.DecodeReadsStoredFrame := by
  intro s hop hlen _
  refine ⟨storedRead s, exec_trailerStored_of_decode hop, fun hbad => ?_, fun hok => ?_⟩
  · rw [storedRead_of_bad hlen hbad]
    exact raise_raisedAs .corruptHeader s
  · have hm := storedLength_le hok
    obtain ⟨-, ⟨-, hcap⟩, -⟩ := s.params.legal
    obtain ⟨hphase, hctrl, hsrcLen, hexpLen, hframe⟩ :=
      complete_frame s (s.srcBytes 0 (storedLength s)) false false false 0 0 0
    rw [storedRead_of_not_bad hlen hok]
    refine ⟨rfl, ?_, rfl, rfl, rfl, fun a ha => ?_, hm, hphase, hctrl, hsrcLen, hexpLen, hframe⟩
    · exact (complete_dstLen_toNat s (by rw [srcBytes_length]; omega) ..).trans (srcBytes_length ..)
    · rw [dstByte_complete _ _ _ _ _ _ _ _ a (by rwa [srcBytes_length]), srcBytes_getElem, Nat.zero_add]

/-! ## The header of a compressed frame (R264, R265) -/

section
variable {s : State} {enc : BitVec 24} {hdr : Byte} {inc : Word}

theorem readHeader_raisedAs {e : ErrorKind}
    (h : headerError s.lLen.toNat enc.toNat hdr.toNat inc.toNat s.params.dstCap = some e) :
    RaisedAs e.code s (readHeader enc hdr inc s) := by
  rw [readHeader, h]
  exact raise_raisedAs e s

theorem readHeader_opens
    (h : headerError s.lLen.toNat enc.toNat hdr.toNat inc.toNat s.params.dstCap = none) :
    readHeader enc hdr inc s = openStream (s.lLen.toNat - enc.toNat) (enc.toNat - hdr.toNat)
      ((s.lLen.toNat - enc.toNat + enc.toNat + inc.toNat) % 2 ^ 32) s := by
  rw [readHeader, h]

end

/-- Settles O38: each premise names the first check that fails, or says that none does; DST holds every raw length
within RAW_MAX, so OUT_OF_MEMORY is never raised. -/
theorem decodeReadsCompressedHeader : Obligations.DecodeReadsCompressedHeader := by
  intro s enc hdr inc hop hT _
  have hcap := dstCap_ge (s := s)
  have hrawMax : Config.rawMax = 16777215 := rfl
  have hmin : Config.hdrMin = 8 := rfl
  have hmax : Config.hdrMax = 11 := rfl
  refine ⟨readHeader enc hdr inc s, exec_trailerCompressed_of_decode hop enc hdr inc, fun hbad => ?_,
    fun hlow hhigh => ⟨fun hbad => ?_, fun hhdrEnc hhdrT hencT => ⟨fun hlarge => ?_, fun hfits hshort => ?_,
      fun hfits hle => ?_⟩⟩⟩
  · exact readHeader_raisedAs (e := .corruptHeader) (by rw [headerError, if_neg (by omega), if_pos (by omega)])
  · exact readHeader_raisedAs (e := .badLength)
      (by rw [headerError, if_neg (by omega), if_neg (by omega), if_pos hbad])
  · exact readHeader_raisedAs (e := .decodedTooLarge)
      (by rw [headerError, if_neg (by omega), if_neg (by omega), if_neg (by omega), if_pos (by omega)])
  · exact readHeader_raisedAs (e := .badLength)
      (by rw [headerError, if_neg (by omega), if_neg (by omega), if_neg (by omega), if_neg (by omega), if_pos hshort])
  · have hnone : headerError s.lLen.toNat enc.toNat hdr.toNat inc.toNat s.params.dstCap = none := by
      rw [headerError, if_neg (by omega), if_neg (by omega), if_neg (by omega), if_neg (by omega), if_neg (by omega),
        if_neg (by omega)]
    have henc := enc.isLt
    obtain ⟨hregs, hsrc, hdst, hlatches, hencoder, hphase, houtside⟩ := openStream_sameBesideReader s
      (s.lLen.toNat - enc.toNat) (enc.toNat - hdr.toNat) ((s.lLen.toNat - enc.toNat + enc.toNat + inc.toNat) % 2 ^ 32)
    rw [readHeader_opens hnone]
    refine ⟨?_, ?_, ?_, rfl, rfl, rfl, rfl, rfl, rfl, rfl, hphase, by omega, by omega, hregs, hsrc, hdst, fun _ => rfl,
      hlatches, hencoder, houtside⟩
    · exact toNat_ofNat_of_lt (by omega)
    · exact toNat_ofNat_of_lt (by omega)
    · exact toNat_ofNat_of_lt (by omega)

/-! ## The end of TOKEN_LOOP (R271 to R273) -/

section
variable {s : State}

theorem decodeOutput_length (hoc : s.oc.toNat ≤ s.want) : (decodeOutput s).length = s.decLen.toNat + s.want := by
  rw [decodeOutput, List.length_append, List.length_append, srcBytes_length, List.length_replicate, rev_length,
    workBytes_length]
  omega

/-- A result byte of DECODE, as a byte of the part of the output it stands in. -/
theorem dstByte_decodeFinish {front part rest : List Byte} (hout : front ++ (part ++ rest) = decodeOutput s) {i a : Nat}
    {b : Byte} (hi : front.length + a = i) (hpart : part[a]? = some b) : (decodeFinish s).dstByte i = b :=
  dstByte_completeEncode (s := s) true hout hi hpart

/-- Where the parts of DECODE's output stand (R272). -/
theorem decodeFinish_layout (hdec : s.decLen.toNat ≤ s.rawLen.toNat) (hoc : s.oc.toNat ≤ s.want) :
    let t := decodeFinish s
    t.dstLen.toNat = s.rawLen.toNat ∧
    (∀ a < s.decLen.toNat, t.dstByte a = s.srcByte a) ∧
    (∀ a, s.decLen.toNat ≤ a → a < s.rawLen.toNat - s.oc.toNat → t.dstByte a = 0) ∧
    (∀ j < s.oc.toNat, t.dstByte (s.rawLen.toNat - 1 - j) = s.workByte j) := by
  have hraw := s.rawLen.isLt
  have hwant : s.want = s.rawLen.toNat - s.decLen.toNat := rfl
  have hlen := decodeOutput_length hoc
  have hout : s.srcBytes 0 s.decLen.toNat ++ (List.replicate (s.want - s.oc.toNat) 0 ++ rev (s.workBytes s.oc.toNat)) =
    decodeOutput s := (List.append_assoc ..).symm
  refine ⟨?_, fun a ha => ?_, fun a hlow hhigh => ?_, fun j hj => ?_⟩
  · exact (complete_dstLen_toNat s (by omega) ..).trans (by omega)
  · refine dstByte_decodeFinish (front := []) hout (Nat.zero_add a) ?_
    rw [srcBytes_getElem? ha, Nat.zero_add]
  · refine dstByte_decodeFinish (a := a - s.decLen.toNat) hout (by rw [srcBytes_length]; omega) ?_
    rw [List.getElem?_replicate_of_lt (by omega)]
  · refine dstByte_decodeFinish (a := s.oc.toNat - 1 - j) (rest := []) (congrArg _ (List.append_nil _)) ?_ ?_
    · rw [List.length_append, srcBytes_length, List.length_replicate]
      omega
    · rw [rev_workBytes_getElem? (by omega), Nat.sub_sub_self (by omega)]

theorem statusDone_frame_toNat : ∀ trunc clamp : Bool,
    (statusDone true trunc clamp).toNat = 0x22 + 8 * trunc.toNat + 16 * clamp.toNat := by decide

theorem exec_decode_run (hrun : s.phase = .run) (m e : Bool) :
    exec (.decode m e) s = ended (runCommand (withCommand 1 m e s)) := command_run hrun 1 m e

theorem exec_decode_of_runCommand {u : State} {m e : Bool} (hrun : s.phase = .run)
    (h : runCommand (withCommand 1 m e s) = decodeFinish u) : exec (.decode m e) s = .next (decodeFinish u) := by
  rw [exec_decode_run hrun, h, ended_idle (decodeFinish_completed u).phase]

/-- With the output complete TOKEN_LOOP reads nothing more (R268). -/
theorem engineOp_of_loop_over (h : s.stage = .decodeEnd ∨ (s.stage = .decodeLoop ∧ s.oc.toNat = s.want)) :
    engineOp s = decodeFinish s := by
  obtain hend | ⟨hloop, hfull⟩ := h
  · exact engineOp_decodeEnd hend
  · have hdone : ¬s.oc.toNat < s.want := hfull.not_lt
    rw [engineOp_decodeLoop_none hloop (if_neg hdone), if_neg hdone]

theorem runCommand_of_loop_over (hrun : s.phase = .run)
    (h : s.stage = .decodeEnd ∨ (s.stage = .decodeLoop ∧ s.oc.toNat = s.want)) : runCommand s = decodeFinish s := by
  have hop := engineOp_of_loop_over h
  rw [runCommand_of_first_idle hrun (by rw [hop]; rfl), hop]

end

/-- Settles O44: the command's one operation left is UNREVERSE with the completion. -/
theorem decodeCompletionLayout : Obligations.DecodeCompletionLayout := by
  intro s m e hrun hdec hoc hover
  have hstream := s.streamLen.isLt
  have hlow := s.decLen.isLt
  obtain ⟨hdstLen, hverbatim, hgap, htop⟩ := decodeFinish_layout (s := withCommand 1 m e s) hdec hoc
  obtain ⟨hphase, hctrl, hsrcLen, hexpLen, hsrc, hwork, -, hframe⟩ := complete_frame (withCommand 1 m e s)
    (decodeOutput (withCommand 1 m e s)) true s.warnTrunc s.warnClamp s.streamLen.toNat s.decLen.toNat 0
  refine ⟨_, exec_decode_of_runCommand hrun (runCommand_of_loop_over (s := withCommand 1 m e s) hrun hover),
    ⟨hdstLen, ?_, ?_, rfl, statusDone_frame_toNat .., hphase, hverbatim, hgap, htop⟩, hctrl, hsrcLen, hexpLen, hsrc,
    hwork, hframe⟩
  · exact toNat_ofNat_of_lt (by omega)
  · exact toNat_ofNat_of_lt (by omega)

/-! ## What TOKEN_LOOP reads next (R267, R268, R271) -/

section
variable {s : State}

theorem fetchInstr_decodeLoop (hst : s.stage = .decodeLoop) : fetchInstr s = fetchToken s := by
  rw [fetchInstr, hst]

theorem streamByte_of_lt {i : Nat} (h : i < s.streamLen.toNat) :
    s.streamByte i = some (s.srcByte (s.decLen.toNat + s.streamLen.toNat - 1 - i)) := if_pos h

theorem streamByte_of_le {i : Nat} (h : s.streamLen.toNat ≤ i) : s.streamByte i = none := if_neg (Nat.not_lt.2 h)

theorem fetchToken_groupUsed (hoc : s.oc.toNat < s.want) (hdk : s.dk = 8) :
    fetchToken s = (s.streamByte s.ip.toNat).map decodeFlag := by
  rw [fetchToken, if_pos hoc, if_pos hdk]

theorem fetchToken_flagBit {b : Bool} (hoc : s.oc.toNat < s.want) (hdk : s.dk ≠ 8)
    (hflag : s.fl.getLsbD (7 - s.dk.toNat) = b) : fetchToken s = (decodeToken b
      ((s.streamByte s.ip.toNat).toList ++ (s.streamByte (s.ip.toNat + 1)).toList)).toOption := by
  rw [fetchToken, if_pos hoc, if_neg hdk, tokenBit, hflag]

/-- The stream has no more bytes for what TOKEN_LOOP needs: a flag byte, a literal or both bytes of a match record. -/
abbrev StreamShort (s : State) : Prop :=
  (s.dk = 8 ∧ s.streamLen.toNat ≤ s.ip.toNat) ∨
  (s.dk ≠ 8 ∧ s.fl.getLsbD (7 - s.dk.toNat) = false ∧ s.streamLen.toNat ≤ s.ip.toNat) ∨
  (s.dk ≠ 8 ∧ s.fl.getLsbD (7 - s.dk.toNat) = true ∧ s.streamLen.toNat < s.ip.toNat + 2)

theorem fetchToken_of_streamShort (hoc : s.oc.toNat < s.want) (h : StreamShort s) : fetchToken s = none := by
  obtain ⟨hdk, hip⟩ | ⟨hdk, hflag, hip⟩ | ⟨hdk, hflag, hip⟩ := h
  · rw [fetchToken_groupUsed hoc hdk, streamByte_of_le hip, Option.map_none]
  · rw [fetchToken_flagBit hoc hdk hflag, streamByte_of_le hip, streamByte_of_le (hip.trans (Nat.le_succ _))]
    rfl
  · rw [fetchToken_flagBit hoc hdk hflag, streamByte_of_le (i := s.ip.toNat + 1) (Nat.le_of_lt_succ hip)]
    cases s.streamByte s.ip.toNat <;> rfl

/-- A truncated stream leaves the loop, and DECODE ends with what it has (R271). -/
theorem runCommand_of_streamShort (hrun : s.phase = .run) (hst : s.stage = .decodeLoop) (hoc : s.oc.toNat < s.want)
    (h : StreamShort s) : runCommand s = decodeFinish (truncate s) := by
  have hfirst : engineOp s = truncate s := by
    rw [engineOp_decodeLoop_none hst (fetchToken_of_streamShort hoc h), if_pos hoc]
  obtain ⟨k, hk⟩ : ∃ k, opsLeft s = k + 1 + 1 := ⟨_, opsLeft_decodeLoop hrun hst⟩
  rw [runCommand, hk, runOps_run hrun, hfirst, runOps_run (s := truncate s) hrun, engineOp_decodeEnd rfl,
    runOps_idle (decodeFinish_completed _).phase]

end

/-- Settles O43: nothing is fetched, so the loop is left with WARN_TRUNC and the completion is next. -/
theorem decodeStopsAtTruncation : Obligations.DecodeStopsAtTruncation := by
  intro s m e hrun hst hclamp hoc hshort
  have hdec : s.decLen.toNat ≤ s.rawLen.toNat := by
    unfold State.want at hoc
    omega
  obtain ⟨hdstLen, -, -, htop⟩ := decodeFinish_layout (s := truncate (withCommand 1 m e s)) hdec hoc.le
  refine ⟨_, exec_decode_of_runCommand hrun
    (runCommand_of_streamShort (s := withCommand 1 m e s) hrun hst hoc hshort), ?_, rfl, rfl, rfl, ?_, hdstLen, htop⟩
  · exact congrArg (statusDone true true) hclamp
  · exact congrArg (if s.dk = 8 then s.dk else ·) (ofNat_toNat_add s.dk 1)

/-- Settles O7: what is fetched is what the bytes at ip decode to. -/
theorem decodeFetchReadsStream : Obligations.DecodeFetchReadsStream := by
  intro s hst hoc
  dsimp only
  rw [fetchInstr_decodeLoop hst]
  refine ⟨fun hdk hip => ?_, fun hdk hflag hip => ?_, fun hdk hflag hip => ?_⟩
  · rw [fetchToken_groupUsed hoc hdk, streamByte_of_lt hip]
    rfl
  · rw [fetchToken_flagBit hoc hdk hflag, streamByte_of_lt hip]
    rfl
  · rw [fetchToken_flagBit hoc hdk hflag, streamByte_of_lt (i := s.ip.toNat) (by omega), streamByte_of_lt hip]
    obtain ⟨len, dist, hdecode, rfl, rfl, -⟩ := matchRecordFields.2
      (s.srcByte (s.decLen.toNat + s.streamLen.toNat - 1 - s.ip.toNat))
      (s.srcByte (s.decLen.toNat + s.streamLen.toNat - 1 - (s.ip.toNat + 1))) []
    exact congrArg Except.toOption hdecode

/-! ## The loader places a word where the next step runs it (log 15) -/

section
variable {i : Instr}

theorem ok_of_toOption_eq_some {ε α : Type} {x : Except ε α} {a : α} (h : x.toOption = some a) : x = .ok a := by
  cases x with
  | error => cases h
  | ok => exact congrArg Except.ok (Option.some.inj h)

/-- The decoder that a word of the table is read by, as its width says. -/
theorem decodeTableWord_cases {nbits w : Nat} (h : decodeTableWord nbits w = some i) :
    (∃ f, i = .flag f) ∨ (∃ flag payload, (decodeToken flag payload).toOption = some i) ∨
      (∃ tail, decodeTrailer tail = .ok i) ∨ decodeCommand (BitVec.ofNat 32 w) = .ok i := by
  unfold decodeTableWord at h
  split at h
  · obtain ⟨-, hflag⟩ := Option.ite_none_right_eq_some.1 h
    exact .inl ⟨_, (Option.some.inj hflag).symm⟩
  · split at h
    · obtain ⟨-, hlit⟩ := Option.ite_none_right_eq_some.1 h
      exact .inr (.inl ⟨_, _, hlit⟩)
    · split at h
      · obtain ⟨-, hmatch⟩ := Option.ite_none_right_eq_some.1 h
        exact .inr (.inl ⟨_, _, hmatch⟩)
      · split at h
        · obtain ⟨-, hword⟩ := Option.ite_none_left_eq_some.1 h
          split at hword
          · exact .inr (.inr (.inl ⟨_, ok_of_toOption_eq_some hword⟩))
          · exact .inr (.inr (.inr (ok_of_toOption_eq_some hword)))
        · obtain ⟨-, hframe⟩ := Option.ite_none_right_eq_some.1 h
          obtain ⟨-, htrailer⟩ := Option.ite_none_right_eq_some.1 hframe
          exact .inr (.inr (.inl ⟨_, ok_of_toOption_eq_some htrailer⟩))

/-- Every token that is read has an encoding: no byte pair is reserved (30_encoding R103). -/
theorem decodeToken_wf {flag : Bool} {payload : List Byte} (h : (decodeToken flag payload).toOption = some i) :
    i.wf = true := by
  unfold decodeToken at h
  split at h
  · cases h
    rfl
  · next b0 b1 _ =>
    cases h
    obtain ⟨hlenMin, hlenMax⟩ := matchLength_bounds b0
    obtain ⟨hdistMin, hdistMax⟩ := matchDistance_bounds b0 b1
    simp only [Instr.wf, Bool.and_eq_true, decide_eq_true_eq]
    exact ⟨⟨⟨hlenMin, hlenMax⟩, hdistMin⟩, hdistMax⟩
  · cases h

/-- A trailer with increase_len 0 is read as the stored one (30_encoding R114). -/
theorem decodeTrailer_wf {tail : List Byte} (h : decodeTrailer tail = .ok i) : i.wf = true := by
  unfold decodeTrailer at h
  dsimp only at h
  split at h
  · cases h
  · split at h
    · cases h
      rfl
    · next hinc =>
      split at h
      · cases h
      · cases h
        refine decide_eq_true fun hzero => hinc ?_
        have hlt := fromLE_lt ((tail.drop (tail.length - 4)).take 4)
        have hlen : ((tail.drop (tail.length - 4)).take 4).length ≤ 4 := List.length_take_le ..
        have hbound := Nat.lt_of_lt_of_le hlt (Nat.pow_le_pow_right (by decide) hlen)
        have hmod := (BitVec.toNat_ofNat ..).symm.trans (congrArg BitVec.toNat hzero)
        rwa [Nat.mod_eq_of_lt hbound] at hmod

end

section
variable {s : State} {i : Instr}

theorem srcBytes_setBytes {m : Memory} {a : Nat} {bs : List Byte} (h : s.src = Memory.setBytes m a bs) :
    s.srcBytes a bs.length = bs := by
  refine List.ext_getElem (srcBytes_length ..) fun k _ hk => ?_
  rw [srcBytes_getElem, State.srcByte, h, Memory.get_setBytes, if_pos ⟨Nat.le_add_right .., by omega⟩,
    Nat.add_sub_cancel_left, List.getElem?_eq_getElem hk, Option.getD_some]

/-! ### Tokens and flag bytes -/

/-- The payload is placed as the stream S that the loop reads. -/
theorem placeStream_streamByte {payload : List Byte} (hlen : payload.length ≤ 2) (f : Byte) (dk : BitVec 4)
    {k : Nat} {b : Byte} (hk : payload[k]? = some b) : (placeStream payload f dk s).streamByte k = some b := by
  obtain ⟨hlt, hget⟩ := List.getElem?_eq_some_iff.1 hk
  have hstream : (placeStream payload f dk s).streamLen.toNat = payload.length :=
    toNat_ofNat_of_lt (by omega)
  have hdec : (placeStream payload f dk s).decLen.toNat = 0 := rfl
  have hbytes := srcBytes_setBytes (s := placeStream payload f dk s) (bs := payload.reverse) rfl
  rw [streamByte_of_lt (by omega), hstream, hdec, Nat.zero_add]
  have hrev : payload.reverse[payload.length - 1 - k]? = some b := by
    rw [List.getElem?_reverse (by omega), ← hk]
    congr 1
    omega
  rw [← hbytes, srcBytes_getElem? (by rw [List.length_reverse]; omega), Nat.zero_add] at hrev
  exact hrev

theorem placeStream_oc_lt_want (payload : List Byte) (f : Byte) (dk : BitVec 4) :
    (placeStream payload f dk s).oc.toNat < (placeStream payload f dk s).want := by
  show (4098 : BitVec 24).toNat < (4116 : BitVec 24).toNat - (0 : BitVec 24).toNat
  decide

theorem fetchInstr_placeInstr_flag (f : Byte) (w : Nat) : fetchInstr (placeInstr (.flag f) w s) = some (.flag f) :=
  fetchToken_flag (placeStream_oc_lt_want ..) rfl (placeStream_streamByte (payload := [f]) (Nat.le_succ 1) _ _ rfl)

theorem fetchInstr_placeInstr_lit (b : Byte) (w : Nat) : fetchInstr (placeInstr (.lit b) w s) = some (.lit b) :=
  fetchToken_lit (placeStream_oc_lt_want ..) (by decide : (0 : BitVec 4).toNat < 8)
    (by decide : tokenBit 0x00 (0 : BitVec 4).toNat = false)
    (placeStream_streamByte (payload := [b]) (Nat.le_succ 1) _ _ rfl)

theorem fetchInstr_placeInstr_matchToken {len dist : Nat} (hwf : (Instr.matchToken len dist).wf = true) (w : Nat) :
    fetchInstr (placeInstr (.matchToken len dist) w s) = some (.matchToken len dist) :=
  fetchToken_match (placeStream_oc_lt_want ..) (by decide : (0 : BitVec 4).toNat < 8)
    (by decide : tokenBit 0x80 (0 : BitVec 4).toNat = true) hwf
    (placeStream_streamByte (payload := [matchByte0 len dist, matchByte1 dist]) (Nat.le_refl 2) _ _ rfl)
    (placeStream_streamByte (payload := [matchByte0 len dist, matchByte1 dist]) (Nat.le_refl 2) _ _ rfl)

/-! ### Trailers -/

/-- The trailer is placed as the end of the frame SRC[0..T) that DECODE reads. -/
theorem fetchInstr_placeTrailer {trailer : List Byte} {T : Nat} (hlen : trailer.length = min T 8) (hT : T < 2 ^ 24)
    (hdecode : decodeTrailer trailer = .ok i) : fetchInstr (placeTrailer trailer T s) = some i := by
  obtain ⟨⟨hcap, -⟩, -⟩ := (placeTrailer trailer T s).params.legal
  have hlLen : (placeTrailer trailer T s).lLen.toNat = T := toNat_ofNat_of_lt (by omega)
  have hbytes := srcBytes_setBytes (s := placeTrailer trailer T s) (bs := trailer) rfl
  have hfetch : fetchTrailer (placeTrailer trailer T s) = .ok i := by
    rw [fetchTrailer, hlLen, if_neg (by omega), ← hlen, show T - 8 = T - trailer.length by omega, hbytes, hdecode]
  exact congrArg Except.toOption hfetch

theorem fetchInstr_placeInstr_trailerStored (w : Nat) :
    fetchInstr (placeInstr .trailerStored w s) = some .trailerStored :=
  fetchInstr_placeTrailer (T := 4) rfl (by decide) (decodeTrailer_stored [])

theorem fetchInstr_placeInstr_trailerCompressed (enc : BitVec 24) (hdr : Byte) {inc : Word} (hinc : inc ≠ 0)
    (w : Nat) :
    fetchInstr (placeInstr (.trailerCompressed enc hdr inc) w s) = some (.trailerCompressed enc hdr inc) := by
  have henc := enc.isLt
  have hlen : (payloadBytes (.trailerCompressed enc hdr inc)).length = 8 := by simp [payloadBytes]
  exact fetchInstr_placeTrailer (by omega) (by omega) (decodeTrailer_payloadBytes enc hdr hinc)

/-! ### Command words -/

theorem placeInstr_commandOf (op : BitVec 2) (m e : Bool) (w : Nat) (s : State) :
    placeInstr (commandOf op m e) w s = placeCommand (BitVec.ofNat 32 w) s := by
  unfold commandOf
  split
  · cases m <;> rfl
  · split
    · rfl
    · split <;> rfl

theorem placeCommand_not_busy (w : Word) (s : State) : (placeCommand w s).busy = false := by
  show (s.status &&& ~~~1).getLsbD 0 = false
  simp

/-- A command word is placed as the host's next write to CTRL. -/
theorem step_placeCommand {w : Word} (h : decodeCommand w = .ok i) (s : State) :
    step (placeCommand w s) = exec i (afterInput (placeCommand w s) s.inputs) :=
  step_commandWrite ⟨⟨rfl, rfl⟩, rfl⟩ (placeCommand_not_busy w s) h

end

/-- Settles O8: a token or trailer is what the cut-open DECODE fetches, a command word what the host writes. -/
theorem placedWordIsRunNext : Obligations.PlacedWordIsRunNext := by
  intro s nbits w i h
  rw [State.withFetchWord, placeWord, h]
  dsimp only
  obtain ⟨f, rfl⟩ | ⟨flag, payload, htoken⟩ | ⟨tail, htrailer⟩ | hcommand := decodeTableWord_cases h
  · exact ⟨_, step_fetchInstr nofun rfl (fetchInstr_placeInstr_flag f w)⟩
  · have hwf := decodeToken_wf htoken
    obtain ⟨b, rfl⟩ | ⟨len, dist, rfl⟩ := decodeToken_shape htoken
    · exact ⟨_, step_fetchInstr nofun rfl (fetchInstr_placeInstr_lit b w)⟩
    · exact ⟨_, step_fetchInstr nofun rfl (fetchInstr_placeInstr_matchToken hwf w)⟩
  · have hwf := decodeTrailer_wf htrailer
    obtain rfl | ⟨enc, hdr, inc, rfl⟩ := decodeTrailer_shape htrailer
    · exact ⟨_, step_fetchInstr nofun rfl (fetchInstr_placeInstr_trailerStored w)⟩
    · exact ⟨_, step_fetchInstr nofun rfl (fetchInstr_placeInstr_trailerCompressed enc hdr (of_decide_eq_true hwf) w)⟩
  · obtain ⟨-, rfl⟩ := decodeCommand_ok hcommand
    rw [placeInstr_commandOf]
    exact ⟨_, step_placeCommand hcommand s⟩

end Sys2Proof.Machine

/-! # The order of DECODE's checks: O39 (60_exceptions R302 to R305) -/

namespace Sys2Proof.Machine

/-! ## The trailer that DECODE reads (46_frame_reader R260 to R264) -/

/-- Of a frame of 4 to 7 bytes there is no trailer but the stored one (R262, R264 check 1). -/
theorem decodeTrailer_shortFrame (front incBytes : List Byte) (hfront : front.length < 4) (hinc : incBytes.length = 4) :
    decodeTrailer (front ++ incBytes) = if fromLE incBytes = 0 then .ok .trailerStored else .error .shortHeader := by
  have hlen : (front ++ incBytes).length = front.length + 4 := by rw [List.length_append, hinc]
  have hincBytes : ((front ++ incBytes).drop (front.length + 4 - 4)).take 4 = incBytes :=
    take_drop_eq_middle (rest := []) (List.append_nil _) rfl hinc
  simp only [decodeTrailer, hlen, hincBytes]
  rw [if_neg (by omega : ¬front.length + 4 < 4), if_pos (by omega : front.length + 4 < 8)]

section
variable (s : State)

/-- The last 4 bytes of the frame, as R262 reads them. -/
def State.increaseLen : Nat := fromLE (s.srcBytes (s.lLen.toNat - 4) 4)

/-- The 3 bytes of encoded_len, as R264 reads them. -/
def State.encodedLen : Nat := fromLE (s.srcBytes (s.lLen.toNat - 8) 3)

/-- The byte of header_len, as R264 reads it. -/
def State.headerLen : Byte := s.srcByte (s.lLen.toNat - 5)

theorem increaseLen_toNat : (BitVec.ofNat 32 s.increaseLen).toNat = s.increaseLen :=
  toNat_ofNat_of_lt (by simpa [State.increaseLen] using fromLE_lt (s.srcBytes (s.lLen.toNat - 4) 4))

theorem encodedLen_toNat : (BitVec.ofNat 24 s.encodedLen).toNat = s.encodedLen :=
  toNat_ofNat_of_lt (by simpa [State.encodedLen] using fromLE_lt (s.srcBytes (s.lLen.toNat - 8) 3))

theorem decodeTrailer_of_lt_four {T : Nat} (h : T < 4) :
    decodeTrailer (s.srcBytes (T - 8) (min T 8)) = .error .noTrailer := by
  unfold decodeTrailer
  dsimp only
  rw [if_pos (by rw [srcBytes_length]; omega)]

theorem decodeTrailer_of_lt_eight {T : Nat} (hmin : 4 ≤ T) (h : T < 8) :
    decodeTrailer (s.srcBytes (T - 8) (min T 8)) =
      if fromLE (s.srcBytes (T - 4) 4) = 0 then .ok .trailerStored else .error .shortHeader := by
  rw [Nat.sub_eq_zero_of_le h.le, Nat.min_eq_left h.le, ← decodeTrailer_shortFrame (s.srcBytes 0 (T - 4))
    (s.srcBytes (T - 4) 4) (by rw [srcBytes_length]; omega) (srcBytes_length ..)]
  conv_lhs => rw [← Nat.sub_add_cancel hmin, srcBytes_add, Nat.zero_add]

theorem decodeTrailer_of_eight_le {T : Nat} (h : 8 ≤ T) :
    decodeTrailer (s.srcBytes (T - 8) (min T 8)) =
      if fromLE (s.srcBytes (T - 4) 4) = 0 then .ok .trailerStored
      else .ok (.trailerCompressed (BitVec.ofNat 24 (fromLE (s.srcBytes (T - 8) 3))) (s.srcByte (T - 5))
        (BitVec.ofNat 32 (fromLE (s.srcBytes (T - 4) 4)))) := by
  have hhdr : s.srcBytes (T - 8 + 3) 1 = [s.srcByte (T - 5)] := by
    rw [show T - 8 + 3 = T - 5 by omega]
    rfl
  rw [Nat.min_eq_right h, show 8 = 3 + 1 + 4 from rfl, srcBytes_add, srcBytes_add, hhdr,
    show T - (3 + 1 + 4) + (3 + 1) = T - 4 by omega]
  exact decodeTrailer_frame [] _ _ _ (srcBytes_length ..) (srcBytes_length ..)

/-- What DECODE finds at the end of its frame, in the order in which it looks (R260 to R262, R264 check 1). -/
theorem fetchTrailer_eq : fetchTrailer s =
    if s.params.srcCap < s.lLen.toNat then .error .outOfMemory
    else if s.lLen.toNat < 4 then .error .corruptHeader
    else if s.increaseLen = 0 then .ok .trailerStored
    else if s.lLen.toNat < 8 then .error .corruptHeader
    else .ok (.trailerCompressed (BitVec.ofNat 24 s.encodedLen) s.headerLen (BitVec.ofNat 32 s.increaseLen)) := by
  rw [fetchTrailer]
  refine if_congr Iff.rfl rfl ?_
  obtain hnone | hmin := Nat.lt_or_ge s.lLen.toNat 4
  · rw [decodeTrailer_of_lt_four s hnone, if_pos hnone]
  · rw [if_neg hmin.not_gt]
    obtain hshort | hlong := Nat.lt_or_ge s.lLen.toNat 8
    · rw [decodeTrailer_of_lt_eight s hmin hshort, ← State.increaseLen, if_pos hshort]
      by_cases hinc : s.increaseLen = 0
      · rw [if_pos hinc, if_pos hinc]
      · rw [if_neg hinc, if_neg hinc]
    · rw [decodeTrailer_of_eight_le s hlong, ← State.increaseLen, ← State.encodedLen, ← State.headerLen,
        if_neg hlong.not_gt]
      by_cases hinc : s.increaseLen = 0
      · rw [if_pos hinc, if_pos hinc]
      · rw [if_neg hinc, if_neg hinc]

/-! ## The first check that fails -/

/-- The checks that follow a trailer which has been read (R263, R264, R265). -/
def trailerError : Instr → Option ErrorKind
  | .trailerCompressed enc hdr inc => headerError s.lLen.toNat enc.toNat hdr.toNat inc.toNat s.params.dstCap
  | _ => if StoredLengthBad s then some .corruptHeader else none

theorem trailerError_stored :
    trailerError s .trailerStored = if StoredLengthBad s then some .corruptHeader else none := rfl

/-- The error that DECODE's first operation raises, if it raises one. -/
def decodeError : Option ErrorKind :=
  match fetchTrailer s with
  | .error e => some e
  | .ok i => trailerError s i

theorem decodeError_of_error {e : ErrorKind} (h : fetchTrailer s = .error e) : decodeError s = some e := by
  rw [decodeError, h]

theorem decodeError_of_ok {i : Instr} (h : fetchTrailer s = .ok i) : decodeError s = trailerError s i := by
  rw [decodeError, h]

end

/-- The header checks of a frame of 8 bytes or more, by their codes: DST holds every raw length within RAW_MAX, so the
last check of R265 never fails (00_scope R4). -/
theorem headerError_code {T enc hdr inc dstCap : Nat} (hT : 8 ≤ T) (hcap : Config.rawMax ≤ dstCap) :
    (headerError T enc hdr inc dstCap).map ErrorKind.code =
      if hdr < 8 ∨ 11 < hdr then some 1
      else if enc ≤ hdr ∨ T < hdr ∨ T < enc then some 2
      else if Config.rawMax < (T - enc + enc + inc) % 2 ^ 32 then some 3
      else if (T - enc + enc + inc) % 2 ^ 32 < T - enc then some 2
      else none := by
  rw [headerError, if_neg (Nat.not_lt.2 hT)]
  split
  · rfl
  · split
    · rfl
    · split
      · rfl
      · next hfits =>
        split
        · rfl
        · rw [if_neg (by omega)]
          rfl

/-- R305's list of checks, as `decodeCheck` writes it out, is the order in which the model makes them. -/
theorem decodeCheck_eq (s : State) : decodeCheck s s.lExpv = (decodeError s).map ErrorKind.code := by
  have hfetch := fetchTrailer_eq s
  have hcap := dstCap_ge (s := s)
  have hraw : Config.rawMax = 16777215 := rfl
  have halign : 0x01000000 = align4 Config.rawMax := rfl
  rw [decodeCheck, ← State.increaseLen, ← State.encodedLen, ← State.headerLen]
  split
  · next hlarge => rw [decodeError_of_error s (hfetch.trans (if_pos hlarge))]; rfl
  · next hlarge =>
    rw [if_neg hlarge] at hfetch
    split
    · next hnone => rw [decodeError_of_error s (hfetch.trans (if_pos hnone))]; rfl
    · next hnone =>
      rw [if_neg hnone] at hfetch
      split
      · next hstored =>
        rw [decodeError_of_ok s (hfetch.trans (if_pos hstored)), trailerError_stored, halign]
        unfold StoredLengthBad
        split
        · split <;> rfl
        · split <;> rfl
      · next hcompressed =>
        rw [if_neg hcompressed] at hfetch
        split
        · next hshort => rw [decodeError_of_error s (hfetch.trans (if_pos hshort))]; rfl
        · next hshort =>
          rw [decodeError_of_ok s (hfetch.trans (if_neg hshort)), trailerError,
            headerError_code (Nat.not_lt.1 hshort) (by omega), encodedLen_toNat, increaseLen_toNat]

/-! ## What DECODE goes on with -/

/-- The warnings as R303 finds them: none in TOKEN_LOOP but a clamp that has filled the output, and TRUNCATED_STREAM alone
after a break. -/
def WarnedAsFound (u : State) : Prop :=
  (u.stage = .decodeLoop ∧ u.warnTrunc = false ∧ (u.oc.toNat < u.want → u.warnClamp = false)) ∨
  (u.stage = .decodeEnd ∧ u.warnTrunc = true ∧ u.warnClamp = false)

/-- DECODE of `s` has passed its checks and goes on in `u`. -/
structure PastChecks (s u : State) : Prop where
  run : u.phase = .run
  untouched : u.untouched = s.untouched
  warned : WarnedAsFound u

/-- DECODE of `s` has ended with success or with BAD_DISTANCE. -/
structure DecodeEnded (s t : State) : Prop where
  idle : t.phase = .idle
  result : t.status = 0x02 ∨ t.status = 0x22 ∨ t.status = 0x2A ∨ t.status = 0x32 ∨ RaisedAs 7 s t

section
variable {s u : State}

theorem raise_raisedAs_of_untouched (e : ErrorKind) (h : u.untouched = s.untouched) : RaisedAs e.code s (raise e u) := by
  obtain ⟨hstatus, hdstLen, hcutPak, hcutRaw, hpakLen, hphase, hmid, -⟩ := raise_raisedAs e u
  exact ⟨hstatus, hdstLen, hcutPak, hcutRaw, hpakLen, hphase, hmid,
    frame_of_untouched ((raise_untouched u e).trans h)⟩

theorem four_le_of_fetchTrailer {i : Instr} (h : fetchTrailer s = .ok i) : 4 ≤ s.lLen.toNat := by
  rw [fetchTrailer_eq] at h
  by_contra hlt
  rw [if_pos (Nat.not_le.1 hlt)] at h
  split at h <;> cases h

theorem streamEffect_trailerStored (hop : s.lOp = 1) : streamEffect .trailerStored s = storedRead s := by
  rw [streamEffect, trailerStoredEffect, encoding_eq_false_of_decode hop, if_neg Bool.false_ne_true]

theorem streamEffect_trailerCompressed (hop : s.lOp = 1) (enc : BitVec 24) (hdr : Byte) (inc : Word) :
    streamEffect (.trailerCompressed enc hdr inc) s = readHeader enc hdr inc s := by
  rw [streamEffect, trailerCompressedEffect, encoding_eq_false_of_decode hop, if_neg Bool.false_ne_true]

theorem streamEffect_of_trailerError {i : Instr} {e : ErrorKind} (hop : s.lOp = 1) (htrailer : fetchTrailer s = .ok i)
    (h : trailerError s i = some e) : streamEffect i s = raise e s := by
  obtain rfl | ⟨enc, hdr, inc, rfl⟩ := fetchTrailer_shape htrailer
  · obtain ⟨hbad, hkind⟩ := Option.ite_none_right_eq_some.1 h
    cases hkind
    rw [streamEffect_trailerStored hop, storedRead_of_bad (four_le_of_fetchTrailer htrailer) hbad]
  · rw [streamEffect_trailerCompressed hop, readHeader, show headerError _ _ _ _ _ = some e from h]

/-- The first operation of DECODE raises the error of the first check that fails. -/
theorem engineOp_of_decodeError {e : ErrorKind} (hst : s.stage = .dispatch) (hop : s.lOp = 1)
    (h : decodeError s = some e) : engineOp s = raise e s := by
  cases htrailer : fetchTrailer s with
  | error k =>
    rw [decodeError_of_error s htrailer] at h
    cases h
    exact engineOp_dispatch_error hst hop htrailer
  | ok i =>
    rw [decodeError_of_ok s htrailer] at h
    rw [engineOp_dispatch_decode hst hop htrailer]
    exact streamEffect_of_trailerError hop htrailer h

/-- With every check passed, a stored frame is delivered and a compressed one opens its stream. -/
theorem engineOp_of_no_decodeError (hrun : s.phase = .run) (hst : s.stage = .dispatch) (hop : s.lOp = 1)
    (h : decodeError s = none) : PastChecks s (engineOp s) ∨ DecodeEnded s (engineOp s) := by
  cases htrailer : fetchTrailer s with
  | error k =>
    rw [decodeError_of_error s htrailer] at h
    cases h
  | ok i =>
    rw [decodeError_of_ok s htrailer] at h
    rw [engineOp_dispatch_decode hst hop htrailer]
    obtain rfl | ⟨enc, hdr, inc, rfl⟩ := fetchTrailer_shape htrailer
    · have hok : ¬StoredLengthBad s := fun hbad => by
        rw [trailerError_stored, if_pos hbad] at h
        cases h
      rw [streamEffect_trailerStored hop, storedRead_of_not_bad (four_le_of_fetchTrailer htrailer) hok]
      exact .inr ⟨rfl, .inl rfl⟩
    · rw [streamEffect_trailerCompressed hop, readHeader_opens h]
      exact .inl ⟨hrun, rfl, .inl ⟨rfl, rfl, fun _ => rfl⟩⟩

/-! ## TOKEN_LOOP (R268 to R272) -/

/-- While output is missing nothing has been warned. -/
theorem PastChecks.no_warning (h : PastChecks s u) (hst : u.stage = .decodeLoop) (hoc : u.oc.toNat < u.want) :
    u.warnTrunc = false ∧ u.warnClamp = false := by
  obtain ⟨-, htrunc, hclamp⟩ | ⟨hend, -⟩ := h.warned
  · exact ⟨htrunc, hclamp hoc⟩
  · cases hst.symm.trans hend

/-- A flag byte or token that is read without an error keeps DECODE in its loop; it may warn CLAMP when it completes the
output. -/
theorem PastChecks.of_token {t : State} {clamp : Bool} (h : PastChecks s u) (hst : u.stage = .decodeLoop)
    (hoc : u.oc.toNat < u.want) (hphase : t.phase = u.phase) (hu : t.untouched = u.untouched)
    (hprogress : t.progress = { u.progress with warnClamp := clamp })
    (hclamp : t.oc.toNat < u.want → clamp = false) : PastChecks s t := by
  obtain ⟨htrunc, -⟩ := h.no_warning hst hoc
  have hwant : t.want = u.want := by
    simp only [State.want, State.rawLen, State.decLen, hprogress]
  refine ⟨hphase.trans h.run, hu.trans h.untouched, .inl ⟨?_, ?_, fun hmore => ?_⟩⟩
  · exact (congrArg Progress.stage hprogress).trans hst
  · exact (congrArg Progress.warnTrunc hprogress).trans htrunc
  · exact (congrArg Progress.warnClamp hprogress).trans (hclamp (hwant ▸ hmore))

/-- MATCH_STEP raises BAD_DISTANCE, or copies and clamps only at the end of the output (R270). -/
theorem PastChecks.matchStep (h : PastChecks s u) (hst : u.stage = .decodeLoop) (hoc : u.oc.toNat < u.want)
    (len dist : Nat) : PastChecks s (matchStep len dist u) ∨ DecodeEnded s (matchStep len dist u) := by
  obtain hfar | hdist := Nat.lt_or_ge u.oc.toNat dist
  · rw [matchStep_badDistance u hfar]
    exact .inr ⟨rfl, .inr (.inr (.inr (.inr (raise_raisedAs_of_untouched .badDistance h.untouched))))⟩
  · have hu := matchStep_untouched u len dist
    obtain ⟨midstep, hcopy, hmid⟩ := matchStep_eq_copyMatch u hdist len
    have hwant := want_lt u
    have hcount : (Machine.matchStep len dist u).oc.toNat = u.oc.toNat + min len (u.want - u.oc.toNat) := by
      rw [hcopy]
      exact copyMatch_oc (recordUsed u midstep) dist _ (show u.oc.toNat + _ < _ by omega)
    refine .inl (h.of_token hst hoc ?_ hu (hcopy ▸ (copyMatch_progress (recordUsed u midstep) dist _).trans hmid)
      fun hmore => ?_)
    · rw [hcopy]
      exact congrArg Reported.phase (copyMatch_reported (recordUsed u midstep) dist _)
    · rw [(h.no_warning hst hoc).2, Bool.false_or, decide_eq_false (by omega)]

/-- TOKEN_LOOP's next flag byte or token. -/
theorem PastChecks.streamEffect {i : Instr} (h : PastChecks s u) (hop : u.lOp = 1) (hst : u.stage = .decodeLoop)
    (hfetch : fetchToken u = some i) : PastChecks s (streamEffect i u) ∨ DecodeEnded s (streamEffect i u) := by
  have henc : u.encoding = false := encoding_eq_false_of_decode hop
  obtain ⟨hoc, ⟨-, f, rfl⟩ | ⟨b, rfl⟩ | ⟨len, dist, -, rfl⟩⟩ := fetchToken_cases hfetch
  · rw [Machine.streamEffect, flagEffect, henc]
    exact .inl (h.of_token hst hoc rfl rfl rfl fun _ => (h.no_warning hst hoc).2)
  · rw [Machine.streamEffect, litEffect, henc]
    exact .inl (h.of_token hst hoc rfl rfl rfl fun _ => (h.no_warning hst hoc).2)
  · rw [Machine.streamEffect, matchEffect, henc]
    exact h.matchStep hst hoc len dist

theorem statusDone_frame_of_one_warning : ∀ trunc clamp : Bool, (trunc && clamp) = false →
    statusDone true trunc clamp = 0x22 ∨ statusDone true trunc clamp = 0x2A ∨ statusDone true trunc clamp = 0x32 := by
  decide

/-- DECODE completes with at most one warning (R273, 60_exceptions R303). -/
theorem PastChecks.decodeFinish (h : PastChecks s u) : DecodeEnded s (decodeFinish u) := by
  have hone : (u.warnTrunc && u.warnClamp) = false := by
    obtain ⟨-, htrunc, -⟩ | ⟨-, -, hclamp⟩ := h.warned
    · rw [htrunc, Bool.false_and]
    · rw [hclamp, Bool.and_false]
  refine ⟨rfl, .inr ?_⟩
  exact (statusDone_frame_of_one_warning _ _ hone).imp_right (Or.imp_right .inl)

/-- An operation of DECODE past its checks goes on, or ends it. -/
theorem PastChecks.engineOp (h : PastChecks s u) (hop : s.lOp = 1) :
    PastChecks s (engineOp u) ∨ DecodeEnded s (engineOp u) := by
  have huop : u.lOp = 1 := (congrArg Untouched.lOp h.untouched).trans hop
  obtain ⟨hst, -, -⟩ | ⟨hend, -⟩ := h.warned
  · cases hfetch : fetchToken u with
    | some i =>
      rw [engineOp_of_fetchToken hst hfetch]
      exact h.streamEffect huop hst hfetch
    | none =>
      rw [engineOp_decodeLoop_none hst hfetch]
      split
      · next hoc => exact .inl ⟨h.run, h.untouched, .inr ⟨rfl, rfl, (h.no_warning hst hoc).2⟩⟩
      · exact .inr h.decodeFinish
  · rw [engineOp_decodeEnd hend]
    exact .inr h.decodeFinish

/-- DECODE whose checks all pass. -/
theorem runCommand_of_no_decodeError (hst : JustStarted s) (hop : s.lOp = 1) (h : decodeError s = none) :
    DecodeEnded s (runCommand s) :=
  runCommand_ends_in hst.1 (loopFits_of_midstep_none hst.2)
    (engineOp_of_no_decodeError hst.1 (stage_none hst.2) hop h) (fun _ hu => hu.engineOp hop) (fun _ hu => hu.run)
    fun _ ht => ht.idle

/-- DECODE whose first failing check raises `e`. -/
theorem runCommand_of_decodeError {e : ErrorKind} (hst : JustStarted s) (hop : s.lOp = 1)
    (h : decodeError s = some e) : runCommand s = raise e s := by
  have hfirst := engineOp_of_decodeError (stage_none hst.2) hop h
  rw [runCommand_of_first_idle hst.1 (by rw [hfirst]; rfl), hfirst]

end

/-- Settles O39: R305's list is the model's order of checks; past them DECODE ends with one warning at most, or with
BAD_DISTANCE. -/
theorem decodeErrorPriority : Obligations.DecodeErrorPriority := by
  intro s m e hst
  have hcheck : decodeCheck s e = (decodeError (withCommand 1 m e s)).map ErrorKind.code :=
    decodeCheck_eq (withCommand 1 m e s)
  refine ⟨runCommand (withCommand 1 m e s), exec_commandOf_justStarted hst 1 m e, fun c hc => ?_, fun hnone => ?_⟩
  · obtain ⟨k, hk, rfl⟩ := Option.map_eq_some_iff.1 (hcheck.symm.trans hc)
    rw [runCommand_of_decodeError (s := withCommand 1 m e s) hst rfl hk]
    exact raise_raisedAs k (withCommand 1 m e s)
  · have herror := Option.map_eq_none_iff.1 (hcheck.symm.trans hnone)
    exact (runCommand_of_no_decodeError (s := withCommand 1 m e s) hst rfl herror).result

end Sys2Proof.Machine

/-! # The reset, and no command that hangs: O22, O23, O45 and O49 (70_reset_and_hazards R331, R332, R340) -/

namespace Sys2Proof.Machine

/-! ## The platform's reset (R330 to R332) -/

section
variable {s : State} {rest : List Input}

theorem hostFetch_reset (hin : s.inputs = .reset :: rest) :
    hostFetch s = .other (.next (resetBlock { s with inputs := rest })) := by
  simp only [hostFetch, hin]

theorem step_reset (hmoves : HostMoves s) (hin : s.inputs = .reset :: rest) :
    step s = .next (resetBlock (afterInput s rest)) :=
  step_of_fetch_other ((fetch_hostMoves hmoves).trans (hostFetch_reset hin))

end

/-- Settles O22: the step is the reset itself, and what it leaves is an idle engine with no step of its own. -/
theorem resetAbortsAndClears : Obligations.ResetAbortsAndClears := by
  intro s rest hmoves hin
  exact ⟨resetBlock (afterInput s rest), step_reset hmoves hin, rfl, rfl, rfl, rfl, rfl, rfl, rfl, rfl, rfl, rfl, rfl,
    fun hturn => idleEngineHasNoStep _ rfl ⟨rfl, hturn⟩⟩

/-- Settles O23: START latches the length 0 that the reset left, and ENCODE of no bytes delivers a stored frame that is
its trailer alone. -/
theorem emptyEncodeAfterReset : Obligations.EmptyEncodeAfterReset := by
  intro s rest i m e hmoves hin hi
  subst hi
  have hstart := (exec_commandOf 0 m e (resetBlock (afterInput s rest))).trans (command_idle rfl 0 m e)
  have hlen : (start 0 m e (resetBlock (afterInput s rest))).lLen.toNat = 0 := rfl
  obtain ⟨v, hexec, hdelivers, -⟩ := encodeAlwaysDelivers (start 0 m e (resetBlock (afterInput s rest))) m e
    ⟨rfl, rfl⟩ (Nat.zero_le _)
  rw [hlen] at hdelivers
  obtain ⟨-, -, -, -, -, -, -, hstream, hcut, -, hnoCut, hstored, -⟩ := hdelivers
  have hcutPak : v.cutPak = 0 := (eq_zero_iff_toNat v.cutPak).2 (by omega)
  have hcutRaw : v.cutRaw = 0 := (eq_zero_iff_toNat v.cutRaw).2 (by omega)
  have hstatus := hnoCut hcutPak
  obtain ⟨hdstLen, -, hzeros⟩ := hstored hstatus
  exact ⟨_, _, v, step_reset hmoves hin, hstart, hexec, hstatus, BitVec.eq_of_toNat_eq hdstLen, hcutPak, hcutRaw,
    hstream.2 rfl, fun a ha => hzeros a (Nat.zero_le a) ha⟩

/-! ## No transition faults (R340) -/

section
variable {s : State}

/-- A legal idle engine stands at no place of a command (log 6). -/
theorem midstep_none_of_idle (hinv : s.Inv) (hidle : s.phase = .idle) : s.midstep = none := by
  obtain ⟨-, ⟨-, -, hregs⟩, -⟩ := hinv
  obtain ⟨-, hmid, -⟩ := hregs hidle
  exact hmid

/-- The host can start a command only where the engine is legal and idle, so the command is START and completes
nothing. -/
theorem exec_of_starts {a : Access} {w : Word} (hinv : s.Inv) (hbus : busAccess a s = .starts w) (op : BitVec 2)
    (m e : Bool) : exec (commandOf op m e) s = .next (start op m e s) := by
  obtain ⟨-, -, -, hbusy, -⟩ := busAccess_starts hbus
  rw [exec_commandOf, command_idle (phase_idle_of_not_busy hinv hbusy)]

/-- The host's transition from a legal state takes effect or is refused. -/
theorem hostFetch_ne_fault (hinv : s.Inv) (f : Fault) : (hostFetch s).result ≠ .fault f := by
  cases hin : s.inputs with
  | nil => rw [show hostFetch s = .other (.next s) by simp only [hostFetch, hin]]; nofun
  | cons input rest =>
    cases input with
    | reset => rw [hostFetch_reset hin]; nofun
    | waitDone => rw [hostFetch_waitDone hin]; nofun
    | access a =>
      have hinput : State.Inv { s with inputs := rest } := hinv
      cases hbus : busAccess a { s with inputs := rest } with
      | done t => rw [hostFetch_done hin hbus]; nofun
      | rejected r => rw [hostFetch_rejected hin hbus]; nofun
      | starts w => rw [hostFetch_starts hin hbus, Fetched.result, exec_of_starts hinput hbus]; nofun

/-- In a legal state the engine's turn passes, or completes the latched command. -/
theorem engineFetch_ne_fault (hinv : s.Inv) (f : Fault) : (engineFetch s).result ≠ .fault f := by
  cases hphase : s.phase with
  | idle => rw [engineFetch_idle hphase]; nofun
  | run =>
    obtain ⟨t, hexec, -⟩ := exec_latched_completed s hphase (loopFits_of_inv hinv hphase)
    rw [engineFetch_run hphase, Fetched.result, hexec]
    nofun

end

/-- Settles O49: a part of a cut-open completion step answers a next state, and neither agent's turn faults, since the
operation bound of a legal running state suffices. -/
theorem noStepFaults : Obligations.NoStepFaults := by
  intro s f hinv
  cases hmid : s.midstep with
  | some p =>
    cases hphase : s.phase with
    | idle => cases hmid.symm.trans (midstep_none_of_idle hinv hphase)
    | run => rw [step_midstep hmid hphase]; nofun
  | none =>
    have hpop : (popTurn s).Inv := hinv
    rw [step_eq_fetch_result]
    cases hturn : nextTurn s with
    | host => rw [fetch_hostMoves ⟨hmid, hturn⟩]; exact hostFetch_ne_fault hpop f
    | engine => rw [fetch_engineMoves ⟨hmid, hturn⟩]; exact engineFetch_ne_fault hpop f

/-! ## Every DECODE ends -/

section
variable {s t : State}

/-- MODE and EXP_VALID do not matter to a legal state. -/
theorem withCommand_inv {op : BitVec 2} (hinv : s.Inv) (hop : s.lOp = op) (m e : Bool) : (withCommand op m e s).Inv := by
  subst hop
  exact hinv

theorem runCommand_inv (hinv : s.Inv) : (runCommand s).Inv := runOps_inv hinv _

theorem runCommand_untouched (s : State) : (runCommand s).untouched = s.untouched := runOps_untouched ..

/-- A trailer that DECODE reads ends it with PAK_LEN 0 or opens the stream (46_frame_reader R263, R265). -/
theorem streamEffect_trailer_pakLen {i : Instr} (hop : s.lOp = 1) (hpak : s.pakLen = 0) (h : fetchTrailer s = .ok i) :
    (streamEffect i s).pakLen = 0 := by
  obtain rfl | ⟨enc, hdr, inc, rfl⟩ := fetchTrailer_shape h
  · rw [streamEffect_trailerStored hop]
    by_cases hbad : StoredLengthBad s
    · rw [storedRead_of_bad (four_le_of_fetchTrailer h) hbad]; rfl
    · rw [storedRead_of_not_bad (four_le_of_fetchTrailer h) hbad]; rfl
  · rw [streamEffect_trailerCompressed hop, readHeader]
    split
    · rfl
    · exact hpak

/-- MATCH_STEP reports nothing, or RAISE's zeros (46_frame_reader R270). -/
theorem matchStep_pakLen (hpak : s.pakLen = 0) (len dist : Nat) : (matchStep len dist s).pakLen = 0 := by
  obtain hfar | hdist := Nat.lt_or_ge s.oc.toNat dist
  · rw [matchStep_badDistance s hfar]; rfl
  · obtain ⟨midstep, hcopy, -⟩ := matchStep_eq_copyMatch s hdist len
    rw [hcopy]
    exact (congrArg Reported.pakLen (copyMatch_reported ..)).trans hpak

/-- A token or flag byte of DECODE's stream. -/
theorem streamEffect_token_pakLen {i : Instr} (hop : s.lOp = 1) (hpak : s.pakLen = 0) (h : fetchToken s = some i) :
    (streamEffect i s).pakLen = 0 := by
  obtain ⟨-, ⟨-, f, rfl⟩ | ⟨b, rfl⟩ | ⟨len, dist, -, rfl⟩⟩ := fetchToken_cases h
  · exact (congrArg Reported.pakLen (flagEffect_reported s f)).trans hpak
  · exact (congrArg Reported.pakLen (litEffect_reported s b)).trans hpak
  · rw [streamEffect, matchEffect, encoding_eq_false_of_decode hop]
    exact matchStep_pakLen hpak len dist

/-- No operation of DECODE reports a stream length: PAK_LEN is ENCODE's (46_frame_reader R273). -/
theorem engineOp_pakLen_of_decode (hfits : LoopFits s) (hop : s.lOp = 1) (hpak : s.pakLen = 0) :
    (engineOp s).pakLen = 0 := by
  cases hst : s.stage with
  | dispatch =>
    obtain ⟨hop0, -⟩ | ⟨e, h⟩ | ⟨-, i, hi, h⟩ := engineOp_dispatch hst
    · cases hop.symm.trans hop0
    · rw [h]; rfl
    · rw [h]; exact streamEffect_trailer_pakLen hop hpak hi
  | encodeLoop => cases hop.symm.trans (hfits.encode hst).1
  | decodeLoop =>
    obtain ⟨i, hi, h⟩ | h | h := engineOp_decodeLoop hst <;> rw [h]
    · exact streamEffect_token_pakLen hop hpak hi
    · exact hpak
    · rfl
  | decodeEnd => rw [engineOp_decodeEnd hst]; rfl

theorem runCommand_pakLen_of_decode (hinv : s.Inv) (hrun : s.phase = .run) (hop : s.lOp = 1) :
    (runCommand s).pakLen = 0 := by
  obtain ⟨-, ⟨-, hregs, -⟩, -⟩ := id hinv
  obtain ⟨-, -, -, -, hpak⟩ := hregs hrun
  refine (runOps_induction (P := fun u => u.Inv ∧ u.lOp = 1 ∧ u.pakLen = 0) (fun u hu h => ?_) (opsLeft s) s
    ⟨hinv, hop, hpak⟩).2.2
  obtain ⟨huinv, huop, hupak⟩ := h
  exact ⟨engineOp_inv huinv hu, (congrArg Untouched.lOp (engineOp_untouched u)).trans huop,
    engineOp_pakLen_of_decode (loopFits_of_inv huinv hu) huop hupak⟩

theorem not_both_warnings_of_mem :
    ∀ n ∈ idleStatuses, ((BitVec.ofNat 32 n).getLsbD 3 && (BitVec.ofNat 32 n).getLsbD 4) = false := by
  decide

/-- No legal STATUS shows both warnings (10_state R29). -/
theorem not_both_warnings_of_inv (hinv : t.Inv) (hidle : t.phase = .idle) :
    (t.statusTrunc && t.statusClamp) = false := by
  obtain ⟨-, ⟨-, -, hregs⟩, -⟩ := hinv
  have h := not_both_warnings_of_mem _ (hregs hidle).1
  rwa [BitVec.ofNat_toNat, BitVec.setWidth_eq] at h

end

/-- Settles O45: the completion step runs internal operations only, so it ends in a legal idle state, which shows one
warning at most, zeros after an error and an output within DST; PAK_LEN stays 0 as no operation of DECODE reports it. -/
theorem decodeAlwaysEnds : Obligations.DecodeAlwaysEnds := by
  intro s m e hinv hrun hop
  have hcmd : (withCommand 1 m e s).Inv := withCommand_inv hinv hop m e
  have hends := runCommand_completed (withCommand 1 m e s) hrun (loopFits_of_inv hcmd hrun)
  have hlegal := runCommand_inv hcmd
  have hu := runCommand_untouched (withCommand 1 m e s)
  have hwarn := not_both_warnings_of_inv hlegal hends.phase
  have hpak := runCommand_pakLen_of_decode hcmd hrun rfl
  obtain ⟨⟨-, -, -, hcap, -⟩, ⟨-, -, hregs⟩, -⟩ := hlegal
  obtain ⟨-, -, herror⟩ := hregs hends.phase
  refine ⟨_, (exec_decode_run hrun m e).trans (ended_idle hends.phase), hends.phase, hends.done, hends.busy, hwarn,
    fun h => ?_, ?_, hpak, frame_of_untouched (s := withCommand 1 m e s) hu⟩
  · obtain ⟨hdstLen, hcutPak, hcutRaw, -⟩ := herror h
    exact ⟨hdstLen, hcutPak, hcutRaw⟩
  · rwa [show (runCommand (withCommand 1 m e s)).params = s.params from congrArg Untouched.params hu] at hcap

end Sys2Proof.Machine
